-- ==== Sys2Proof/Word.lean ====
section
/-! DEFINITION. The word types of the block: the command word, the two IEEE formats' data, and strings (spec/00_scope.md
R2, R11, R12; spec/30_encoding.md R60). -/

namespace Sys2Proof

/-- The command word `cmd : Bits(4)` (spec/30_encoding.md R60). -/
abbrev Command := BitVec 4

/-- A datum of the Single format, as its bit vector (spec/00_scope.md R2, R13). -/
abbrev Binary32 := BitVec 32

/-- A datum of the Double format, as its bit vector (spec/00_scope.md R2, R13). -/
abbrev Binary64 := BitVec 64

/-- A string: "a finite sequence of characters (Unicode scalar values)" (spec/00_scope.md R11). A Lean `Char` is a
Unicode scalar value; the index 0 is the head of the list (log 14). -/
abbrev Str := List Char

end Sys2Proof
end

