-- ==== Sys2Proof/Syntax.lean ====
section
/-! DEFINITION. The block's commands as syntax: the ten opcodes of spec/opcode_table.json, one constructor each. A
command word has no operand field (spec/30_encoding.md R64: the operands are fields of the request), so no constructor
has an argument. -/

namespace Sys2Proof

/-- The precision a Codec command selects (spec/30_encoding.md R62; spec/00_scope.md R16 "Precision mode"). -/
inductive Precision where
  | single
  | double
deriving DecidableEq, Repr

/-- The operation a SIM command selects (spec/30_encoding.md R63). -/
inductive SimOp where
  | add
  | sub
  | mul
  | div
deriving DecidableEq, Repr

/-- The opcodes (spec/30_encoding.md Table O; spec/00_scope.md R3). -/
inductive Instr where
  /-- `ENC.S`, spec/40_codec.md R85 -/
  | encS
  /-- `ENC.D`, spec/40_codec.md R86 -/
  | encD
  /-- `SPLIT.S`, spec/40_codec.md R91 -/
  | splitS
  /-- `SPLIT.D`, spec/40_codec.md R92 -/
  | splitD
  /-- `SIM.ADD`, spec/41_simulator.md R141 -/
  | simAdd
  /-- `SIM.SUB`, spec/41_simulator.md R142 -/
  | simSub
  /-- `SIM.MUL`, spec/41_simulator.md R143 -/
  | simMul
  /-- `SIM.DIV`, spec/41_simulator.md R144 -/
  | simDiv
  /-- `DEC.S`, spec/40_codec.md R94 -/
  | decS
  /-- `DEC.D`, spec/40_codec.md R95 -/
  | decD
deriving DecidableEq, Repr

/-- The opcode that simulates an operation (spec/00_scope.md R3). -/
def Instr.ofSimOp : SimOp → Instr
  | .add => .simAdd
  | .sub => .simSub
  | .mul => .simMul
  | .div => .simDiv

end Sys2Proof
end

