-- ==== Sys2Proof/Config.lean ====
section
/-! DEFINITION. The parameters of the block (spec/00_scope.md R9, Table P) and the free values: what an implementation
fixes and the spec leaves open. An `opaque` constant has no body, so nothing proved depends on a value for it. -/

namespace Sys2Proof

/-- W: the width of a format (Table P). -/
def Precision.width : Precision → Nat
  | .single => 32
  | .double => 64

/-- E: the exponent bits of a format (Table P). -/
def Precision.expBits : Precision → Nat
  | .single => 8
  | .double => 11

/-- M: the mantissa bits of a format (Table P). -/
def Precision.fracBits : Precision → Nat
  | .single => 23
  | .double => 52

/-- The bias of a format (Table P); also `emax` (spec/40_codec.md R81). -/
def Precision.bias : Precision → Nat
  | .single => 127
  | .double => 1023

/-- `emin = 1 - bias` (spec/40_codec.md R81). -/
def Precision.emin (p : Precision) : Int := 1 - (p.bias : Int)

/-- The two values of `NAN_MODE` (Table P; spec/40_codec.md R87). -/
inductive NanMode where
  | placeholder
  | canonical
deriving DecidableEq, Repr, Inhabited

/-- The kinds of a SimulationStep (spec/10_state.md R28). -/
inductive StepKind where
  | extract
  | align
  | alignNone
  | expCalc
  | compute
  | normalize
  | normalizeNone
  | finishZero
  | final
deriving DecidableEq, Repr

namespace Config

/-- `UF_MAX_ITER` (Table P). -/
def ufMaxIter : Nat := 30

/-- `UF_EXP_FLOOR` (Table P). -/
def ufExpFloor : Int := -126

/-- `SIG_TEXT_BITS` (Table P). -/
def sigTextBits : Nat := 6

/-- `HAS_DEC`: this hardware takes true (Table P, D10). -/
def hasDec : Bool := true

/-- `NAN_MODE` is OPEN (Table P, D5): the mode of the instance that `State.reset` describes. Every meaning reads the
mode from the state's parameters, so what is proved holds for both (log 1). -/
opaque nanMode : NanMode

/-- `TitleOf(kind, op)` is OPEN (Table P, D18): any string; no rule reads it (log 2). -/
opaque titleOf : StepKind → SimOp → Str

/-- `FormatFrac(sig)` is OPEN (Table P, D20): a total function from binary64 to strings (log 3). -/
opaque formatFrac : Binary64 → Str

/-- The value of a binary64 operator on a non-finite operand or a zero divisor: R84 leaves it undefined and no rule
applies one so (log 4). -/
opaque undefinedArith : SimOp → Binary64 → Binary64 → Binary64

/-- The value of `CvtS` on a NaN: R83 defines it only for data that are not NaNs and no rule applies it so (log 4). -/
opaque undefinedCvtS : Binary64 → Binary32

end Config

end Sys2Proof
end

