-- ==== Sys2Proof/WellFormed.lean ====
section
/-! DEFINITION. Which opcodes exist in an instance: the only check an instruction of this block needs, since no opcode
carries an operand (spec/30_encoding.md R64, R65). -/

namespace Sys2Proof

/-- `DEC.S` and `DEC.D` exist only when `HAS_DEC` is true; every other opcode always does (spec/00_scope.md R3;
spec/30_encoding.md R65). -/
def Instr.wf (hasDec : Bool) : Instr → Bool
  | .encS => true
  | .encD => true
  | .splitS => true
  | .splitD => true
  | .simAdd => true
  | .simSub => true
  | .simMul => true
  | .simDiv => true
  | .decS => hasDec
  | .decD => hasDec

end Sys2Proof
end

