-- ==== Sys2Proof/Decode.lean ====
section
/-! DEFINITION. From command words to opcodes and back (spec/30_encoding.md R60 to R67, Table O). -/

namespace Sys2Proof

/-- Why a command word selects no opcode. -/
inductive DecodeError where
  /-- The precision flag of an ENC, SPLIT or DEC word has `sel[1] = 1` (R62, R65). -/
  | reservedSelector
  /-- A DEC word in an instance whose `HAS_DEC` is false (R65). -/
  | decoderAbsent
  /-- Not a command word at all: a bit above the four of CMD4 is set (R60, R67; log 16). -/
  | tooWide
deriving DecidableEq, Repr

/-- `unit = cmd[3:2]` (R60). -/
def unitField (cmd : Command) : BitVec 2 := cmd.extractLsb' 2 2

/-- `sel = cmd[1:0]` (R60). -/
def selField (cmd : Command) : BitVec 2 := cmd.extractLsb' 0 2

/-- The operation that `sel` names in the SIM unit (R63); all four values are legal. -/
def simOpOfSel (sel : BitVec 2) : SimOp :=
  if sel = 0b00#2 then .add
  else if sel = 0b01#2 then .sub
  else if sel = 0b10#2 then .mul
  else .div

/-- The precision flag of the ENC, SPLIT and DEC units, or nothing where `sel[1]` is 1 (R62). -/
def precisionOfSel (sel : BitVec 2) : Option Precision :=
  if sel = 0b00#2 then some .single
  else if sel = 0b01#2 then some .double
  else none

/-- R66: decoding, total over the 16 command words, a reserved word refused by name. -/
def decode (hasDec : Bool) (cmd : Command) : Except DecodeError Instr :=
  let sel := selField cmd
  if unitField cmd = 0b00#2 then
    match precisionOfSel sel with
    | some .single => .ok .encS
    | some .double => .ok .encD
    | none => .error .reservedSelector
  else if unitField cmd = 0b01#2 then
    match precisionOfSel sel with
    | some .single => .ok .splitS
    | some .double => .ok .splitD
    | none => .error .reservedSelector
  else if unitField cmd = 0b10#2 then
    .ok (Instr.ofSimOp (simOpOfSel sel))
  else
    match precisionOfSel sel with
    | some .single => if hasDec then .ok .decS else .error .decoderAbsent
    | some .double => if hasDec then .ok .decD else .error .decoderAbsent
    | none => .error .reservedSelector

/-- The `unit` of an opcode's command word (R61). -/
def Instr.unit : Instr → BitVec 2
  | .encS => 0b00#2
  | .encD => 0b00#2
  | .splitS => 0b01#2
  | .splitD => 0b01#2
  | .simAdd => 0b10#2
  | .simSub => 0b10#2
  | .simMul => 0b10#2
  | .simDiv => 0b10#2
  | .decS => 0b11#2
  | .decD => 0b11#2

/-- The `sel` of an opcode's command word (R62, R63). -/
def Instr.sel : Instr → BitVec 2
  | .encS => 0b00#2
  | .encD => 0b01#2
  | .splitS => 0b00#2
  | .splitD => 0b01#2
  | .simAdd => 0b00#2
  | .simSub => 0b01#2
  | .simMul => 0b10#2
  | .simDiv => 0b11#2
  | .decS => 0b00#2
  | .decD => 0b01#2

/-- The command word of an opcode, `unit` above `sel` (R60). -/
def encode (i : Instr) : Command := i.unit ++ i.sel

/-- The decoder on an instruction given as a number, bit 0 the least significant bit of the command word; the four bits
of CMD4 fill the low half of the table's one byte (log 16). The instance is the one this hardware is (`HAS_DEC`). -/
def decodeWord (w : Nat) : Except DecodeError Instr :=
  if w < 16 then decode Config.hasDec (BitVec.ofNat 4 w) else .error .tooWide

/-- The instruction the decoder reads from an opcode-table word of `nbits` bits whose bits are `w`; a bit the table
gives no meaning refuses the word. -/
def decodeTableWord (nbits w : Nat) : Option Instr :=
  if w < 2 ^ nbits then (decodeWord w).toOption else none

end Sys2Proof
end

