-- ==== Sys2Proof/Machine/Numerics.lean ====
section
/-! DEFINITION. The numerics of the block: the classes and values of binary32 and binary64 data (spec/40_codec.md R80,
R81), rounding (R82), the conversion to Single (R83), the binary64 operators (R84) and the IEEE comparisons
(spec/00_scope.md R13). Exact values are pairs of integers: a finite datum is `(-1)^s · m · 2^e`, an exact positive
rational is `n / d`. -/

namespace Sys2Proof.Machine

/-! ### Fields and classes (R80, R81) -/

/-- `s = v[W-1]`. -/
def signBit (p : Precision) {w : Nat} (v : BitVec w) : Bool := v.getLsbD (p.width - 1)

/-- `uint(ef)`, `ef = v[W-2 : M]`. -/
def expField (p : Precision) {w : Nat} (v : BitVec w) : Nat := v.toNat / 2 ^ p.fracBits % 2 ^ p.expBits

/-- `uint(f)`, `f = v[M-1 : 0]`. -/
def fracField (p : Precision) {w : Nat} (v : BitVec w) : Nat := v.toNat % 2 ^ p.fracBits

/-- Class NaN. -/
def isNaN (p : Precision) {w : Nat} (v : BitVec w) : Bool :=
  expField p v == 2 ^ p.expBits - 1 && fracField p v != 0

/-- Class infinity. -/
def isInf (p : Precision) {w : Nat} (v : BitVec w) : Bool :=
  expField p v == 2 ^ p.expBits - 1 && fracField p v == 0

/-- Class zero, of either sign. -/
def isZero (p : Precision) {w : Nat} (v : BitVec w) : Bool :=
  expField p v == 0 && fracField p v == 0

/-- Neither a NaN nor an infinity. -/
def isFinite (p : Precision) {w : Nat} (v : BitVec w) : Bool :=
  expField p v != 2 ^ p.expBits - 1

/-- The integer significand `m` of a finite datum: `f` for a zero or subnormal, `2^M + f` for a normal. -/
def intSig (p : Precision) {w : Nat} (v : BitVec w) : Nat :=
  if expField p v = 0 then fracField p v else 2 ^ p.fracBits + fracField p v

/-- The exponent `e` of a finite datum's last place: `emin - M` for a zero or subnormal, `uint(ef) - bias - M` for a
normal. -/
def lastPlace (p : Precision) {w : Nat} (v : BitVec w) : Int :=
  if expField p v = 0 then p.emin - p.fracBits else (expField p v : Int) - p.bias - p.fracBits

/-- The datum with the given sign, exponent field and fraction field, as `uint` (the fields joined, R82). -/
def pack (p : Precision) (s : Bool) (ef f : Nat) : Nat :=
  (if s then 2 ^ (p.width - 1) else 0) + ef * 2 ^ p.fracBits + f

/-! ### Rounding (R82) -/

/-- `floor(log2(n / d))` for positive `n` and `d`: the `k` with `2^k <= n/d < 2^(k+1)`. -/
def floorLog2 (n d : Nat) : Int :=
  let k : Int := (n.log2 : Int) - d.log2
  if d * 2 ^ k.toNat ≤ n * 2 ^ (-k).toNat then k else k - 1

/-- The integer nearest `n / d`; a tie goes to the even one. -/
def roundHalfEven (n d : Nat) : Nat :=
  let fl := n / d
  let rest := 2 * (n % d)
  if rest < d then fl
  else if d < rest then fl + 1
  else fl + fl % 2

/-- `RNE_F(s, n/d)` (R82), as `uint` of the datum; `d` is positive. -/
def rne (p : Precision) (s : Bool) (n d : Nat) : Nat :=
  if n = 0 then pack p s 0 0
  else
    let q₀ : Int := max (floorLog2 n d) p.emin - p.fracBits
    let m₀ := roundHalfEven (n * 2 ^ (-q₀).toNat) (d * 2 ^ q₀.toNat)
    let carried : Bool := m₀ == 2 ^ (p.fracBits + 1)
    let m := if carried then 2 ^ p.fracBits else m₀
    let q := if carried then q₀ + 1 else q₀
    let e : Int := q + p.fracBits
    if m = 0 then pack p s 0 0
    else if m < 2 ^ p.fracBits then pack p s 0 m
    else if (p.bias : Int) < e then pack p s (2 ^ p.expBits - 1) 0
    else pack p s (e + p.bias).toNat (m - 2 ^ p.fracBits)

/-- `RNE32` (spec/00_scope.md R13). -/
def rne32 (s : Bool) (n d : Nat) : Binary32 := BitVec.ofNat 32 (rne .single s n d)

/-- `RNE64` (spec/00_scope.md R13). -/
def rne64 (s : Bool) (n d : Nat) : Binary64 := BitVec.ofNat 64 (rne .double s n d)

/-- Numerator of `m · 2^e`. -/
def dyadicNum (m : Nat) (e : Int) : Nat := m * 2 ^ e.toNat

/-- Denominator of `m · 2^e`. -/
def dyadicDen (e : Int) : Nat := 2 ^ (-e).toNat

/-! ### Binary64 data by name (spec/00_scope.md R13) -/

/-- `+0`. -/
def zero64 : Binary64 := 0x0000000000000000#64
/-- `-0`. -/
def negZero64 : Binary64 := 0x8000000000000000#64
/-- `1.0`. -/
def one64 : Binary64 := 0x3FF0000000000000#64
/-- `-1.0`. -/
def negOne64 : Binary64 := 0xBFF0000000000000#64
/-- `2.0`. -/
def two64 : Binary64 := 0x4000000000000000#64

/-- The binary64 datum of an integer. -/
def natTo64 (n : Nat) : Binary64 := rne64 false n 1

/-- The binary64 datum `2^k`. -/
def pow64 (k : Nat) : Binary64 := natTo64 (2 ^ k)

/-! ### Conversion to Single (R83) -/

/-- `CvtS(x)` for `x` not a NaN (R83); on a NaN the free value of log 4. -/
def cvtS (x : Binary64) : Binary32 :=
  if isNaN .double x then Config.undefinedCvtS x
  else if isInf .double x then
    if signBit .double x then 0xFF800000#32 else 0x7F800000#32
  else if isZero .double x then
    if signBit .double x then 0x80000000#32 else 0x00000000#32
  else
    let e := lastPlace .double x
    rne32 (signBit .double x) (dyadicNum (intSig .double x) e) (dyadicDen e)

/-! ### Binary64 operators (R84) -/

/-- A zero with the given sign. -/
def signedZero64 (s : Bool) : Binary64 := if s then negZero64 else zero64

/-- The sign bit inverted. -/
def fneg (x : Binary64) : Binary64 := x ^^^ 0x8000000000000000#64

/-- `fabs`: bit 63 cleared. -/
def fabs (x : Binary64) : Binary64 := x &&& 0x7FFFFFFFFFFFFFFF#64

/-- The signed integer `(-1)^s · m · 2^(e - base)` of a finite datum, for `base` at most its last place `e`. -/
def scaledInt (x : Binary64) (base : Int) : Int :=
  let mag : Int := intSig .double x * 2 ^ (lastPlace .double x - base).toNat
  if signBit .double x then -mag else mag

/-- `x ⊕ y` on finite data (R84); otherwise the free value of log 4. -/
def fadd (x y : Binary64) : Binary64 :=
  if isFinite .double x && isFinite .double y then
    let base := min (lastPlace .double x) (lastPlace .double y)
    let r := scaledInt x base + scaledInt y base
    if r ≠ 0 then rne64 (decide (r < 0)) (dyadicNum r.natAbs base) (dyadicDen base)
    else signedZero64 (isZero .double x && signBit .double x && (isZero .double y && signBit .double y))
  else Config.undefinedArith .add x y

/-- `x ⊖ y` on finite data (R84); otherwise the free value of log 4. -/
def fsub (x y : Binary64) : Binary64 :=
  if isFinite .double x && isFinite .double y then fadd x (fneg y)
  else Config.undefinedArith .sub x y

/-- `x ⊗ y` on finite data (R84); otherwise the free value of log 4. -/
def fmul (x y : Binary64) : Binary64 :=
  if isFinite .double x && isFinite .double y then
    let s := signBit .double x ^^ signBit .double y
    let m := intSig .double x * intSig .double y
    let e := lastPlace .double x + lastPlace .double y
    if m ≠ 0 then rne64 s (dyadicNum m e) (dyadicDen e) else signedZero64 s
  else Config.undefinedArith .mul x y

/-- `x ⊘ y` on finite data with `y` not a zero (R84); otherwise the free value of log 4. -/
def fdiv (x y : Binary64) : Binary64 :=
  if isFinite .double x && (isFinite .double y && !isZero .double y) then
    let s := signBit .double x ^^ signBit .double y
    let e := lastPlace .double x - lastPlace .double y
    if intSig .double x ≠ 0 then
      rne64 s (dyadicNum (intSig .double x) e) (intSig .double y * dyadicDen e)
    else signedZero64 s
  else Config.undefinedArith .div x y

/-! ### IEEE comparisons (spec/00_scope.md R13): `-0 == +0`, and every comparison with a NaN is false -/

/-- The order key of a datum that is not a NaN: its magnitude bits as an integer, with its sign. -/
def orderKey (x : Binary64) : Int :=
  let mag : Int := (fabs x).toNat
  if signBit .double x then -mag else mag

/-- `x < y`. -/
def flt (x y : Binary64) : Bool :=
  !isNaN .double x && !isNaN .double y && decide (orderKey x < orderKey y)

/-- `x >= y`. -/
def fge (x y : Binary64) : Bool :=
  !isNaN .double x && !isNaN .double y && decide (orderKey y ≤ orderKey x)

/-- `x == y`. -/
def feq (x y : Binary64) : Bool :=
  !isNaN .double x && !isNaN .double y && decide (orderKey x = orderKey y)

end Sys2Proof.Machine
end

