-- ==== Sys2Proof/Machine/State.lean ====
section
/-! DEFINITION. The state of the block as plain data (spec/10_state.md), the reasons a step can stop, and the state
right after reset (spec/10_state.md R38 Table S; spec/70_reset_and_hazards.md R200). -/

namespace Sys2Proof.Machine

/-- `{A, B}`: which operand (spec/10_state.md R23, R28). -/
inductive OperandName where
  | A
  | B
deriving DecidableEq, Repr

/-- The operator an ExpCalc step shows, `'+'` or `'-'` (spec/10_state.md R28). -/
inductive ExpOp where
  | plus
  | minus
deriving DecidableEq, Repr

/-- The modes of a Normalize step (spec/10_state.md R28). -/
inductive NormMode where
  | overflow
  | underflow
deriving DecidableEq, Repr

/-- The Simulator's record of one operand (spec/10_state.md R26). -/
structure Operand where
  /-- the operand exactly as received -/
  value : Binary64
  /-- its Single BitPattern -/
  bits : Str
  /-- `bits[0]` -/
  sgn : Char
  /-- raw exponent -/
  exp : Int
  /-- significand -/
  sig : Binary64
  /-- display significand -/
  sigText : Str
deriving DecidableEq, Repr

/-- The variants of a SimulationStep and their fields, without the title that every variant carries
(spec/10_state.md R28). -/
inductive StepPayload where
  | extract (A B : Operand)
  | align (shifted : OperandName) (diff : Int) (before after : Binary64) (exp : Int)
  | alignNone (exp : Int)
  | expCalc (op : ExpOp) (expA expB exp : Int)
  | compute (op : SimOp) (lhs rhs raw : Binary64) (sign : Char) (sig : Binary64) (exp : Int)
  | normalize (mode : NormMode) (shifts : Int) (before after : Binary64) (exp : Int)
  | normalizeNone (sig : Binary64) (exp : Int)
  | finishZero
  | final (value : Binary64) (sign : Char) (biasedExp : Int) (sig : Binary64) (text : Str)
deriving DecidableEq, Repr

/-- The `kind` tag of a step (spec/10_state.md R28). -/
def StepPayload.kind : StepPayload → StepKind
  | .extract _ _ => .extract
  | .align _ _ _ _ _ => .align
  | .alignNone _ => .alignNone
  | .expCalc _ _ _ _ => .expCalc
  | .compute _ _ _ _ _ _ _ => .compute
  | .normalize _ _ _ _ _ => .normalize
  | .normalizeNone _ _ => .normalizeNone
  | .finishZero => .finishZero
  | .final _ _ _ _ _ => .final

/-- One record of the step log: a tagged union, every variant with a `title` (spec/10_state.md R28). -/
structure SimulationStep where
  title : Str
  payload : StepPayload
deriving DecidableEq, Repr

/-- The `kind` of a step (spec/10_state.md R28). -/
def SimulationStep.kind (t : SimulationStep) : StepKind := t.payload.kind

/-- `{finalValue, steps}` (spec/10_state.md R29). -/
structure SimulationResult where
  finalValue : Binary64
  steps : List SimulationStep
deriving DecidableEq, Repr

/-- `{sign, exponent, mantissa, bias}` (spec/10_state.md R25). -/
structure FieldBreakdown where
  sign : Str
  exponent : Str
  mantissa : Str
  bias : Int
deriving DecidableEq, Repr

/-- The status of a response (spec/60_exceptions.md R180). -/
inductive Status where
  | ok
  | illegalCmd
  | nonfiniteOperand
  | badPattern
deriving DecidableEq, Repr

/-- One command with its operands (spec/10_state.md R22). -/
structure Request where
  cmd : Command
  a : Binary64
  b : Binary64
  bits : Str
deriving DecidableEq, Repr

/-- The block's answer to a request; an absent field is `none` and has no value (spec/10_state.md R23). -/
structure Response where
  status : Status
  info : Option OperandName := none
  pattern : Option Str := none
  fields : Option FieldBreakdown := none
  value : Option Binary64 := none
  result : Option SimulationResult := none
deriving DecidableEq, Repr

/-- The values of `STAGE` (spec/10_state.md R31). -/
inductive Stage where
  | idle
  | extract
  | align
  | compute
  | normalize
  | final
  | done
deriving DecidableEq, Repr

/-- The parameters an instance is built with and that are not the same in every instance: `NAN_MODE` and `HAS_DEC`
(spec/00_scope.md R9; Table S of spec/10_state.md R38: "fixed at instantiation; reset does not change them"). -/
structure Params where
  nanMode : NanMode
  hasDec : Bool
deriving DecidableEq, Repr

/-- What the host does next: send a request (spec/70_reset_and_hazards.md R206) or reset the block (R200). -/
inductive HostEvent where
  | request (r : Request)
  | reset
deriving DecidableEq, Repr

/-- The state of the block (spec/10_state.md R27, R38), the request it serves (R22), the response it builds and the one
it has delivered (R23; spec/00_scope.md R15), its parameters, and what the host is going to do (log 7). -/
structure State where
  /-- the parameters of the instance (spec/00_scope.md R9; log 1) -/
  params : Params
  /-- `STAGE` (spec/10_state.md R31) -/
  stage : Stage
  /-- `LOG` (spec/10_state.md R30) -/
  log : List SimulationStep
  /-- `OPA` -/
  opA : Operand
  /-- `OPB` -/
  opB : Operand
  /-- `SA` -/
  sA : Binary64
  /-- `SB` -/
  sB : Binary64
  /-- `SIGA` -/
  sigA : Binary64
  /-- `SIGB` -/
  sigB : Binary64
  /-- `EXP` -/
  exp : Int
  /-- `RAW` -/
  raw : Binary64
  /-- `SIG` -/
  sig : Binary64
  /-- `RSGN` -/
  rsgn : Char
  /-- `K` -/
  k : Int
  /-- the request being served, or the last one served (`req` of spec/00_scope.md R15; log 6) -/
  req : Request
  /-- the response being built, not yet visible (spec/00_scope.md R15; log 11) -/
  building : Option Response
  /-- the response buffer: the last delivered response (spec/10_state.md R38; log 12) -/
  rsp : Option Response
  /-- what the host does next, in order (spec/30_encoding.md R68; the model's own field, log 7) -/
  host : List HostEvent
deriving DecidableEq, Repr

/-- Reasons for the machine to stop with a fault: none. Every fault of the spec is a status in a response
(spec/60_exceptions.md R187, R188) and the block goes on; so no step of the model faults (log 19). -/
inductive Fault
deriving DecidableEq, Repr

/-- Reasons to give no meaning. -/
inductive Refusal where
  /-- Raised by `exec` for an instruction without a meaning; safe. No arm of this model raises it. -/
  | notModelled (mnemonic : String)
  /-- Raised by `step` in a state in the middle of a request that no request leads to, where the next stage would apply
  a binary64 operator outside the domain R84 defines it on ("a model may refuse such a use"); safe (log 8). -/
  | unreachableStage
deriving DecidableEq, Repr

/-- The value the model names for an Operand register that R38 leaves unspecified (log 5). -/
def Operand.unspecified : Operand :=
  { value := 0, bits := [], sgn := '0', exp := 0, sig := 0, sigText := [] }

/-- The value the model names for the request register, which R38 does not list (log 6): the unread fields as R68
assembles them. -/
def Request.unspecified : Request := { cmd := 0, a := 0, b := 0, bits := [] }

/-- The block right after reset (spec/10_state.md R38 Table S). The registers the table calls unspecified hold the values
log 5 names. -/
def State.reset : State where
  params := { nanMode := Config.nanMode, hasDec := Config.hasDec }
  stage := .idle
  log := []
  opA := Operand.unspecified
  opB := Operand.unspecified
  sA := 0
  sB := 0
  sigA := 0
  sigB := 0
  exp := 0
  raw := 0
  sig := 0
  rsgn := '0'
  k := 0
  req := Request.unspecified
  building := none
  rsp := none
  host := []

end Sys2Proof.Machine
end

