-- ==== Sys2Proof/Machine/Flags.lean ====
section
/-! DEFINITION. The block has no status flags (spec/10_state.md R35; spec/60_exceptions.md R193). What stands in their
place is here: the sign characters and sign factors of the Simulator and the numeric codes of the statuses. -/

namespace Sys2Proof.Machine

/-- The sign factor of an operand: `-1.0` if its sign bit is `'1'` (spec/41_simulator.md R126). -/
def signFactor (sgn : Char) : Binary64 := if sgn = '1' then negOne64 else one64

/-- The result sign of Add and Sub: `'1'` when the sum is below zero; `-0` is not (spec/41_simulator.md R131). -/
def signOfSum (raw : Binary64) : Char := if flt raw zero64 then '1' else '0'

/-- The result sign of Mul and Div: XOR of the two operand sign bits (spec/41_simulator.md R132, R133). -/
def signOfProduct (sgnA sgnB : Char) : Char := if sgnA ≠ sgnB then '1' else '0'

/-- The numeric code of a status (spec/60_exceptions.md R180). -/
def Status.code : Status → Nat
  | .ok => 0
  | .illegalCmd => 1
  | .nonfiniteOperand => 2
  | .badPattern => 3

end Sys2Proof.Machine
end

