-- ==== Sys2Proof/Machine/Strings.lean ====
section
/-! DEFINITION. Strings and bit strings (spec/00_scope.md R11, R12), the whitespace set (spec/40_codec.md R89) and the
decimal rendering of an integer (spec/41_simulator.md R139). -/

namespace Sys2Proof.Machine

/-- `c^n`. -/
def repeatChar (c : Char) (n : Nat) : Str := List.replicate n c

/-- `s[i..j)`, clipped to the string (R11). -/
def slice (s : Str) (i j : Nat) : Str := (s.drop i).take (j - i)

/-- `padR(s, n)` (R11). -/
def padR (s : Str) (n : Nat) : Str := s ++ repeatChar '0' (n - s.length)

/-- `padL(s, n)` (R11). -/
def padL (s : Str) (n : Nat) : Str := repeatChar '0' (n - s.length) ++ s

/-- The character of a bit. -/
def bitChar (b : Bool) : Char := if b then '1' else '0'

/-- Is the character a bit character? (R11 "bit string") -/
def isBitChar (c : Char) : Bool := c == '0' || c == '1'

/-- `str_N(v)`: most significant bit first, `str_N(v)[i] = v[N-1-i]` (R12). -/
def bitString {w : Nat} (v : BitVec w) : Str := (List.range w).map fun i => bitChar (v.getMsbD i)

/-- `uint(bitsOf(s))` for a bit string `s` (R12). -/
def uintOfBits (s : Str) : Nat := s.foldl (fun acc c => 2 * acc + (if c = '1' then 1 else 0)) 0

/-- `bitsOf(s)` for a bit string of length `w` (R12). -/
def bitsOf (w : Nat) (s : Str) : BitVec w := BitVec.ofNat w (uintOfBits s)

/-- `WS` by code point (R89). -/
def isWhitespace (c : Char) : Bool :=
  let n := c.toNat
  (0x0009 ≤ n && n ≤ 0x000D) || n == 0x0020 || n == 0x00A0 || n == 0x1680 || (0x2000 ≤ n && n ≤ 0x200A)
    || n == 0x2028 || n == 0x2029 || n == 0x202F || n == 0x205F || n == 0x3000 || n == 0xFEFF

/-- `strip(s)`: every whitespace character removed, wherever it stands (R89). -/
def strip (s : Str) : Str := s.filter fun c => !isWhitespace c

/-- A decimal digit. -/
def digitChar (n : Nat) : Char := Char.ofNat (0x30 + n % 10)

/-- The decimal digits of `n`; the fuel bounds the number of digits after the first. -/
def decDigits : Nat → Nat → Str
  | 0, n => [digitChar n]
  | fuel + 1, n => if n < 10 then [digitChar n] else decDigits fuel (n / 10) ++ [digitChar n]

/-- `dec(e)`: base 10, a leading `-` when negative, no leading zeros (spec/41_simulator.md R139). -/
def dec (e : Int) : Str :=
  if e < 0 then '-' :: decDigits e.natAbs e.natAbs else decDigits e.natAbs e.natAbs

/-- `FinalText(s, e, sig)` (spec/41_simulator.md R139). -/
def finalText (s : Char) (e : Int) (sig : Binary64) : Str :=
  ['S', 'i', 'g', 'n', '='] ++ [s] ++ [',', ' ', 'E', 'x', 'p', '='] ++ dec e
    ++ [',', ' ', 'M', 'a', 'n', 't', 'i', 's', 's', 'a', '=', '~'] ++ Config.formatFrac sig

end Sys2Proof.Machine
end

