-- ==== Sys2Proof/Machine/Operands.lean ====
section
/-! DEFINITION. What the opcodes make of the request's fields (spec/30_encoding.md R64): the Simulator's Operand record
(spec/41_simulator.md R122 to R124), the entry check (R120), SPLIT's fields (spec/40_codec.md R90) and DEC's pattern
(R93). -/

namespace Sys2Proof.Machine

/-- Zero-valued: the binary64 value compares equal to 0 (spec/41_simulator.md R123). -/
def zeroValued (x : Binary64) : Bool := feq x zero64

/-- The display significand of an operand that is not zero-valued (spec/41_simulator.md R124). -/
def displaySig (bits : Str) : Str := ['1', '.'] ++ slice bits 9 (9 + Config.sigTextBits) ++ ['…']

/-- `Decompose(x)` (spec/41_simulator.md R122). -/
def decompose (x : Binary64) : Operand :=
  let bits := bitString (cvtS x)
  { value := x
    bits := bits
    sgn := (bits[0]?).getD '0'
    exp := (uintOfBits (slice bits 1 9) : Int) - 127
    sig := if zeroValued x then zero64 else fadd one64 (fdiv (natTo64 (uintOfBits (slice bits 9 32))) (pow64 23))
    sigText := if zeroValued x then ['0'] else displaySig bits }

/-- The entry check of every SIM request: the operand it refuses, `a` first (spec/41_simulator.md R120;
spec/60_exceptions.md R186). -/
def nonfiniteOperand (r : Request) : Option OperandName :=
  if !isFinite .double r.a then some .A
  else if !isFinite .double r.b then some .B
  else none

/-- `Split(bits, E, M, bias)` (spec/40_codec.md R90). -/
def splitFields (bits : Str) (E M : Nat) (bias : Int) : FieldBreakdown :=
  let t := strip bits
  { sign := if 0 < t.length then slice t 0 1 else ['0']
    exponent := padR (slice t 1 (1 + E)) E
    mantissa := padR (slice t (1 + E) (1 + E + M)) M
    bias := bias }

/-- Is the string a valid DEC pattern of width `w`? No whitespace is stripped and nothing is padded
(spec/40_codec.md R93). -/
def validPattern (s : Str) (w : Nat) : Bool := s.length == w && s.all isBitChar

/-- The pattern ENC emits for a NaN (spec/40_codec.md R87), by the mode of the instance. -/
def nanPattern (mode : NanMode) (p : Precision) : Str :=
  match mode with
  | .placeholder => ['N', 'a', 'N'] ++ repeatChar '0' (p.width - 3)
  | .canonical => ['0'] ++ repeatChar '1' p.expBits ++ ['1'] ++ repeatChar '0' (p.fracBits - 1)

/-- The value DEC.S gives a Single datum (spec/40_codec.md R94). -/
def widen (v : Binary32) : Binary64 :=
  if isNaN .single v then
    v.extractLsb' 31 1 ++ 0b11111111111#11 ++ 0b1#1 ++ v.extractLsb' 0 22 ++ 0#29
  else if isInf .single v then v.extractLsb' 31 1 ++ 0b11111111111#11 ++ 0#52
  else if isZero .single v then v.extractLsb' 31 1 ++ 0#63
  else
    let e := lastPlace .single v
    rne64 (signBit .single v) (dyadicNum (intSig .single v) e) (dyadicDen e)

end Sys2Proof.Machine
end

