-- ==== Sys2Proof/Machine/Ops.lean ====
section
/-! DEFINITION. The operations every opcode shares: appending to the step log (spec/10_state.md R30), delivering a
response, raising a status (spec/00_scope.md R14; spec/60_exceptions.md R187, R188), reset
(spec/70_reset_and_hazards.md R200) and looking at what the host does next (R206). -/

namespace Sys2Proof.Machine

/-- `emit(step)`: the record is appended to `LOG`, with its title (spec/10_state.md R28, R30). -/
def emit (op : SimOp) (t : StepPayload) (s : State) : State :=
  { s with log := s.log ++ [{ title := Config.titleOf t.kind op, payload := t }] }

/-- The request ends: the whole response becomes visible at once and the block is idle
(spec/70_reset_and_hazards.md R203; spec/40_codec.md R88; spec/60_exceptions.md R187). -/
def deliver (r : Response) (s : State) : State :=
  { s with stage := .idle, building := none, rsp := some r }

/-- `raise Status(info)`, the block's one way of taking a fault: the request ends with a response that holds the status
and the info alone. No state is saved, nothing is jumped to, and there is no return, because there is no trap mechanism
(spec/00_scope.md R14; spec/60_exceptions.md R187, R188). -/
def raise (status : Status) (info : Option OperandName) (s : State) : State :=
  deliver { status := status, info := info } s

/-- A reserved command word (spec/60_exceptions.md R182). -/
def illegalCommand (s : State) : State := raise .illegalCmd none s

/-- A reset of the block: Table S, whatever it was doing; a request in progress is abandoned with no response, and the
parameters do not change (spec/70_reset_and_hazards.md R200). What the host does afterwards is the host's (log 10). -/
def blockReset (s : State) : State := { State.reset with params := s.params, host := s.host }

/-- What a step has to do. -/
inductive Action where
  /-- the host resets the block; the state has the event consumed -/
  | reset (t : State)
  /-- the block accepts a request; the state has it in `req` and the event consumed -/
  | serve (t : State)
  /-- a request is in progress -/
  | advance
  /-- nothing to do until the host sends a request -/
  | wait
deriving DecidableEq, Repr

/-- The host's next event and the block's stage decide: a reset is taken at any stage (R200), a request only when the
block is idle, since the host waits for a response before it sends the next (R206; log 7, log 10). -/
def poll (s : State) : Action :=
  match s.host, s.stage with
  | .reset :: rest, _ => .reset { s with host := rest }
  | .request r :: rest, .idle => .serve { s with req := r, host := rest }
  | [], .idle => .wait
  | _, _ => .advance

/-- A request that carries the low four bits of `w` as its command word and the operands of the block's request
register. -/
def requestOfWord (s : State) (w : Nat) : Request :=
  { cmd := BitVec.ofNat 4 w, a := s.req.a, b := s.req.b, bits := s.req.bits }

end Sys2Proof.Machine
end

