-- ==== Sys2Proof/Machine/Codec.lean ====
section
/-! DEFINITION. The Codec's opcodes ENC, SPLIT and DEC (spec/40_codec.md). Each completes in one transition, reads only
its request and writes only its response (R88). -/

namespace Sys2Proof.Machine

/-- The response of an ENC request (R85, R86). -/
def patternResponse (t : Str) : Response := { status := .ok, pattern := some t }

/-- The response of a SPLIT request (R91, R92). -/
def fieldsResponse (f : FieldBreakdown) : Response := { status := .ok, fields := some f }

/-- The response of a DEC request (R94, R95). -/
def valueResponse (v : Binary64) : Response := { status := .ok, value := some v }

/-- The pattern of ENC.S (R85, R87). -/
def encSinglePattern (mode : NanMode) (x : Binary64) : Str :=
  if isNaN .double x then nanPattern mode .single else bitString (cvtS x)

/-- The pattern of ENC.D (R86, R87). -/
def encDoublePattern (mode : NanMode) (x : Binary64) : Str :=
  if isNaN .double x then nanPattern mode .double else bitString x

/-- `ENC.S` (R85). -/
def execEncS (s : State) : Host.Outcome State Fault Refusal :=
  .next (deliver (patternResponse (encSinglePattern s.params.nanMode s.req.a)) s)

/-- `ENC.D` (R86). -/
def execEncD (s : State) : Host.Outcome State Fault Refusal :=
  .next (deliver (patternResponse (encDoublePattern s.params.nanMode s.req.a)) s)

/-- `SPLIT.S` (R91). -/
def execSplitS (s : State) : Host.Outcome State Fault Refusal :=
  .next (deliver (fieldsResponse (splitFields s.req.bits 8 23 127)) s)

/-- `SPLIT.D` (R92). -/
def execSplitD (s : State) : Host.Outcome State Fault Refusal :=
  .next (deliver (fieldsResponse (splitFields s.req.bits 11 52 1023)) s)

/-- `DEC.S` (R94): an invalid pattern raises `BAD_PATTERN` (R93; spec/60_exceptions.md R184). -/
def execDecS (s : State) : Host.Outcome State Fault Refusal :=
  if validPattern s.req.bits 32 then .next (deliver (valueResponse (widen (bitsOf 32 s.req.bits))) s)
  else .next (raise .badPattern none s)

/-- `DEC.D` (R95): an invalid pattern raises `BAD_PATTERN` (R93; spec/60_exceptions.md R184). -/
def execDecD (s : State) : Host.Outcome State Fault Refusal :=
  if validPattern s.req.bits 64 then .next (deliver (valueResponse (bitsOf 64 s.req.bits)) s)
  else .next (raise .badPattern none s)

end Sys2Proof.Machine
end

