-- ==== Sys2Proof/Machine/Simulator.lean ====
section
/-! DEFINITION. The Arithmetic Simulator (spec/41_simulator.md): the stages, each one transition of R121, the sequencer
that runs them one at a time, and the four SIM opcodes, each a whole request as one transition (R121 allows it). -/

namespace Sys2Proof.Machine

/-! ### Stage 0: entry (R120) -/

/-- What the entry check does when both operands are finite: `LOG <- []`, `STAGE <- EXTRACT`. -/
def simEntry (s : State) : State := { s with log := [], stage := .extract }

/-! ### Stage 1: Extract (R125, R126) -/

/-- Extract: both Operand records, the step, the sign factors, the working significands. -/
def extract (op : SimOp) (s : State) : State :=
  let a := decompose s.req.a
  let b := decompose s.req.b
  emit op (.extract a b)
    { s with
      opA := a
      opB := b
      sA := signFactor a.sgn
      sB := if op = .sub then fneg (signFactor b.sgn) else signFactor b.sgn
      sigA := a.sig
      sigB := b.sig
      stage := .align }

/-! ### Stage 2: Align, AlignNone or ExpCalc (R127 to R130) -/

/-- `diff = |OPA.exp - OPB.exp|` (R127). -/
def alignDiff (s : State) : Int := ((s.opA.exp - s.opB.exp).natAbs : Int)

/-- Align (R127): the significand with the smaller exponent is divided by `2^diff`. -/
def alignShift (op : SimOp) (s : State) : State :=
  let diff := alignDiff s
  if s.opA.exp < s.opB.exp then
    let after := fdiv s.sigA (pow64 diff.toNat)
    emit op (.align .A diff s.sigA after s.opB.exp)
      { s with sigA := after, exp := s.opB.exp, opA := { s.opA with exp := s.opB.exp }, stage := .compute }
  else
    let after := fdiv s.sigB (pow64 diff.toNat)
    emit op (.align .B diff s.sigB after s.opA.exp)
      { s with sigB := after, exp := s.opA.exp, opB := { s.opB with exp := s.opA.exp }, stage := .compute }

/-- AlignNone (R128). -/
def alignNone (op : SimOp) (s : State) : State :=
  emit op (.alignNone s.opA.exp) { s with exp := s.opA.exp, stage := .compute }

/-- ExpCalc for Mul (R129). -/
def expCalcMul (s : State) : State :=
  let e := s.opA.exp + s.opB.exp
  emit .mul (.expCalc .plus s.opA.exp s.opB.exp e) { s with exp := e, stage := .compute }

/-- ExpCalc for Div (R130). -/
def expCalcDiv (s : State) : State :=
  let e := s.opA.exp - s.opB.exp
  emit .div (.expCalc .minus s.opA.exp s.opB.exp e) { s with exp := e, stage := .compute }

/-- Align for Add and Sub: R127 when the exponents differ, else R128. -/
def alignStage (op : SimOp) (s : State) : State :=
  if s.opA.exp ≠ s.opB.exp then alignShift op s else alignNone op s

/-- Stage 2 of an operation. -/
def combineExponents (op : SimOp) (s : State) : State :=
  match op with
  | .add => alignStage .add s
  | .sub => alignStage .sub s
  | .mul => expCalcMul s
  | .div => expCalcDiv s

/-! ### Stage 3: Compute (R131 to R133) -/

/-- Compute for Add and Sub (R131). -/
def computeAddSub (op : SimOp) (s : State) : State :=
  let lhs := fmul s.sigA s.sA
  let rhs := fmul s.sigB s.sB
  let raw := fadd lhs rhs
  let sgn := signOfSum raw
  let sig := fabs raw
  emit op (.compute op lhs rhs raw sgn sig s.exp)
    { s with raw := raw, rsgn := sgn, sig := sig, stage := .normalize }

/-- Compute for Mul (R132). -/
def computeMul (s : State) : State :=
  let raw := fmul s.sigA s.sigB
  let sgn := signOfProduct s.opA.sgn s.opB.sgn
  emit .mul (.compute .mul s.sigA s.sigB raw sgn raw s.exp)
    { s with raw := raw, rsgn := sgn, sig := raw, stage := .normalize }

/-- Compute for Div (R133): a zero divisor significand gives the significand `+0`, not a fault. -/
def computeDiv (s : State) : State :=
  let raw := if feq s.sigB zero64 then zero64 else fdiv s.sigA s.sigB
  let sgn := signOfProduct s.opA.sgn s.opB.sgn
  emit .div (.compute .div s.sigA s.sigB raw sgn raw s.exp)
    { s with raw := raw, rsgn := sgn, sig := raw, stage := .normalize }

/-- Stage 3 of an operation. -/
def computeStage (op : SimOp) (s : State) : State :=
  match op with
  | .add => computeAddSub .add s
  | .sub => computeAddSub .sub s
  | .mul => computeMul s
  | .div => computeDiv s

/-! ### Stage 4: Normalize (R134 to R137) -/

/-- The response a SIM request builds (R134, R138). -/
def resultResponse (finalValue : Binary64) (steps : List SimulationStep) : Response :=
  { status := .ok, result := some { finalValue := finalValue, steps := steps } }

/-- FinishZero (R134): the final value is `+0` and Final does not run. -/
def finishZero (op : SimOp) (s : State) : State :=
  let t := emit op .finishZero s
  { t with building := some (resultResponse zero64 t.log), stage := .done }

/-- The registers a normalization loop works on. -/
structure LoopRegs where
  sig : Binary64
  exp : Int
  k : Int
deriving DecidableEq, Repr

/-- One iteration of the Overflow loop (R135). -/
def halveOnce (r : LoopRegs) : LoopRegs := { sig := fdiv r.sig two64, exp := r.exp + 1, k := r.k + 1 }

/-- One iteration of the Underflow loop (R136). -/
def doubleOnce (r : LoopRegs) : LoopRegs := { sig := fmul r.sig two64, exp := r.exp - 1, k := r.k + 1 }

/-- The Overflow loop (R135): `while SIG >= 2.0`. The rule has no cap; the fuel is only the recursion's (log 15). -/
def overflowLoop : Nat → LoopRegs → LoopRegs
  | 0, r => r
  | fuel + 1, r => if fge r.sig two64 then overflowLoop fuel (halveOnce r) else r

/-- More iterations than the Overflow loop can make on a finite significand, which is below `2^1024` (log 15). -/
def overflowFuel : Nat := 1024

/-- The Underflow loop (R136): `while SIG < 1.0 and K < UF_MAX_ITER and EXP > UF_EXP_FLOOR`. -/
def underflowLoop : Nat → LoopRegs → LoopRegs
  | 0, r => r
  | fuel + 1, r =>
    if flt r.sig one64 && decide (r.k < Config.ufMaxIter) && decide (Config.ufExpFloor < r.exp) then
      underflowLoop fuel (doubleOnce r)
    else r

/-- Overflow normalization (R135). -/
def normalizeOverflow (op : SimOp) (s : State) : State :=
  let r := overflowLoop overflowFuel { sig := s.sig, exp := s.exp, k := 0 }
  emit op (.normalize .overflow r.k s.sig r.sig r.exp)
    { s with sig := r.sig, exp := r.exp, k := r.k, stage := .final }

/-- Underflow normalization (R136). -/
def normalizeUnderflow (op : SimOp) (s : State) : State :=
  let r := underflowLoop Config.ufMaxIter { sig := s.sig, exp := s.exp, k := 0 }
  emit op (.normalize .underflow r.k s.sig r.sig r.exp)
    { s with sig := r.sig, exp := r.exp, k := r.k, stage := .final }

/-- No normalization (R137). -/
def normalizeNone (op : SimOp) (s : State) : State :=
  emit op (.normalizeNone s.sig s.exp) { s with stage := .final }

/-- Stage 4, the tests in the order of R137. -/
def normalizeStage (op : SimOp) (s : State) : State :=
  if feq s.sig zero64 || isNaN .double s.sig then finishZero op s
  else if fge s.sig two64 then normalizeOverflow op s
  else if flt s.sig one64 then normalizeUnderflow op s
  else normalizeNone op s

/-! ### Stage 5: Final and completion (R138 to R140) -/

/-- The literal result on the request's original operands (R138). -/
def literalResult (op : SimOp) (a b : Binary64) : Binary64 :=
  match op with
  | .add => fadd a b
  | .sub => fsub a b
  | .mul => fmul a b
  | .div => fdiv a b

/-- Final (R138). -/
def finalStage (op : SimOp) (s : State) : State :=
  let lit := literalResult op s.req.a s.req.b
  let t := emit op (.final lit s.rsgn (s.exp + 127) s.sig (finalText s.rsgn (s.exp + 127) s.sig)) s
  { t with building := some (resultResponse lit t.log), stage := .done }

/-- DONE (R140): the response that was built is delivered, and the block is idle. -/
def deliverBuilt (s : State) : State := { s with stage := .idle, building := none, rsp := s.building }

/-! ### The sequencer, one transition at a time (R121) -/

/-- The transition out of a stage, for the operation of the request; IDLE waits. -/
def stageStep (op : SimOp) (s : State) : State :=
  match s.stage with
  | .idle => s
  | .extract => extract op s
  | .align => combineExponents op s
  | .compute => computeStage op s
  | .normalize => normalizeStage op s
  | .final => finalStage op s
  | .done => deliverBuilt s

/-- The operation of the SIM request in progress, from its command word (spec/30_encoding.md R63). -/
def currentOp (s : State) : SimOp := simOpOfSel (selField s.req.cmd)

/-- The next transition of a request in progress. -/
def advance (s : State) : State := stageStep (currentOp s) s

/-- Does the transition out of the current stage apply the binary64 operators only where R84 defines them, in a request
that is a SIM request? It does in every state a request leads to; elsewhere the model refuses the step (log 8). -/
def stageDefined (s : State) : Bool :=
  unitField s.req.cmd == 0b10#2 &&
  match s.stage with
  | .idle => true
  | .extract => isFinite .double s.req.a && isFinite .double s.req.b
  | .align => isFinite .double s.sigA && isFinite .double s.sigB && decide (alignDiff s ≤ 1023)
  | .compute =>
    isFinite .double s.sigA && isFinite .double s.sigB && (s.sA == one64 || s.sA == negOne64)
      && (s.sB == one64 || s.sB == negOne64)
  | .normalize => isNaN .double s.sig || (isFinite .double s.sig && !signBit .double s.sig)
  | .final =>
    isFinite .double s.req.a && isFinite .double s.req.b && !(currentOp s == .div && isZero .double s.req.b)
  | .done => s.building.isSome

/-! ### A whole request (R141 to R144) -/

/-- Stage 5 unless the zero exit was taken (R134). -/
def finalUnlessDone (op : SimOp) (s : State) : State := if s.stage = .done then s else finalStage op s

/-- The stages of one request, from the entry check's end to the delivery. -/
def runStages (op : SimOp) (s : State) : State :=
  deliverBuilt <| finalUnlessDone op <| normalizeStage op <| computeStage op <| combineExponents op <|
    extract op <| simEntry s

/-- A SIM request: the entry check (R120; spec/60_exceptions.md R183), then the stages. -/
def simulate (op : SimOp) (s : State) : State :=
  match nonfiniteOperand s.req with
  | some which => raise .nonfiniteOperand (some which) s
  | none => runStages op s

/-- `SIM.ADD` (R141). -/
def execSimAdd (s : State) : Host.Outcome State Fault Refusal := .next (simulate .add s)

/-- `SIM.SUB` (R142). -/
def execSimSub (s : State) : Host.Outcome State Fault Refusal := .next (simulate .sub s)

/-- `SIM.MUL` (R143). -/
def execSimMul (s : State) : Host.Outcome State Fault Refusal := .next (simulate .mul s)

/-- `SIM.DIV` (R144). -/
def execSimDiv (s : State) : Host.Outcome State Fault Refusal := .next (simulate .div s)

end Sys2Proof.Machine
end

