-- ==== Sys2Proof/Machine/Dispatch.lean ====
section
/-! DEFINITION. One arm per opcode (spec/30_encoding.md Table O): which meaning runs. -/

namespace Sys2Proof.Machine

def exec (i : Instr) (s : State) : Host.Outcome State Fault Refusal :=
  match i with
  | .encS => Sys2Proof.Machine.execEncS s
  | .encD => Sys2Proof.Machine.execEncD s
  | .splitS => Sys2Proof.Machine.execSplitS s
  | .splitD => Sys2Proof.Machine.execSplitD s
  | .simAdd => Sys2Proof.Machine.execSimAdd s
  | .simSub => Sys2Proof.Machine.execSimSub s
  | .simMul => Sys2Proof.Machine.execSimMul s
  | .simDiv => Sys2Proof.Machine.execSimDiv s
  | .decS => Sys2Proof.Machine.execDecS s
  | .decD => Sys2Proof.Machine.execDecD s

end Sys2Proof.Machine
end

