-- ==== Sys2Proof/Machine/Step.lean ====
section
/-! DEFINITION. One step of the block: a reset, a whole request, one transition of a request in progress, or waiting
(spec/41_simulator.md R121; spec/70_reset_and_hazards.md R200, R206; log 7, log 8, log 9). -/

namespace Sys2Proof.Machine

/-- One step. An idle block takes the host's next request, decodes its command word and serves it whole; a reserved word
raises `ILLEGAL_CMD` (spec/60_exceptions.md R182). A block in the middle of a SIM request makes one transition of R121. -/
def step (s : State) : Host.Outcome State Fault Refusal :=
  match poll s with
  | .reset t => .next (blockReset t)
  | .serve t =>
    match decode t.params.hasDec t.req.cmd with
    | .ok i => exec i t
    | .error _ => .next (illegalCommand t)
  | .advance => if stageDefined s then .next (advance s) else .refused .unreachableStage
  | .wait => .next s

/-- `s` with a request whose command word is the low four bits of `w` as the host's very next event, the operands being
those of the request register; the block is idle, so the next step serves it (log 7). -/
def State.withFetchWord (s : State) (nbits w : Nat) : State :=
  { s with stage := .idle, host := .request (requestOfWord s (w % 2 ^ nbits)) :: s.host }

end Sys2Proof.Machine
end

