-- ==== Sys2Proof/Safety.lean ====
section
/-! DEFINITION. The terms claims use: exact values of data (spec/40_codec.md R81), which step sequences and responses the
spec allows, what a safe run is, and the invariants of the block. -/

namespace Sys2Proof.Machine

/-! ### Exact values -/

/-- `val(v)` of a finite datum (spec/40_codec.md R81; spec/00_scope.md R13), a rational. -/
def val (p : Precision) {w : Nat} (v : BitVec w) : ℚ :=
  (if signBit p v then -1 else 1) * (intSig p v : ℚ) * (2 : ℚ) ^ lastPlace p v

/-- The least magnitude that rounds to an infinity, the midpoint above the largest finite datum: `2^128 - 2^103` for
Single (spec/40_codec.md R82). -/
def overflowThreshold (p : Precision) : ℚ :=
  (2 : ℚ) ^ ((p.bias : ℤ) + 1) - (2 : ℚ) ^ ((p.bias : ℤ) - p.fracBits - 1)

/-- `v` is the datum of format `p` with sign `s` that rounding the magnitude `r` gives (spec/40_codec.md R82): an infinity
from the threshold on; below it a finite datum nearest `r`, and one with an even fraction where another magnitude is as
near. -/
structure RoundsTo (p : Precision) (s : Bool) (r : ℚ) {w : Nat} (v : BitVec w) : Prop where
  sign : signBit p v = s
  overflow : overflowThreshold p ≤ r → isInf p v = true
  finite : r < overflowThreshold p → isFinite p v = true
  nearest : r < overflowThreshold p → ∀ u : BitVec w, isFinite p u = true → |(|val p v|) - r| ≤ |(|val p u|) - r|
  even : r < overflowThreshold p → ∀ u : BitVec w, isFinite p u = true → |val p u| ≠ |val p v| →
    |(|val p v|) - r| = |(|val p u|) - r| → fracField p v % 2 = 0

/-- The characters of the bits of a datum, most significant first (spec/00_scope.md R12; spec/20_memory.md R52). -/
def IsBitPattern {w : Nat} (v : BitVec w) (s : Str) : Prop :=
  s.length = w ∧ ∀ i, i < w → s[i]? = some (if v.getLsbD (w - 1 - i) then '1' else '0')

/-- A string of exactly `w` bit characters (spec/40_codec.md R93). -/
def IsBitString (s : Str) (w : Nat) : Prop := s.length = w ∧ ∀ c ∈ s, c = '0' ∨ c = '1'

/-- `NaNPattern(W)` written out (spec/40_codec.md R87). -/
def nanText (mode : NanMode) (E M : Nat) : Str :=
  match mode with
  | .placeholder => 'N' :: 'a' :: 'N' :: List.replicate (E + M - 2) '0'
  | .canonical => '0' :: (List.replicate E '1' ++ '1' :: List.replicate (M - 1) '0')

/-- The record Extract makes of an operand (spec/41_simulator.md R122, R123, R124): `v` is its Single encoding. -/
structure IsOperandOf (x : Binary64) (v : Binary32) (o : Operand) : Prop where
  value : o.value = x
  bits : IsBitPattern v o.bits
  sgn : o.bits[0]? = some o.sgn
  exp : o.exp = (expField .single v : Int) - 127
  sigZero : isZero .double x = true → o.sig = 0#64 ∧ o.sigText = ['0']
  sigOne : isZero .double x = false →
    isFinite .double o.sig = true ∧ val .double o.sig = 1 + (fracField .single v : ℚ) / 2 ^ 23
  sigText : isZero .double x = false → o.sigText = '1' :: '.' :: ((o.bits.drop 9).take 6 ++ ['…'])

/-- Two requests agree on the fields the opcode reads (the table of spec/30_encoding.md R64). -/
def SameReadFields (i : Instr) (r q : Request) : Prop :=
  match i with
  | .encS => r.a = q.a
  | .encD => r.a = q.a
  | .splitS => r.bits = q.bits
  | .splitD => r.bits = q.bits
  | .simAdd => r.a = q.a ∧ r.b = q.b
  | .simSub => r.a = q.a ∧ r.b = q.b
  | .simMul => r.a = q.a ∧ r.b = q.b
  | .simDiv => r.a = q.a ∧ r.b = q.b
  | .decS => r.bits = q.bits
  | .decD => r.bits = q.bits

/-- Both operands of the request are finite (spec/41_simulator.md R120). -/
def FiniteOperands (r : Request) : Prop := isFinite .double r.a = true ∧ isFinite .double r.b = true

/-! ### Step sequences (spec/41_simulator.md R148) -/

/-- The kinds of a log, in order. -/
def kinds (log : List SimulationStep) : List StepKind := log.map SimulationStep.kind

/-- The kinds stage 2 may emit (R148). -/
def stage2Kinds : SimOp → List StepKind
  | .add => [.align, .alignNone]
  | .sub => [.align, .alignNone]
  | .mul => [.expCalc]
  | .div => [.expCalc]

/-- The 5-step sequences of a request that reaches Final (R148). -/
def normalPaths (op : SimOp) : List (List StepKind) :=
  (stage2Kinds op).flatMap fun k =>
    [[.extract, k, .compute, .normalize, .final], [.extract, k, .compute, .normalizeNone, .final]]

/-- The 4-step sequences of a request that takes the zero exit (R148). -/
def zeroPaths (op : SimOp) : List (List StepKind) :=
  (stage2Kinds op).map fun k => [.extract, k, .compute, .finishZero]

/-- The logs a request in progress may have at a stage: the beginnings of the paths (R121, R148). -/
def partialPaths (op : SimOp) : Stage → List (List StepKind)
  | .idle => []
  | .extract => [[]]
  | .align => [[.extract]]
  | .compute => (stage2Kinds op).map fun k => [.extract, k]
  | .normalize => (stage2Kinds op).map fun k => [.extract, k, .compute]
  | .final =>
    (stage2Kinds op).flatMap fun k => [[.extract, k, .compute, .normalize], [.extract, k, .compute, .normalizeNone]]
  | .done => normalPaths op ++ zeroPaths op

/-! ### Responses (spec/10_state.md R23; spec/60_exceptions.md R187) -/

/-- A response with status OK holds exactly one of its four results, of the shape the opcode's rule gives it. -/
inductive OkShape : Response → Prop where
  /-- ENC: a BitPattern has the width of its format (spec/10_state.md R24) -/
  | pattern (p : Precision) (t : Str) (h : t.length = p.width) : OkShape { status := .ok, pattern := some t }
  /-- SPLIT: the field widths and the bias of the format (spec/10_state.md R25) -/
  | fields (p : Precision) (f : FieldBreakdown) (h1 : f.sign.length = 1) (hE : f.exponent.length = p.expBits)
      (hM : f.mantissa.length = p.fracBits) (hB : f.bias = p.bias) : OkShape { status := .ok, fields := some f }
  /-- DEC: a value -/
  | value (v : Binary64) : OkShape { status := .ok, value := some v }
  /-- SIM, the normal path (spec/41_simulator.md R148) -/
  | final (op : SimOp) (v : Binary64) (steps : List SimulationStep) (h : kinds steps ∈ normalPaths op) :
      OkShape { status := .ok, result := some { finalValue := v, steps := steps } }
  /-- SIM, the zero exit: the final value is `+0` (spec/41_simulator.md R134, R148) -/
  | zero (op : SimOp) (steps : List SimulationStep) (h : kinds steps ∈ zeroPaths op) :
      OkShape { status := .ok, result := some { finalValue := zero64, steps := steps } }

/-- The shapes a delivered response may have: one result under OK, and under a fault status nothing but the status, with
the info for `NONFINITE_OPERAND` (spec/60_exceptions.md R180, R187). -/
inductive ResponseShape : Response → Prop where
  | ok (r : Response) (h : OkShape r) : ResponseShape r
  | illegalCmd : ResponseShape { status := .illegalCmd }
  | nonfiniteOperand (which : OperandName) : ResponseShape { status := .nonfiniteOperand, info := some which }
  | badPattern : ResponseShape { status := .badPattern }

/-! ### Invariants -/

/-- What holds between the log, the stage and the responses: the delivered response has a legal shape, a response is
being built exactly in DONE and holds the log, and the log of a request in progress is a beginning of one of the paths
of its operation (spec/41_simulator.md R121, R148; spec/10_state.md R29). -/
structure LogInvariant (s : State) : Prop where
  delivered : ∀ r, s.rsp = some r → ResponseShape r
  built : s.stage = .done →
    ∃ r res, s.building = some r ∧ OkShape r ∧ r.result = some res ∧ res.steps = s.log
  notBuilt : s.stage ≠ .done → s.building = none
  inProgress : s.stage ≠ .idle →
    unitField s.req.cmd = 0b10#2 ∧ kinds s.log ∈ partialPaths (currentOp s) s.stage

/-- A working significand: a finite datum that is not negative, below 2 (spec/41_simulator.md R146). -/
def WorkingSig (x : Binary64) : Prop := isFinite .double x = true ∧ signBit .double x = false ∧ val .double x < 2

/-- Two aligned significands never come closer than `2^-24` without being equal, and equal ones are both zero or at
least 1 (spec/41_simulator.md R147: at most 24 doublings). -/
def AlignedPair (x y : Binary64) : Prop :=
  WorkingSig x ∧ WorkingSig y ∧
  (val .double x ≠ val .double y → (2 : ℚ) ^ (-24 : ℤ) ≤ |val .double x - val .double y|) ∧
  (val .double x = val .double y → val .double x = 0 ∨ 1 ≤ val .double x)

/-- A sign factor is `+1.0` or `-1.0` (spec/10_state.md R27). -/
def SignFactor (x : Binary64) : Prop := x = one64 ∨ x = negOne64

/-- The Operand registers hold the request's operands, decomposed, and the significands are theirs (R125). -/
structure Extracted (s : State) : Prop where
  opA : s.opA = decompose s.req.a
  opB : s.opB = decompose s.req.b
  sigA : s.sigA = s.opA.sig
  sigB : s.sigB = s.opB.sig

/-- What the datapath holds at each stage of a SIM request for `op` whose operands are finite: the ranges of spec/41_simulator.md
R145 and the bounds of R146 and R147. -/
def DatapathAt (op : SimOp) (s : State) : Stage → Prop
  | .idle => True
  | .extract => True
  | .align => Extracted s ∧ SignFactor s.sA ∧ SignFactor s.sB
  | .compute =>
    SignFactor s.sA ∧ SignFactor s.sB ∧
    match op with
    | .add => AlignedPair s.sigA s.sigB ∧ -127 ≤ s.exp ∧ s.exp ≤ 128
    | .sub => AlignedPair s.sigA s.sigB ∧ -127 ≤ s.exp ∧ s.exp ≤ 128
    | .mul => Extracted s ∧ s.exp = s.opA.exp + s.opB.exp
    | .div => Extracted s ∧ s.exp = s.opA.exp - s.opB.exp
  | .normalize =>
    isFinite .double s.sig = true ∧ signBit .double s.sig = false ∧ val .double s.sig < 4 ∧
    (isZero .double s.sig = false → (2 : ℚ) ^ (-24 : ℤ) ≤ val .double s.sig) ∧
    -255 ≤ s.exp ∧ s.exp ≤ 256 ∧ (2 ≤ val .double s.sig → s.exp ≤ 255) ∧
    (op = .div → isZero .double s.req.b = true → isZero .double s.sig = true)
  | .final =>
    isFinite .double s.sig = true ∧ signBit .double s.sig = false ∧ 0 < val .double s.sig ∧ val .double s.sig < 2 ∧
    (1 ≤ val .double s.sig ∨ s.exp ≤ Config.ufExpFloor) ∧
    -255 ≤ s.exp ∧ s.exp ≤ 256 ∧ (op = .div → isZero .double s.req.b = false)
  | .done => s.building.isSome = true

/-- A SIM request in progress has finite operands and a datapath in range for its stage. -/
structure DatapathInvariant (s : State) : Prop where
  request : s.stage ≠ .idle →
    unitField s.req.cmd = 0b10#2 ∧ isFinite .double s.req.a = true ∧ isFinite .double s.req.b = true
  ranges : DatapathAt (currentOp s) s s.stage

/-! ### Safe runs -/

/-- A step is safe when it answers a next state: nothing stops the block. -/
def StepSafe (s : State) : Prop := ∃ t, step s = .next t

/-- The states a run from `s` passes through. -/
inductive ReachableFrom (s : State) : State → Prop where
  | refl : ReachableFrom s s
  | next {t u : State} (h : ReachableFrom s t) (hs : step t = .next u) : ReachableFrom s u

/-- A run is safe when every step of it is. -/
def RunSafe (s : State) : Prop := ∀ t, ReachableFrom s t → StepSafe t

end Sys2Proof.Machine
end

