-- ==== Sys2Proof/Certificates/Slice0/Obligations.lean ====
section
/-! DEFINITION. The statements about the block, one for each rule or group of rules that says what it does. `OBLIGATIONS.json`
lists them with the rules they formalise. -/

open Sys2Proof Sys2Proof.Machine

/-! ### Command words -/

/-- R63 and Table O: decoding over all 16 command words. -/
def Obligations.CommandWordsDecodeByTableO : Prop :=
  ∀ h : Bool,
    decode h 0b0000#4 = .ok .encS ∧ decode h 0b0001#4 = .ok .encD ∧
    decode h 0b0010#4 = .error .reservedSelector ∧ decode h 0b0011#4 = .error .reservedSelector ∧
    decode h 0b0100#4 = .ok .splitS ∧ decode h 0b0101#4 = .ok .splitD ∧
    decode h 0b0110#4 = .error .reservedSelector ∧ decode h 0b0111#4 = .error .reservedSelector ∧
    decode h 0b1000#4 = .ok .simAdd ∧ decode h 0b1001#4 = .ok .simSub ∧
    decode h 0b1010#4 = .ok .simMul ∧ decode h 0b1011#4 = .ok .simDiv ∧
    decode h 0b1100#4 = (if h then .ok .decS else .error .decoderAbsent) ∧
    decode h 0b1101#4 = (if h then .ok .decD else .error .decoderAbsent) ∧
    decode h 0b1110#4 = .error .reservedSelector ∧ decode h 0b1111#4 = .error .reservedSelector

/-- Decoding and encoding are inverse: an opcode the instance has is read back from its word, and a word that decodes is
the word of what it decodes to. -/
def Obligations.DecodeAndEncodeAreInverse : Prop :=
  (∀ (h : Bool) (i : Instr), i.wf h = true → decode h (encode i) = .ok i) ∧
  (∀ (h : Bool) (c : Command) (i : Instr), decode h c = .ok i → encode i = c ∧ i.wf h = true)

/-! ### What one step does -/

/-- An idle block serves the host's next request by running the opcode its command word decodes to, on a state in which
only the request and the host's list have moved on (the model serves a request in one step, log 8). -/
def Obligations.StepRunsDecodedRequest : Prop :=
  ∀ (s : State) (r : Request) (rest : List HostEvent) (i : Instr),
    s.stage = .idle → s.host = .request r :: rest → decode s.params.hasDec r.cmd = .ok i →
    step s = exec i { s with req := r, host := rest }

/-- The word placed by `withFetchWord` is the one the next step runs (log 7, log 16). -/
def Obligations.FetchWordIsRunNext : Prop :=
  ∀ (s : State) (w : Nat) (i : Instr), w < 16 → decode s.params.hasDec (BitVec.ofNat 4 w) = .ok i →
    step (s.withFetchWord 8 w) =
      exec i { s with stage := .idle, req := { s.req with cmd := BitVec.ofNat 4 w } }

/-- R182: a reserved command word raises `ILLEGAL_CMD`; the response holds nothing else, no register or log changes, and
`STAGE` stays `IDLE`, whatever the operands are. -/
def Obligations.ReservedWordRaisesIllegalCmd : Prop :=
  ∀ (s : State) (r : Request) (rest : List HostEvent) (e : DecodeError),
    s.stage = .idle → s.host = .request r :: rest → decode s.params.hasDec r.cmd = .error e →
    step s = .next { s with
      req := r, host := rest, building := none, stage := .idle
      rsp := some { status := .illegalCmd, info := none, pattern := none, fields := none, value := none, result := none } }

/-- A request in progress makes one transition of R121 per step (log 8). -/
def Obligations.StepAdvancesRequestInProgress : Prop :=
  ∀ s : State, s.stage ≠ .idle → (∀ rest, s.host ≠ .reset :: rest) → stageDefined s = true →
    step s = .next (advance s)

/-- A block with nothing to serve waits (the model's choice, log 9). -/
def Obligations.IdleBlockWaits : Prop :=
  ∀ s : State, s.stage = .idle → s.host = [] → step s = .next s

/-- R200: a reset is taken at any stage, puts `STAGE`, `LOG` and the response buffer as Table S says, delivers no response
for a request in progress and keeps the parameters. -/
def Obligations.ResetAbandonsTheRequest : Prop :=
  ∀ (s : State) (rest : List HostEvent), s.host = .reset :: rest →
    ∃ t, step s = .next t ∧ t.stage = .idle ∧ t.log = [] ∧ t.rsp = none ∧ t.building = none ∧
      t.params = s.params ∧ t.host = rest

/-- R38: the state right after reset holds the values of Table S that the table gives. -/
def Obligations.ResetStateHoldsTableS : Prop :=
  State.reset.stage = .idle ∧ State.reset.log = [] ∧ State.reset.rsp = none ∧ State.reset.building = none

/-- The host never finds an idle block stopped: every step from IDLE answers a next state (R188; that an idle block with
nothing to serve makes a step is the model's choice, log 9). -/
def Obligations.IdleBlockNeverStops : Prop :=
  ∀ s : State, s.stage = .idle → StepSafe s

/-- Every request an idle block accepts is answered, in one step, by exactly one response of a legal shape; the block is
idle again, the request is consumed, and the parameters stand (R23, R187, R206; one step is the model's choice, log 8). -/
def Obligations.EveryRequestIsAnswered : Prop :=
  ∀ (s : State) (r : Request) (rest : List HostEvent), s.stage = .idle → s.host = .request r :: rest →
    ∃ t resp, step s = .next t ∧ t.rsp = some resp ∧ ResponseShape resp ∧ t.stage = .idle ∧ t.building = none ∧
      t.req = r ∧ t.host = rest ∧ t.params = s.params

/-- R36: the parameters are fixed when the block is instantiated: no step changes them. -/
def Obligations.NoStepChangesParameters : Prop :=
  ∀ s t : State, step s = .next t → t.params = s.params

/-! ### ENC -/

/-- R86 and R87 at Double: `ENC.D` completes with the datum's own 64 bits, most significant first, or for a NaN the
pattern of the instance's `NAN_MODE`. -/
def Obligations.EncDoubleEmitsItsBits : Prop :=
  ∀ s : State, ∃ t p, exec .encD s = .next t ∧
    t.rsp = some { status := .ok, info := none, pattern := some p, fields := none, value := none, result := none } ∧
    (isNaN .double s.req.a = true → p = nanText s.params.nanMode 11 52) ∧
    (isNaN .double s.req.a = false → IsBitPattern s.req.a p)

/-- R83, R82 and R87 at Single: `ENC.S` completes with the bits of a Single datum: the infinity of the operand's sign for
an infinity, and for a finite operand the datum that rounding its magnitude to nearest, ties to even, gives, with the
operand's sign; for a NaN the pattern of the instance's `NAN_MODE`. -/
def Obligations.EncSingleRoundsToNearestEven : Prop :=
  ∀ s : State, ∃ t p, exec .encS s = .next t ∧
    t.rsp = some { status := .ok, info := none, pattern := some p, fields := none, value := none, result := none } ∧
    (isNaN .double s.req.a = true → p = nanText s.params.nanMode 8 23) ∧
    (isInf .double s.req.a = true →
      IsBitPattern (if signBit .double s.req.a then 0xFF800000#32 else 0x7F800000#32) p) ∧
    (isFinite .double s.req.a = true → ∃ v : Binary32, IsBitPattern v p ∧
      RoundsTo .single (signBit .double s.req.a) |val .double s.req.a| v)

/-- The corner cases of R85: where `ENC.S` of a finite operand gives an infinity, a signed zero, a subnormal or a normal
pattern. -/
def Obligations.EncSingleCornerCases : Prop :=
  ∀ s : State, isFinite .double s.req.a = true → ∃ t p, ∃ v : Binary32, exec .encS s = .next t ∧
    t.rsp = some { status := .ok, info := none, pattern := some p, fields := none, value := none, result := none } ∧
    IsBitPattern v p ∧ signBit .single v = signBit .double s.req.a ∧
    ((2 : ℚ) ^ 128 - 2 ^ 103 ≤ |val .double s.req.a| → isInf .single v = true) ∧
    (|val .double s.req.a| ≤ (2 : ℚ) ^ (-150 : ℤ) → isZero .single v = true) ∧
    ((2 : ℚ) ^ (-150 : ℤ) < |val .double s.req.a| →
      |val .double s.req.a| < (2 : ℚ) ^ (-126 : ℤ) - 2 ^ (-150 : ℤ) →
      expField .single v = 0 ∧ fracField .single v ≠ 0) ∧
    ((2 : ℚ) ^ (-126 : ℤ) - 2 ^ (-150 : ℤ) ≤ |val .double s.req.a| →
      |val .double s.req.a| < (2 : ℚ) ^ 128 - 2 ^ 103 →
      expField .single v ≠ 0 ∧ isFinite .single v = true)

/-- R85: the pattern `padL(binary digits of uint(v), W)` is `str_W(v)`. -/
def Obligations.PatternIsPaddedBinaryDigits : Prop :=
  ∀ (w : Nat) (v : BitVec w), 0 < w → bitString v = padL (Nat.toDigits 2 v.toNat) w

/-! ### SPLIT -/

/-- SPLIT completes on every string, with the field widths and the bias of its precision (R97, which the spec derives from
R90: "for every input string, `SPLIT.S` gives field lengths (1, 8, 23) and `SPLIT.D` gives (1, 11, 52)"). -/
def Obligations.SplitFieldWidths : Prop :=
  ∀ s : State,
    (∃ t f, exec .splitS s = .next t ∧
      t.rsp = some { status := .ok, info := none, pattern := none, fields := some f, value := none, result := none } ∧
      f.sign.length = 1 ∧ f.exponent.length = 8 ∧ f.mantissa.length = 23 ∧ f.bias = 127) ∧
    (∃ t f, exec .splitD s = .next t ∧
      t.rsp = some { status := .ok, info := none, pattern := none, fields := some f, value := none, result := none } ∧
      f.sign.length = 1 ∧ f.exponent.length = 11 ∧ f.mantissa.length = 52 ∧ f.bias = 1023)

/-- R90: read together, the fields are the first W characters of the stripped input, padded on the right with `'0'`;
nothing is checked, and what stands beyond W is ignored. -/
def Obligations.SplitTakesStrippedCharacters : Prop :=
  ∀ s : State,
    (∃ t f, exec .splitS s = .next t ∧ t.rsp = some { status := .ok, fields := some f } ∧
      f.sign.length = 1 ∧ f.exponent.length = 8 ∧
      f.sign ++ f.exponent ++ f.mantissa = (strip s.req.bits ++ List.replicate 32 '0').take 32 ∧ f.bias = 127) ∧
    (∃ t f, exec .splitD s = .next t ∧ t.rsp = some { status := .ok, fields := some f } ∧
      f.sign.length = 1 ∧ f.exponent.length = 11 ∧
      f.sign ++ f.exponent ++ f.mantissa = (strip s.req.bits ++ List.replicate 64 '0').take 64 ∧ f.bias = 1023)

/-- R89: `strip` removes exactly the characters of WS, wherever they stand. -/
def Obligations.StripRemovesTheWhitespaceSet : Prop :=
  ∀ s : Str, strip s = s.filter fun c => !decide (c.toNat ∈
    [0x0009, 0x000A, 0x000B, 0x000C, 0x000D, 0x0020, 0x00A0, 0x1680, 0x2000, 0x2001, 0x2002, 0x2003, 0x2004, 0x2005,
      0x2006, 0x2007, 0x2008, 0x2009, 0x200A, 0x2028, 0x2029, 0x202F, 0x205F, 0x3000, 0xFEFF])

/-! ### DEC -/

/-- R95: `DEC.D` of a string of exactly 64 bit characters gives the datum with those bits; of any other string it raises
`BAD_PATTERN`, with nothing else in the response. -/
def Obligations.DecDoubleReadsTheBits : Prop :=
  ∀ s : State,
    (IsBitString s.req.bits 64 → ∃ t v, exec .decD s = .next t ∧
      t.rsp = some { status := .ok, info := none, pattern := none, fields := none, value := some v, result := none } ∧
      IsBitPattern v s.req.bits) ∧
    (¬ IsBitString s.req.bits 64 → ∃ t, exec .decD s = .next t ∧
      t.rsp = some { status := .badPattern, info := none, pattern := none, fields := none, value := none, result := none })

/-- R94: `DEC.S` of a string of exactly 32 bit characters: a finite Single datum keeps its sign and its exact value, an
infinity its sign, and a NaN is widened with the quiet bit set and the low 22 payload bits kept. Of any other string it
raises `BAD_PATTERN`. -/
def Obligations.DecSingleValue : Prop :=
  ∀ s : State,
    (IsBitString s.req.bits 32 → ∃ t x, ∃ v : Binary32, exec .decS s = .next t ∧
      t.rsp = some { status := .ok, info := none, pattern := none, fields := none, value := some x, result := none } ∧
      IsBitPattern v s.req.bits ∧ signBit .double x = signBit .single v ∧
      (isFinite .single v = true → isFinite .double x = true ∧ val .double x = val .single v) ∧
      (isInf .single v = true → isInf .double x = true) ∧
      (isNaN .single v = true →
        expField .double x = 2 ^ 11 - 1 ∧ fracField .double x = 2 ^ 51 + fracField .single v % 2 ^ 22 * 2 ^ 29)) ∧
    (¬ IsBitString s.req.bits 32 → ∃ t, exec .decS s = .next t ∧
      t.rsp = some { status := .badPattern, info := none, pattern := none, fields := none, value := none, result := none })

/-- Every binary64 datum that is not a NaN comes back, bit for bit, from `DEC.D` of its `ENC.D` pattern (R96, which the
spec derives from R86 and R95). -/
def Obligations.DoubleRoundTrip : Prop :=
  ∀ s : State, isNaN .double s.req.a = false → ∃ t p, exec .encD s = .next t ∧
    t.rsp = some { status := .ok, pattern := some p } ∧
    ∀ u : State, u.req.bits = p → ∃ w, exec .decD u = .next w ∧ w.rsp = some { status := .ok, value := some s.req.a }

/-- The same at Single in the other order: a Single pattern that is not a NaN comes back from `ENC.S` of the value
`DEC.S` gives it (derived: from R83 and R94). -/
def Obligations.SingleRoundTrip : Prop :=
  ∀ s : State, IsBitString s.req.bits 32 → isNaN .single (bitsOf 32 s.req.bits) = false →
    ∃ t x, exec .decS s = .next t ∧ t.rsp = some { status := .ok, value := some x } ∧
      ∀ u : State, u.req.a = x → ∃ w, exec .encS u = .next w ∧
        w.rsp = some { status := .ok, pattern := some s.req.bits }

/-- SPLIT of the pattern ENC emits gives the fields of the encoding, at both precisions; the pattern has the width of its
format and no whitespace (R98, which the spec derives from R85, R86 and R90). -/
def Obligations.SplitOfEncodedPattern : Prop :=
  ∀ s : State, isNaN .double s.req.a = false →
    (∃ t p, exec .encS s = .next t ∧ t.rsp = some { status := .ok, pattern := some p } ∧
      p.length = 32 ∧ strip p = p ∧
      ∀ u : State, u.req.bits = p → ∃ w f, exec .splitS u = .next w ∧ w.rsp = some { status := .ok, fields := some f } ∧
        f.sign = [if signBit .single (cvtS s.req.a) then '1' else '0'] ∧
        IsBitPattern (BitVec.ofNat 8 (expField .single (cvtS s.req.a))) f.exponent ∧
        IsBitPattern (BitVec.ofNat 23 (fracField .single (cvtS s.req.a))) f.mantissa ∧ f.bias = 127) ∧
    (∃ t p, exec .encD s = .next t ∧ t.rsp = some { status := .ok, pattern := some p } ∧
      p.length = 64 ∧ strip p = p ∧
      ∀ u : State, u.req.bits = p → ∃ w f, exec .splitD u = .next w ∧ w.rsp = some { status := .ok, fields := some f } ∧
        f.sign = [if signBit .double s.req.a then '1' else '0'] ∧
        IsBitPattern (BitVec.ofNat 11 (expField .double s.req.a)) f.exponent ∧
        IsBitPattern (BitVec.ofNat 52 (fracField .double s.req.a)) f.mantissa ∧ f.bias = 1023)

/-- R88: ENC, SPLIT and DEC leave `STAGE = IDLE` and touch neither the Simulator's registers nor `LOG`: only the response
is new, and it is the same in every state with that request (and those parameters), so nothing else is read. -/
def Obligations.CodecTouchesOnlyTheResponse : Prop :=
  ∀ (s : State) (i : Instr), i ∈ [Instr.encS, .encD, .splitS, .splitD, .decS, .decD] →
    ∃ r, ∀ u : State, u.req = s.req → u.params = s.params →
      exec i u = .next { u with stage := .idle, building := none, rsp := some r }

/-! ### Statuses -/

/-- The numeric codes of R180. -/
def Obligations.StatusCodes : Prop :=
  Status.ok.code = 0 ∧ Status.illegalCmd.code = 1 ∧ Status.nonfiniteOperand.code = 2 ∧ Status.badPattern.code = 3

/-- R183: every SIM opcode refuses a NaN or an infinity, naming A if `a` is not finite and otherwise B; the response
holds the status and the info alone, and nothing else changes. -/
def Obligations.NonfiniteOperandIsRefused : Prop :=
  ∀ (s : State) (op : SimOp),
    (isFinite .double s.req.a = false →
      exec (Instr.ofSimOp op) s = .next { s with
        stage := .idle, building := none
        rsp := some { status := .nonfiniteOperand, info := some .A, pattern := none, fields := none, value := none,
                      result := none } }) ∧
    (isFinite .double s.req.a = true → isFinite .double s.req.b = false →
      exec (Instr.ofSimOp op) s = .next { s with
        stage := .idle, building := none
        rsp := some { status := .nonfiniteOperand, info := some .B, pattern := none, fields := none, value := none,
                      result := none } })

/-- R187: a fault response holds the status, and the info for `NONFINITE_OPERAND`; every other field is absent, `STAGE` is
IDLE, and no register and no log has changed: only the request, which the host sent, and the response are new. -/
def Obligations.FaultHasNoOtherEffect : Prop :=
  ∀ (s t : State) (r : Request) (rest : List HostEvent) (resp : Response),
    s.stage = .idle → s.host = .request r :: rest → step s = .next t → t.rsp = some resp → resp.status ≠ .ok →
    t = { s with req := r, host := rest, stage := .idle, building := none, rsp := some resp } ∧
      resp.pattern = none ∧ resp.fields = none ∧ resp.value = none ∧ resp.result = none ∧
      (resp.info.isSome = true ↔ resp.status = .nonfiniteOperand)

/-- R181: valid requests raise nothing. -/
def Obligations.ValidRequestsRaiseNothing : Prop :=
  ∀ (s : State) (i : Instr),
    ((i = .simAdd ∨ i = .simSub ∨ i = .simMul ∨ i = .simDiv) → FiniteOperands s.req) →
    (i = .decS → IsBitString s.req.bits 32) → (i = .decD → IsBitString s.req.bits 64) →
    ∃ t r, exec i s = .next t ∧ t.rsp = some r ∧ r.status = .ok ∧ r.info = none

/-! ### SIM -/

/-- R140, with the step sequences that the spec derives in R148: every SIM opcode completes on finite operands,
whatever they are, with one of the step sequences of its operation: five steps and the literal result on the original
operands, or four steps and `+0`. Mul normalizes only by Overflow and Div only by Underflow. -/
def Obligations.SimCompletesWithLegalSteps : Prop :=
  ∀ (s : State) (op : SimOp), FiniteOperands s.req →
    ∃ t res, exec (Instr.ofSimOp op) s = .next t ∧
      t.rsp = some { status := .ok, info := none, pattern := none, fields := none, value := none, result := some res } ∧
      t.stage = .idle ∧ t.log = res.steps ∧
      ((kinds res.steps ∈ normalPaths op ∧
          res.finalValue = (match op with
            | .add => fadd s.req.a s.req.b
            | .sub => fsub s.req.a s.req.b
            | .mul => fmul s.req.a s.req.b
            | .div => fdiv s.req.a s.req.b)) ∨
        (kinds res.steps ∈ zeroPaths op ∧ res.finalValue = 0#64)) ∧
      (∀ st ∈ res.steps, ∀ m k b a e, st.payload = .normalize m k b a e →
        (op = .mul → m = .overflow) ∧ (op = .div → m = .underflow))

/-- R84 on the literal result of R138: the exact sum, difference, product or quotient, rounded to nearest even; an exact
zero sum or difference is `-0` only when both terms are, and a zero product or quotient has the XOR of the signs. -/
def Obligations.LiteralResultIsRoundedExactly : Prop :=
  ∀ x y : Binary64, isFinite .double x = true → isFinite .double y = true →
    (val .double x + val .double y ≠ 0 →
      RoundsTo .double (decide (val .double x + val .double y < 0)) |val .double x + val .double y|
        (literalResult .add x y)) ∧
    (val .double x + val .double y = 0 →
      literalResult .add x y = if x = 0x8000000000000000#64 ∧ y = 0x8000000000000000#64 then 0x8000000000000000#64 else 0#64) ∧
    (val .double x - val .double y ≠ 0 →
      RoundsTo .double (decide (val .double x - val .double y < 0)) |val .double x - val .double y|
        (literalResult .sub x y)) ∧
    (val .double x - val .double y = 0 →
      literalResult .sub x y = if x = 0x8000000000000000#64 ∧ y = 0#64 then 0x8000000000000000#64 else 0#64) ∧
    RoundsTo .double (signBit .double x ^^ signBit .double y) |val .double x * val .double y| (literalResult .mul x y) ∧
    (isZero .double y = false →
      RoundsTo .double (signBit .double x ^^ signBit .double y) |val .double x / val .double y| (literalResult .div x y))

/-- R122, R123, R124: the first step of a SIM request records both operands, decomposed. -/
def Obligations.ExtractRecordsBothOperands : Prop :=
  ∀ (s : State) (op : SimOp), FiniteOperands s.req →
    ∃ t st A B, exec (Instr.ofSimOp op) s = .next t ∧ t.log[0]? = some st ∧ st.payload = .extract A B ∧
      IsOperandOf s.req.a (cvtS s.req.a) A ∧ IsOperandOf s.req.b (cvtS s.req.b) B

/-- R127 and R128: Add and Sub shift the significand with the smaller exponent right by the difference, exactly, and take
the larger exponent; with equal exponents nothing is shifted. -/
def Obligations.AlignShiftsTheSmallerExponent : Prop :=
  ∀ (s : State) (i : Instr), i = .simAdd ∨ i = .simSub → FiniteOperands s.req →
    ∃ t st A B, exec i s = .next t ∧ (∃ st0, t.log[0]? = some st0 ∧ st0.payload = .extract A B) ∧
      t.log[1]? = some st ∧
      (A.exp = B.exp → st.payload = .alignNone A.exp ∧ t.sigA = A.sig ∧ t.sigB = B.sig) ∧
      (A.exp < B.exp → st.payload = .align .A (B.exp - A.exp) A.sig t.sigA B.exp ∧ t.sigB = B.sig ∧
        t.opA.exp = B.exp ∧ t.opB.exp = B.exp ∧ isFinite .double t.sigA = true ∧
        val .double t.sigA = val .double A.sig / 2 ^ (B.exp - A.exp).toNat) ∧
      (B.exp < A.exp → st.payload = .align .B (A.exp - B.exp) B.sig t.sigB A.exp ∧ t.sigA = A.sig ∧
        t.opA.exp = A.exp ∧ t.opB.exp = A.exp ∧ isFinite .double t.sigB = true ∧
        val .double t.sigB = val .double B.sig / 2 ^ (A.exp - B.exp).toNat)

/-- R129 and R130: the second step of Mul adds the operands' exponents, that of Div subtracts them. -/
def Obligations.ExpCalcCombinesExponents : Prop :=
  ∀ s : State, FiniteOperands s.req →
    (∃ t st A B, exec .simMul s = .next t ∧ (∃ st0, t.log[0]? = some st0 ∧ st0.payload = .extract A B) ∧
      t.log[1]? = some st ∧ st.payload = .expCalc .plus A.exp B.exp (A.exp + B.exp)) ∧
    (∃ t st A B, exec .simDiv s = .next t ∧ (∃ st0, t.log[0]? = some st0 ∧ st0.payload = .extract A B) ∧
      t.log[1]? = some st ∧ st.payload = .expCalc .minus A.exp B.exp (A.exp - B.exp))

/-- R131 with R126: Compute for Add and Sub is the rounded signed sum of the aligned significands, B's sign inverted for
Sub; the result sign is `'1'` exactly for a negative sum (`-0` is not negative), and the significand is the absolute
value. -/
def Obligations.ComputeAddSubIsTheSignedSum : Prop :=
  ∀ (s : State) (op : SimOp), op = .add ∨ op = .sub → FiniteOperands s.req →
    ∃ t st A B l r g, exec (Instr.ofSimOp op) s = .next t ∧
      (∃ st0, t.log[0]? = some st0 ∧ st0.payload = .extract A B) ∧ t.log[2]? = some st ∧
      st.payload = .compute op l r t.raw t.rsgn g (max A.exp B.exp) ∧
      isFinite .double l = true ∧ signBit .double l = signBit .double s.req.a ∧
      val .double l = (if signBit .double s.req.a then -1 else 1) * val .double t.sigA ∧
      isFinite .double r = true ∧ signBit .double r = (signBit .double s.req.b ^^ decide (op = .sub)) ∧
      val .double r = (if signBit .double s.req.b ^^ decide (op = .sub) then -1 else 1) * val .double t.sigB ∧
      isFinite .double t.raw = true ∧
      RoundsTo .double (signBit .double t.raw) |val .double l + val .double r| t.raw ∧
      (val .double l + val .double r ≠ 0 →
        signBit .double t.raw = decide (val .double l + val .double r < 0)) ∧
      (val .double l + val .double r = 0 →
        signBit .double t.raw = (isZero .double l && signBit .double l && (isZero .double r && signBit .double r))) ∧
      (t.rsgn = '1' ∨ t.rsgn = '0') ∧ (t.rsgn = '1' ↔ val .double t.raw < 0) ∧
      signBit .double g = false ∧ isFinite .double g = true ∧ val .double g = |val .double t.raw|

/-- From R146, which the spec derives: the sum of Add and Sub is exact while the operands' exponents differ by at most
29. -/
def Obligations.SumIsExactForNearExponents : Prop :=
  ∀ (s : State) (op : SimOp), op = .add ∨ op = .sub → FiniteOperands s.req →
    ∃ t st0 st A B l r g e, exec (Instr.ofSimOp op) s = .next t ∧
      t.log[0]? = some st0 ∧ st0.payload = .extract A B ∧
      t.log[2]? = some st ∧ st.payload = .compute op l r t.raw t.rsgn g e ∧
      (|A.exp - B.exp| ≤ 29 → val .double t.raw = val .double l + val .double r)

/-- R132: Compute for Mul is the exact product of the significands, with the XOR of the operands' signs. -/
def Obligations.ComputeMulIsTheExactProduct : Prop :=
  ∀ s : State, FiniteOperands s.req →
    ∃ t st A B, exec .simMul s = .next t ∧ (∃ st0, t.log[0]? = some st0 ∧ st0.payload = .extract A B) ∧
      t.log[2]? = some st ∧ st.payload = .compute .mul A.sig B.sig t.raw t.rsgn t.raw (A.exp + B.exp) ∧
      isFinite .double t.raw = true ∧ signBit .double t.raw = false ∧ val .double t.raw = val .double A.sig * val .double B.sig ∧
      t.rsgn = (if signBit .double s.req.a ^^ signBit .double s.req.b then '1' else '0')

/-- R133: Compute for Div is the quotient of the significands rounded to nearest even, or `+0` when the divisor's
significand is zero, with the XOR of the operands' signs. -/
def Obligations.ComputeDivIsTheRoundedQuotient : Prop :=
  ∀ s : State, FiniteOperands s.req →
    ∃ t st A B, exec .simDiv s = .next t ∧ (∃ st0, t.log[0]? = some st0 ∧ st0.payload = .extract A B) ∧
      t.log[2]? = some st ∧ st.payload = .compute .div A.sig B.sig t.raw t.rsgn t.raw (A.exp - B.exp) ∧
      (isZero .double s.req.b = true → t.raw = 0#64) ∧
      (isZero .double s.req.b = false → isFinite .double t.raw = true ∧
        RoundsTo .double false (val .double A.sig / val .double B.sig) t.raw) ∧
      t.rsgn = (if signBit .double s.req.a ^^ signBit .double s.req.b then '1' else '0')

/-- R185: a zero divisor is not a fault: Compute gives the significand 0, the sign and the exponent are still
computed, and the request is served through the zero exit, with `+0`. -/
def Obligations.ZeroDivisorIsNotAFault : Prop :=
  ∀ s : State, FiniteOperands s.req → isZero .double s.req.b = true →
    ∃ t steps st A B, exec .simDiv s = .next t ∧
      t.rsp = some { status := .ok, info := none, pattern := none, fields := none, value := none
                     result := some { finalValue := 0#64, steps := steps } } ∧
      kinds steps = [.extract, .expCalc, .compute, .finishZero] ∧
      (∃ st0, steps[0]? = some st0 ∧ st0.payload = .extract A B) ∧ steps[2]? = some st ∧
      st.payload = .compute .div A.sig 0#64 0#64 (if signBit .double s.req.a ^^ signBit .double s.req.b then '1' else '0')
        0#64 (A.exp - B.exp)

/-- R143, corner case: a zero-valued operand of Mul takes the zero exit with `+0`, whatever the signs. -/
def Obligations.ZeroFactorTakesTheZeroExit : Prop :=
  ∀ s : State, FiniteOperands s.req → isZero .double s.req.a = true ∨ isZero .double s.req.b = true →
    ∃ t steps, exec .simMul s = .next t ∧
      t.rsp = some { status := .ok, info := none, pattern := none, fields := none, value := none
                     result := some { finalValue := 0#64, steps := steps } } ∧
      kinds steps = [.extract, .expCalc, .compute, .finishZero]

/-- R134: the zero exit is taken exactly when the significand Compute leaves is zero; it ends the log with FinishZero and
gives `+0`. That the significand is never a NaN is the spec's own inference in R134. -/
def Obligations.ZeroExitExactlyOnZeroSignificand : Prop :=
  ∀ (s : State) (op : SimOp), FiniteOperands s.req →
    ∃ t res o l r w c g e, exec (Instr.ofSimOp op) s = .next t ∧ t.rsp = some { status := .ok, result := some res } ∧
      t.log = res.steps ∧ res.steps[2]?.map SimulationStep.payload = some (.compute o l r w c g e) ∧
      isNaN .double g = false ∧
      (isZero .double g = true → kinds res.steps ∈ zeroPaths op ∧ res.finalValue = 0#64) ∧
      (isZero .double g = false → kinds res.steps ∈ normalPaths op)

/-- R135, R136, R137: the significand `g` and the exponent `x` that Compute leaves, `g` not zero, decide the step of
Normalize. At 2 or more, Overflow halves exactly until below 2 and counts the exponent up. Below 1, Underflow doubles
exactly, as long as the significand is below 1 and the exponent above -126, and counts the exponent down. Otherwise
nothing changes. -/
def Obligations.NormalizeChoosesByRange : Prop :=
  ∀ (s : State) (op : SimOp), FiniteOperands s.req →
    ∃ t st o l r w c g x, exec (Instr.ofSimOp op) s = .next t ∧ t.log[2]? = some st ∧
      st.payload = .compute o l r w c g x ∧
      (isZero .double g = false → ∃ st3, t.log[3]? = some st3 ∧
        (2 ≤ val .double g → st3.payload = .normalize .overflow t.k g t.sig t.exp ∧ t.exp = x + t.k ∧ 1 ≤ t.k ∧
          isFinite .double t.sig = true ∧ signBit .double t.sig = false ∧
          val .double t.sig = val .double g / 2 ^ t.k ∧ 1 ≤ val .double t.sig ∧ val .double t.sig < 2) ∧
        (val .double g < 1 → st3.payload = .normalize .underflow t.k g t.sig t.exp ∧ t.exp = x - t.k ∧ 0 ≤ t.k ∧ t.k ≤ 30 ∧
          isFinite .double t.sig = true ∧ signBit .double t.sig = false ∧
          val .double t.sig = val .double g * 2 ^ t.k ∧
          (1 ≤ t.k → val .double g * 2 ^ (t.k - 1) < 1 ∧ -126 ≤ t.exp) ∧ (1 ≤ val .double t.sig ∨ t.exp ≤ -126)) ∧
        (1 ≤ val .double g → val .double g < 2 → st3.payload = .normalizeNone g x ∧ t.sig = g ∧ t.exp = x))

/-- The loop bounds that the spec derives in R147: for finite operands the Overflow loop halves exactly once, and
never for Div; the Underflow loop doubles at most 24 times, never for Mul and at most once for Div, whose significand
is above 0.5; it ends below 2, and at 1 or more unless the exponent floor stopped it. -/
def Obligations.NormalizationBounds : Prop :=
  ∀ (s t : State) (op : SimOp), FiniteOperands s.req → exec (Instr.ofSimOp op) s = .next t →
    ∀ st ∈ t.log, ∀ m k b a e, st.payload = .normalize m k b a e →
      isFinite .double b = true ∧ isFinite .double a = true ∧
      (m = .overflow → op ≠ .div ∧ k = 1 ∧ 2 ≤ val .double b ∧ val .double b < 4 ∧ val .double a = val .double b / 2) ∧
      (m = .underflow → op ≠ .mul ∧ 0 ≤ k ∧ k ≤ 24 ∧ (op = .div → k ≤ 1 ∧ 1 / 2 < val .double b) ∧
        0 < val .double b ∧ val .double b < 1 ∧
        val .double a = val .double b * 2 ^ k ∧ val .double a < 2 ∧ (1 ≤ val .double a ∨ e ≤ -126))

/-- R138: unless the zero exit was taken (the significand `g` that Compute leaves is zero), the fifth step is Final. It
reports the literal result on the original operands, the result sign, the biased exponent, the significand and the text of
the final registers, and the literal result is the final value. The result holds the whole log. -/
def Obligations.FinalReportsTheRegisters : Prop :=
  ∀ (s : State) (op : SimOp), FiniteOperands s.req →
    ∃ t res o l r w c g e lit, exec (Instr.ofSimOp op) s = .next t ∧
      t.rsp = some { status := .ok, result := some res } ∧ t.log = res.steps ∧
      res.steps[2]?.map SimulationStep.payload = some (.compute o l r w c g e) ∧
      lit = (match op with
        | .add => fadd s.req.a s.req.b
        | .sub => fsub s.req.a s.req.b
        | .mul => fmul s.req.a s.req.b
        | .div => fdiv s.req.a s.req.b) ∧
      (isZero .double g = false → res.finalValue = lit ∧ ∃ st, res.steps[4]? = some st ∧
        st.payload = .final lit t.rsgn (t.exp + 127) t.sig (finalText t.rsgn (t.exp + 127) t.sig))

/-- The ranges that the spec derives in R145: the exponents of a SIM request on finite operands: each operand's in
[-127, 128], 128 only with the significand 1; after stage 2 in [-127, 128] for Add and Sub, [-254, 256] for Mul and
[-255, 255] for Div; and at Final in [-255, 256], so the biased one in [-128, 383]. -/
def Obligations.ExponentsStayInRange : Prop :=
  ∀ (s t : State) (op : SimOp), FiniteOperands s.req → exec (Instr.ofSimOp op) s = .next t →
    (∀ st ∈ t.log, ∀ A B, st.payload = .extract A B →
      -127 ≤ A.exp ∧ A.exp ≤ 128 ∧ -127 ≤ B.exp ∧ B.exp ≤ 128 ∧
      (A.exp = 128 → val .double A.sig = 1) ∧ (B.exp = 128 → val .double B.sig = 1)) ∧
    (∀ st, t.log[2]? = some st → ∀ o l r w c g x, st.payload = .compute o l r w c g x →
      (op = .add ∨ op = .sub → -127 ≤ x ∧ x ≤ 128) ∧ (op = .mul → -254 ≤ x ∧ x ≤ 256) ∧
        (op = .div → -255 ≤ x ∧ x ≤ 255)) ∧
    (∀ st ∈ t.log, ∀ v c e g x, st.payload = .final v c e g x → -128 ≤ e ∧ e ≤ 383)

/-- R139: the text of the Final step, its exponent in base 10 with a leading `-` when negative and no leading zeros. -/
def Obligations.FinalTextIsDecimal : Prop :=
  ∀ (c : Char) (e : Int) (g : Binary64), ∃ ds : Str,
    finalText c e g = "Sign=".toList ++ [c] ++ ", Exp=".toList ++ (if e < 0 then ['-'] else []) ++ ds
      ++ ", Mantissa=~".toList ++ Config.formatFrac g ∧
    ds ≠ [] ∧ (∀ d ∈ ds, '0' ≤ d ∧ d ≤ '9') ∧
    ds.foldl (fun n d => 10 * n + (d.toNat - 48)) 0 = e.natAbs ∧ (ds.head? = some '0' → ds = ['0'])

/-- A SIM request changes only the Simulator's registers, `LOG`, `STAGE` and the response: the parameters, the request
and what the host does next stand, and `K` stands too unless Normalize ran a loop (frame; R27, R36). -/
def Obligations.SimFrame : Prop :=
  ∀ (s t : State) (op : SimOp), exec (Instr.ofSimOp op) s = .next t →
    t.params = s.params ∧ t.req = s.req ∧ t.host = s.host ∧ t.building = none ∧ t.stage = .idle ∧
      (FiniteOperands s.req → StepKind.normalize ∉ kinds t.log → t.k = s.k)

/-! ### The sequencer -/

/-- R121: the order of the stages; the only branch is the zero exit, taken when SIG is zero or a NaN. -/
def Obligations.StagesFollowTheirOrder : Prop :=
  ∀ s : State,
    (simEntry s).stage = .extract ∧
    (s.stage = .extract → (advance s).stage = .align) ∧ (s.stage = .align → (advance s).stage = .compute) ∧
    (s.stage = .compute → (advance s).stage = .normalize) ∧
    (s.stage = .normalize → (feq s.sig 0#64 || isNaN .double s.sig) = true → (advance s).stage = .done) ∧
    (s.stage = .normalize → (feq s.sig 0#64 || isNaN .double s.sig) = false → (advance s).stage = .final) ∧
    (s.stage = .final → (advance s).stage = .done) ∧ (s.stage = .done → (advance s).stage = .idle)

/-- R30: `LOG` is append-only: a transition keeps every record in its place and appends one, or none when it delivers. -/
def Obligations.LogOnlyGrows : Prop :=
  ∀ s : State, s.stage ≠ .idle →
    ∃ new, (advance s).log = s.log ++ new ∧ (s.stage = .done → new = []) ∧ (s.stage ≠ .done → new.length = 1)

/-- Running a SIM request one transition per step, from the state the entry check leaves, reaches in five or six steps
exactly the state that `exec` gives in one (R121 allows the whole request as one transition; log 8). -/
def Obligations.StepwiseRunEqualsWholeRequest : Prop :=
  ∀ (s : State) (op : SimOp), s.stage = .idle → s.building = none →
    decode s.params.hasDec s.req.cmd = .ok (Instr.ofSimOp op) → FiniteOperands s.req →
    (∀ rest, s.host ≠ .reset :: rest) →
    ∃ t n, (n = 5 ∨ n = 6) ∧ exec (Instr.ofSimOp op) s = .next t ∧
      Host.Core.run Sys2Proof.core n (simEntry s) = .next t

/-! ### Whole-machine laws -/

/-- R21: the response to a request is a function of the request and the parameters alone: two idle blocks with the same
parameters that are sent the same request deliver the same response, whatever they hold otherwise. -/
def Obligations.ResponseDependsOnRequestAlone : Prop :=
  ∀ (s u s' u' : State) (r : Request) (rest rest' : List HostEvent),
    s.stage = .idle → u.stage = .idle → s.params = u.params →
    s.host = .request r :: rest → u.host = .request r :: rest' →
    step s = .next s' → step u = .next u' → s'.rsp = u'.rsp ∧ s'.rsp ≠ none

/-- R64: a request field the opcode does not read may hold anything. -/
def Obligations.UnreadFieldsHaveNoEffect : Prop :=
  ∀ (i : Instr) (s u s' u' : State), s.params = u.params → SameReadFields i s.req u.req →
    exec i s = .next s' → exec i u = .next u' → s'.rsp = u'.rsp

/-- Every step keeps the invariant of the log, the stage and the responses, from every state that has it (R29, R121, R148,
R187). -/
def Obligations.StepKeepsLogInvariant : Prop :=
  ∀ s t : State, LogInvariant s → step s = .next t → LogInvariant t

/-- The state after reset has that invariant. -/
def Obligations.ResetHasLogInvariant : Prop := LogInvariant State.reset

/-- Every step keeps the datapath in the ranges of R145, R146 and R147, from every state that has them. -/
def Obligations.StepKeepsDatapathInvariant : Prop :=
  ∀ s t : State, DatapathInvariant s → step s = .next t → DatapathInvariant t

/-- The state after reset has that invariant. -/
def Obligations.ResetHasDatapathInvariant : Prop := DatapathInvariant State.reset

/-- No run from a state with the datapath invariant ever stops: every state it passes through steps to a next state, so no
transition of a request in progress is refused as one R84 leaves undefined (log 8), and nothing faults. -/
def Obligations.RunsNeverStop : Prop := ∀ s : State, DatapathInvariant s → RunSafe s
end

