-- ==== Sys2Proof/Laws/Rounding.lean ====
section
/-! SUPPORT. Rounding to a binary format (spec/40_codec.md R82): what `floorLog2`, `roundHalfEven` and `rne` do, and that a datum is
determined by its sign and its magnitude. The one lemma about `rne` is `rne_roundsTo`. -/

namespace Sys2Proof.Machine

theorem two_zpow_eq_div (k : ℤ) : (2 : ℚ) ^ k = (2 ^ k.toNat : ℕ) / (2 ^ (-k).toNat : ℕ) := by
  rcases le_total 0 k with h | h
  · obtain ⟨n, rfl⟩ := Int.eq_ofNat_of_zero_le h
    simp
  · obtain ⟨n, hn⟩ := Int.eq_ofNat_of_zero_le (Int.neg_nonneg_of_nonpos h)
    obtain rfl : k = -(n : ℤ) := by omega
    simp

theorem two_zpow_pos (k : ℤ) : (0 : ℚ) < (2 : ℚ) ^ k := by positivity

/-- The test of `floorLog2` compares the fraction with `2^k`. -/
theorem cross_le_iff {n d : ℕ} (hd : 0 < d) (k : ℤ) :
    d * 2 ^ k.toNat ≤ n * 2 ^ (-k).toNat ↔ (2 : ℚ) ^ k ≤ (n : ℚ) / d := by
  have hd' : (0 : ℚ) < d := by exact_mod_cast hd
  rw [two_zpow_eq_div, div_le_div_iff₀ (by positivity) hd']
  rw [← Nat.cast_mul, ← Nat.cast_mul, Nat.cast_le, Nat.mul_comm]

theorem log2_bounds {n : ℕ} (hn : 0 < n) : (2 : ℚ) ^ (n.log2 : ℤ) ≤ n ∧ (n : ℚ) < 2 ^ ((n.log2 : ℤ) + 1) := by
  have h1 := Nat.log2_self_le (Nat.pos_iff_ne_zero.mp hn)
  have h2 := Nat.lt_log2_self (n := n)
  refine ⟨?_, ?_⟩
  · rw [zpow_natCast]; exact_mod_cast h1
  · have : ((n.log2 : ℤ) + 1) = ((n.log2 + 1 : ℕ) : ℤ) := by push_cast; ring
    rw [this, zpow_natCast]; exact_mod_cast h2

/-- `floorLog2` is the floor of the binary logarithm (R82). -/
theorem floorLog2_spec {n d : ℕ} (hn : 0 < n) (hd : 0 < d) :
    (2 : ℚ) ^ floorLog2 n d ≤ (n : ℚ) / d ∧ (n : ℚ) / d < 2 ^ (floorLog2 n d + 1) := by
  have hd' : (0 : ℚ) < d := by exact_mod_cast hd
  obtain ⟨n1, n2⟩ := log2_bounds hn
  obtain ⟨d1, d2⟩ := log2_bounds hd
  unfold floorLog2
  set k : ℤ := (n.log2 : ℤ) - d.log2 with hk
  have lo : (2 : ℚ) ^ (k - 1) ≤ (n : ℚ) / d := by
    rw [le_div_iff₀ hd']
    calc (2 : ℚ) ^ (k - 1) * d ≤ 2 ^ (k - 1) * 2 ^ ((d.log2 : ℤ) + 1) := by gcongr
      _ = 2 ^ (n.log2 : ℤ) := by rw [← zpow_add₀ two_ne_zero]; congr 1; omega
      _ ≤ n := n1
  have hi : (n : ℚ) / d < 2 ^ (k + 1) := by
    rw [div_lt_iff₀ hd']
    calc (n : ℚ) < 2 ^ ((n.log2 : ℤ) + 1) := n2
      _ = 2 ^ (k + 1) * 2 ^ (d.log2 : ℤ) := by rw [← zpow_add₀ two_ne_zero]; congr 1; omega
      _ ≤ 2 ^ (k + 1) * d := by gcongr
  dsimp only
  split_ifs with h
  · exact ⟨(cross_le_iff hd k).mp h, hi⟩
  · rw [cross_le_iff hd k, not_le] at h
    exact ⟨lo, by simpa using h⟩

theorem floorLog2_le_iff {n d : ℕ} (hn : 0 < n) (hd : 0 < d) (j : ℤ) :
    j ≤ floorLog2 n d ↔ (2 : ℚ) ^ j ≤ (n : ℚ) / d := by
  obtain ⟨h1, h2⟩ := floorLog2_spec hn hd
  constructor
  · intro h; exact le_trans (zpow_le_zpow_right₀ (by norm_num) h) h1
  · intro h
    have := lt_of_le_of_lt h h2
    rw [zpow_lt_zpow_iff_right₀ (by norm_num)] at this
    omega

/-- `roundHalfEven` stays on the same side of every integer. -/
theorem le_roundHalfEven {n d z : ℕ} (hd : 0 < d) (h : (z : ℚ) ≤ (n : ℚ) / d) : z ≤ roundHalfEven n d := by
  have : z ≤ n / d := by
    rw [Nat.le_div_iff_mul_le hd]
    rw [le_div_iff₀ (by exact_mod_cast hd)] at h
    exact_mod_cast h
  unfold roundHalfEven; dsimp only; split_ifs <;> omega

theorem roundHalfEven_le {n d z : ℕ} (hd : 0 < d) (h : (n : ℚ) / d ≤ z) : roundHalfEven n d ≤ z := by
  rw [div_le_iff₀ (by exact_mod_cast hd)] at h
  have h' : n ≤ z * d := by exact_mod_cast h
  have e := Nat.div_add_mod n d
  have lt := Nat.mod_lt n hd
  have hle : n / d ≤ z := by
    rw [Nat.div_le_iff_le_mul_add_pred hd]; nlinarith
  unfold roundHalfEven; dsimp only
  split_ifs with h1 h2
  · exact hle
  · rcases Nat.lt_or_ge (n / d) z with h3 | h3
    · omega
    · exfalso
      obtain rfl : z = n / d := le_antisymm h3 hle
      have : n % d = 0 := by nlinarith
      omega
  · rcases Nat.lt_or_ge (n / d) z with h3 | h3
    · omega
    · exfalso
      obtain rfl : z = n / d := le_antisymm h3 hle
      have : n % d = 0 := by nlinarith
      omega

/-- Within half a unit, and a tie goes to the even integer (R82). -/
theorem roundHalfEven_near {n d : ℕ} (hd : 0 < d) :
    |(roundHalfEven n d : ℚ) - n / d| ≤ 1 / 2 ∧
      (|(roundHalfEven n d : ℚ) - n / d| = 1 / 2 → roundHalfEven n d % 2 = 0) := by
  have hd' : (0 : ℚ) < d := by exact_mod_cast hd
  have e : (n : ℚ) = d * (n / d : ℕ) + (n % d : ℕ) := by exact_mod_cast (Nat.div_add_mod n d).symm
  have lt := Nat.mod_lt n hd
  set a := n / d
  set b := n % d
  have hq : (n : ℚ) / d = a + b / d := by rw [e]; field_simp
  have hb : (0 : ℚ) ≤ b / d := by positivity
  have hb1 : (b : ℚ) / d < 1 := by rw [div_lt_one hd']; exact_mod_cast lt
  have hval : roundHalfEven n d = if 2 * b < d then a else if d < 2 * b then a + 1 else a + a % 2 := rfl
  rw [hval, hq]
  split_ifs with h1 h2
  · have : (b : ℚ) / d < 1 / 2 := by
      rw [div_lt_div_iff₀ hd' two_pos]
      have : (2 * b : ℚ) < d := by exact_mod_cast h1
      linarith
    have : |(a : ℚ) - (a + b / d)| = b / d := by rw [abs_of_nonpos] <;> linarith
    rw [this]; exact ⟨by linarith, fun h => by linarith⟩
  · have : 1 / 2 < (b : ℚ) / d := by
      rw [div_lt_div_iff₀ two_pos hd']
      have : (d : ℚ) < 2 * b := by exact_mod_cast h2
      linarith
    have : |((a + 1 : ℕ) : ℚ) - (a + b / d)| = 1 - b / d := by push_cast; rw [abs_of_nonneg] <;> linarith
    rw [this]; exact ⟨by linarith, fun h => by linarith⟩
  · have h3 : (b : ℚ) / d = 1 / 2 := by
      rw [div_eq_div_iff hd'.ne' two_ne_zero]
      have : 2 * b = d := by omega
      have : (2 * b : ℚ) = d := by exact_mod_cast this
      linarith
    rw [h3]
    rcases Nat.mod_two_eq_zero_or_one a with h4 | h4 <;> rw [h4]
    · refine ⟨?_, fun _ => by omega⟩
      have : ((a + 0 : ℕ) : ℚ) - (a + 1 / 2) = -(1 / 2) := by push_cast; ring
      rw [this]; norm_num
    · refine ⟨?_, fun _ => by omega⟩
      have : ((a + 1 : ℕ) : ℚ) - (a + 1 / 2) = 1 / 2 := by push_cast; ring
      rw [this]; norm_num

/-- No integer is nearer. -/
theorem roundHalfEven_nearest {n d : ℕ} (hd : 0 < d) (z : ℤ) :
    |(roundHalfEven n d : ℚ) - n / d| ≤ |(z : ℚ) - n / d| := by
  have h := (roundHalfEven_near (n := n) hd).1
  by_cases hz : z = roundHalfEven n d
  · subst hz; simp
  · have h1 : (1 : ℚ) ≤ |(z : ℚ) - (roundHalfEven n d : ℕ)| := by
      have : (1 : ℤ) ≤ |z - (roundHalfEven n d : ℕ)| := Int.one_le_abs (sub_ne_zero.mpr hz)
      exact_mod_cast this
    have h2 := abs_sub_abs_le_abs_sub ((z : ℚ) - (roundHalfEven n d : ℕ)) ((n : ℚ) / d - (roundHalfEven n d : ℕ))
    rw [abs_sub_comm ((n : ℚ) / d)] at h2
    have h3 : (z : ℚ) - (roundHalfEven n d : ℕ) - ((n : ℚ) / d - (roundHalfEven n d : ℕ)) = z - n / d := by ring
    rw [h3] at h2
    linarith

/-! ### Fields of a packed datum -/

theorem pack_lt (p : Precision) (s : Bool) {ef f : ℕ} (he : ef < 2 ^ p.expBits) (hf : f < 2 ^ p.fracBits) :
    pack p s ef f < 2 ^ p.width := by
  cases p <;> cases s <;> simp [pack, Precision.width, Precision.expBits, Precision.fracBits] at * <;> omega

theorem signBit_pack {p : Precision} {w : ℕ} (hw : w = p.width) (s : Bool) {ef f : ℕ} (he : ef < 2 ^ p.expBits)
    (hf : f < 2 ^ p.fracBits) : signBit p (BitVec.ofNat w (pack p s ef f)) = s := by
  subst hw
  have h := pack_lt p s he hf
  unfold signBit
  rw [BitVec.getLsbD_ofNat, Nat.testBit_eq_decide_div_mod_eq]
  cases p <;> cases s <;> simp [pack, Precision.width, Precision.expBits, Precision.fracBits] at * <;> omega

theorem expField_pack {p : Precision} {w : ℕ} (hw : w = p.width) (s : Bool) {ef f : ℕ} (he : ef < 2 ^ p.expBits)
    (hf : f < 2 ^ p.fracBits) : expField p (BitVec.ofNat w (pack p s ef f)) = ef := by
  subst hw
  have h := pack_lt p s he hf
  unfold expField
  rw [BitVec.toNat_ofNat, Nat.mod_eq_of_lt h]
  cases p <;> cases s <;> simp [pack, Precision.width, Precision.expBits, Precision.fracBits] at * <;> omega

theorem fracField_pack {p : Precision} {w : ℕ} (hw : w = p.width) (s : Bool) {ef f : ℕ} (he : ef < 2 ^ p.expBits)
    (hf : f < 2 ^ p.fracBits) : fracField p (BitVec.ofNat w (pack p s ef f)) = f := by
  subst hw
  have h := pack_lt p s he hf
  unfold fracField
  rw [BitVec.toNat_ofNat, Nat.mod_eq_of_lt h]
  cases p <;> cases s <;> simp [pack, Precision.width, Precision.expBits, Precision.fracBits] at * <;> omega

theorem fracField_lt (p : Precision) {w : ℕ} (v : BitVec w) : fracField p v < 2 ^ p.fracBits :=
  Nat.mod_lt _ (by positivity)

theorem expField_lt (p : Precision) {w : ℕ} (v : BitVec w) : expField p v < 2 ^ p.expBits :=
  Nat.mod_lt _ (by positivity)

/-- A datum is its three fields. -/
theorem eq_pack {p : Precision} {w : ℕ} (hw : w = p.width) (v : BitVec w) :
    v = BitVec.ofNat w (pack p (signBit p v) (expField p v) (fracField p v)) := by
  subst hw
  apply BitVec.eq_of_toNat_eq
  have h := v.isLt
  rw [BitVec.toNat_ofNat, Nat.mod_eq_of_lt (pack_lt p _ (expField_lt p v) (fracField_lt p v))]
  unfold pack signBit expField fracField
  have : v.getLsbD (p.width - 1) = decide (v.toNat / 2 ^ (p.width - 1) % 2 = 1) := by
    rw [BitVec.getLsbD, Nat.testBit_eq_decide_div_mod_eq]
  rw [this]
  by_cases hb : v.toNat / 2 ^ (p.width - 1) % 2 = 1 <;> simp only [hb, decide_true, decide_false, if_true] <;>
    cases p <;> simp [Precision.width, Precision.expBits, Precision.fracBits] at * <;> omega

/-- Two data with the same fields are the same datum. -/
theorem ext_fields {p : Precision} {w : ℕ} (hw : w = p.width) {u v : BitVec w} (hs : signBit p u = signBit p v)
    (he : expField p u = expField p v) (hf : fracField p u = fracField p v) : u = v := by
  rw [eq_pack hw u, eq_pack hw v, hs, he, hf]

/-! ### Magnitudes -/

/-- The magnitude of a finite datum. -/
def mag (p : Precision) {w : ℕ} (v : BitVec w) : ℚ := (intSig p v : ℚ) * (2 : ℚ) ^ lastPlace p v

theorem val_eq (p : Precision) {w : ℕ} (v : BitVec w) : val p v = if signBit p v then -mag p v else mag p v := by
  unfold val mag; split <;> ring

theorem mag_nonneg (p : Precision) {w : ℕ} (v : BitVec w) : 0 ≤ mag p v := by unfold mag; positivity

theorem abs_val (p : Precision) {w : ℕ} (v : BitVec w) : |val p v| = mag p v := by
  rw [val_eq]; split
  · rw [abs_neg, abs_of_nonneg (mag_nonneg p v)]
  · rw [abs_of_nonneg (mag_nonneg p v)]

theorem intSig_lt (p : Precision) {w : ℕ} (v : BitVec w) : intSig p v < 2 ^ (p.fracBits + 1) := by
  have := fracField_lt p v
  unfold intSig; rw [pow_succ]; split <;> omega

theorem emin_le_lastPlace (p : Precision) {w : ℕ} (v : BitVec w) : p.emin - p.fracBits ≤ lastPlace p v := by
  unfold lastPlace Precision.emin; split <;> omega

theorem isFinite_iff (p : Precision) {w : ℕ} (v : BitVec w) : isFinite p v = true ↔ expField p v < 2 ^ p.expBits - 1 := by
  have := expField_lt p v
  unfold isFinite; simp; omega

/-- Every finite magnitude is below `2^(bias+1)`. -/
theorem mag_lt {p : Precision} {w : ℕ} {v : BitVec w} (h : isFinite p v = true) : mag p v < 2 ^ ((p.bias : ℤ) + 1) := by
  rw [isFinite_iff] at h
  have h1 : (intSig p v : ℚ) < 2 ^ ((p.fracBits : ℤ) + 1) := by
    have := intSig_lt p v
    have e : ((p.fracBits : ℤ) + 1) = ((p.fracBits + 1 : ℕ) : ℤ) := by push_cast; ring
    rw [e, zpow_natCast]; exact_mod_cast this
  have h2 : lastPlace p v ≤ (p.bias : ℤ) - p.fracBits := by
    unfold lastPlace Precision.emin
    cases p <;> simp [Precision.bias, Precision.fracBits, Precision.expBits] at * <;> split <;> omega
  calc mag p v < 2 ^ ((p.fracBits : ℤ) + 1) * 2 ^ lastPlace p v := by
        unfold mag; exact mul_lt_mul_of_pos_right h1 (two_zpow_pos _)
    _ ≤ 2 ^ ((p.fracBits : ℤ) + 1) * 2 ^ ((p.bias : ℤ) - p.fracBits) := by
        gcongr; norm_num
    _ = 2 ^ ((p.bias : ℤ) + 1) := by rw [← zpow_add₀ two_ne_zero]; congr 1; omega

theorem mag_eq_zero_iff (p : Precision) {w : ℕ} (v : BitVec w) : mag p v = 0 ↔ isZero p v = true := by
  unfold mag intSig isZero
  rw [mul_eq_zero, or_iff_left (two_zpow_pos _).ne']
  split
  · next h => simp [h]
  · next h => simp [h]; exact ne_of_gt (by positivity)

/-! ### Rounding -/

/-- The exponent of the last place `rne` rounds to. -/
def rneQ (p : Precision) (n d : ℕ) : ℤ := max (floorLog2 n d) p.emin - p.fracBits

/-- The integer significand `rne` rounds to. -/
def rneM (p : Precision) (n d : ℕ) : ℕ :=
  roundHalfEven (n * 2 ^ (-rneQ p n d).toNat) (d * 2 ^ (rneQ p n d).toNat)

theorem scaled_div (n d : ℕ) (q : ℤ) :
    ((n * 2 ^ (-q).toNat : ℕ) : ℚ) / (d * 2 ^ q.toNat : ℕ) = (n : ℚ) / d / 2 ^ q := by
  rw [two_zpow_eq_div q]; push_cast
  rcases eq_or_ne (d : ℚ) 0 with h | h
  · simp [h]
  · field_simp

theorem fraction_lt {p : Precision} {n d : ℕ} (hn : 0 < n) (hd : 0 < d) :
    (n : ℚ) / d < 2 ^ (rneQ p n d + p.fracBits + 1) := by
  refine lt_of_lt_of_le (floorLog2_spec hn hd).2 (zpow_le_zpow_right₀ (by norm_num) ?_)
  unfold rneQ; omega

theorem rneM_le {p : Precision} {n d : ℕ} (hn : 0 < n) (hd : 0 < d) : rneM p n d ≤ 2 ^ (p.fracBits + 1) := by
  apply roundHalfEven_le (by positivity)
  rw [scaled_div, div_le_iff₀ (two_zpow_pos _)]
  refine le_of_lt (lt_of_lt_of_eq (fraction_lt (p := p) hn hd) ?_)
  push_cast
  rw [← zpow_natCast, ← zpow_add₀ two_ne_zero]; congr 1; push_cast; ring

/-- A fraction of the normal range has a significand of full length. -/
theorem le_rneM {p : Precision} {n d : ℕ} (hn : 0 < n) (hd : 0 < d) (h : p.emin - p.fracBits < rneQ p n d) :
    2 ^ p.fracBits ≤ rneM p n d := by
  apply le_roundHalfEven (by positivity)
  rw [scaled_div, le_div_iff₀ (two_zpow_pos _)]
  push_cast
  rw [← zpow_natCast, ← zpow_add₀ two_ne_zero, ← floorLog2_le_iff hn hd]
  unfold rneQ at *; omega

/-- The value `rne` rounds to, before overflow. -/
def rneVal (p : Precision) (n d : ℕ) : ℚ := (rneM p n d : ℚ) * 2 ^ rneQ p n d

/-- The two outcomes of `rne`: an infinity when the rounded value is `2^(bias+1)` or more, else the finite datum of the
rounded value, with the parity of its fraction that of the rounded significand or even. -/
theorem rne_cases (p : Precision) (s : Bool) {n d : ℕ} (hn : 0 < n) (hd : 0 < d) :
    (2 ^ ((p.bias : ℤ) + 1) ≤ rneVal p n d ∧ rne p s n d = pack p s (2 ^ p.expBits - 1) 0) ∨
    (rneVal p n d < 2 ^ ((p.bias : ℤ) + 1) ∧ ∃ ef f, ef < 2 ^ p.expBits - 1 ∧ f < 2 ^ p.fracBits ∧
      rne p s n d = pack p s ef f ∧ (rneM p n d % 2 = 0 → f % 2 = 0) ∧
      rneVal p n d = ((if ef = 0 then f else 2 ^ p.fracBits + f : ℕ) : ℚ) *
        2 ^ (if ef = 0 then p.emin - p.fracBits else (ef : ℤ) - p.bias - p.fracBits)) := by
  have hq : p.emin - p.fracBits ≤ rneQ p n d := by unfold rneQ; omega
  have hM := rneM_le (p := p) hn hd
  have hM' := le_rneM (p := p) hn hd
  have hcast : ((2 : ℚ) ^ p.fracBits) = 2 ^ (p.fracBits : ℤ) := (zpow_natCast _ _).symm
  have hfb : 0 < p.fracBits := by cases p <;> decide
  unfold rne
  rw [if_neg hn.ne']
  dsimp only
  rw [show max (floorLog2 n d) p.emin - (p.fracBits : ℤ) = rneQ p n d from rfl]
  rw [show roundHalfEven (n * 2 ^ (-rneQ p n d).toNat) (d * 2 ^ (rneQ p n d).toNat) = rneM p n d from rfl]
  have hbp : 0 < p.bias := by cases p <;> decide
  have hpow : ((2 ^ p.expBits : ℕ) : ℤ) = 2 * p.bias + 2 := by cases p <;> decide
  unfold rneVal
  set m := rneM p n d
  set q := rneQ p n d
  by_cases hc : m = 2 ^ (p.fracBits + 1)
  · -- the rounding carried
    have hval : (m : ℚ) * 2 ^ q = 2 ^ (q + p.fracBits + 1) := by
      rw [hc]; push_cast; rw [← zpow_natCast, ← zpow_add₀ two_ne_zero]; congr 1; push_cast; ring
    rw [hval]
    simp only [hc, beq_self_eq_true, if_true]
    rw [if_neg (by positivity : ¬ 2 ^ p.fracBits = 0), if_neg (lt_irrefl _)]
    split_ifs with ho
    · left; exact ⟨zpow_le_zpow_right₀ (by norm_num) (by omega), rfl⟩
    · right
      refine ⟨zpow_lt_zpow_right₀ (by norm_num) (by omega), (q + 1 + p.fracBits + p.bias).toNat, 0, ?_, by positivity,
        by simp, by simp, ?_⟩
      · have := hpow; unfold Precision.emin at hq; omega
      · have h0 : (q + 1 + p.fracBits + p.bias).toNat ≠ 0 := by unfold Precision.emin at hq; omega
        have h1 : ((q + 1 + p.fracBits + p.bias).toNat : ℤ) = q + 1 + p.fracBits + p.bias := by
          unfold Precision.emin at hq; omega
        rw [if_neg h0, if_neg h0, h1]; push_cast
        rw [hcast, add_zero, ← zpow_add₀ two_ne_zero]; congr 1; ring
  · have hlt : m < 2 ^ (p.fracBits + 1) := lt_of_le_of_ne hM hc
    have hb : (m == 2 ^ (p.fracBits + 1)) = false := by simpa using hc
    simp only [hb, Bool.false_eq_true, if_false]
    split_ifs with h0 h1 ho
    · right
      rw [h0]
      exact ⟨by simp; positivity, 0, 0, by cases p <;> decide, by positivity, rfl, by simp, by simp⟩
    · -- subnormal
      have hq' : q = p.emin - p.fracBits := by
        by_contra hne
        have := hM' (lt_of_le_of_ne hq (Ne.symm hne))
        omega
      right
      refine ⟨?_, 0, m, by cases p <;> decide, h1, rfl, id, by simp [hq']⟩
      calc (m : ℚ) * 2 ^ q ≤ 2 ^ (p.fracBits : ℤ) * 2 ^ q := by
            gcongr; rw [← hcast]; exact_mod_cast h1.le
        _ = 2 ^ ((p.fracBits : ℤ) + q) := by rw [← zpow_add₀ two_ne_zero]
        _ < 2 ^ ((p.bias : ℤ) + 1) := zpow_lt_zpow_right₀ (by norm_num) (by unfold Precision.emin at hq'; omega)
    · left
      refine ⟨?_, rfl⟩
      calc (2 : ℚ) ^ ((p.bias : ℤ) + 1) ≤ 2 ^ ((p.fracBits : ℤ) + q) := zpow_le_zpow_right₀ (by norm_num) (by omega)
        _ = 2 ^ (p.fracBits : ℤ) * 2 ^ q := by rw [← zpow_add₀ two_ne_zero]
        _ ≤ m * 2 ^ q := by gcongr; rw [← hcast]; exact_mod_cast (not_lt.mp h1)
    · right
      refine ⟨?_, (q + p.fracBits + p.bias).toNat, m - 2 ^ p.fracBits, ?_, ?_, rfl, ?_, ?_⟩
      · calc (m : ℚ) * 2 ^ q < 2 ^ ((p.fracBits : ℤ) + 1) * 2 ^ q := by
              apply mul_lt_mul_of_pos_right _ (two_zpow_pos _)
              have e : ((p.fracBits : ℤ) + 1) = ((p.fracBits + 1 : ℕ) : ℤ) := by push_cast; ring
              rw [e, zpow_natCast]; exact_mod_cast hlt
          _ = 2 ^ ((p.fracBits : ℤ) + 1 + q) := by rw [← zpow_add₀ two_ne_zero]
          _ ≤ 2 ^ ((p.bias : ℤ) + 1) := zpow_le_zpow_right₀ (by norm_num) (by omega)
      · have := hpow; unfold Precision.emin at hq; omega
      · rw [pow_succ] at hlt; omega
      · intro h
        have : 2 ^ p.fracBits % 2 = 0 := by cases p <;> decide
        omega
      · have h2 : (q + p.fracBits + p.bias).toNat ≠ 0 := by unfold Precision.emin at hq; omega
        have h3 : ((q + p.fracBits + p.bias).toNat : ℤ) = q + p.fracBits + p.bias := by
          unfold Precision.emin at hq; omega
        rw [if_neg h2, if_neg h2, h3, Nat.add_sub_cancel' (not_lt.mp h1)]
        congr 2; ring

theorem rneVal_near {p : Precision} {n d : ℕ} (hd : 0 < d) (z : ℤ) :
    |rneVal p n d - (n : ℚ) / d| ≤ |(z : ℚ) * 2 ^ rneQ p n d - (n : ℚ) / d| := by
  have h := roundHalfEven_nearest (n := n * 2 ^ (-rneQ p n d).toNat) (d := d * 2 ^ (rneQ p n d).toNat)
    (by positivity) z
  rw [scaled_div] at h
  have hp := two_zpow_pos (rneQ p n d)
  have e : ∀ x : ℚ, |x * 2 ^ rneQ p n d - (n : ℚ) / d| = |x - (n : ℚ) / d / 2 ^ rneQ p n d| * 2 ^ rneQ p n d := by
    intro x
    rw [← abs_of_pos hp, ← abs_mul, abs_of_pos hp]; congr 1; field_simp
  unfold rneVal
  rw [e, e]
  exact mul_le_mul_of_nonneg_right h hp.le

/-- The rounded value is a nearest one among the magnitudes of all finite data; at a tie with another magnitude the
rounded significand is even. -/
theorem rneVal_nearest {p : Precision} {n d : ℕ} (hn : 0 < n) (hd : 0 < d) {x : ℚ} {m : ℕ} {e : ℤ}
    (hm : m < 2 ^ (p.fracBits + 1)) (he : p.emin - p.fracBits ≤ e) (hx : x = (m : ℚ) * 2 ^ e) :
    |rneVal p n d - (n : ℚ) / d| ≤ |x - (n : ℚ) / d| ∧
      (x ≠ rneVal p n d → |rneVal p n d - (n : ℚ) / d| = |x - (n : ℚ) / d| → rneM p n d % 2 = 0) := by
  have hp := two_zpow_pos (rneQ p n d)
  by_cases hq : rneQ p n d ≤ e
  · -- `x` is a multiple of the last place
    have hz : x = ((m * 2 ^ (e - rneQ p n d).toNat : ℕ) : ℤ) * 2 ^ rneQ p n d := by
      rw [hx]; push_cast
      rw [mul_assoc, ← zpow_natCast, ← zpow_add₀ two_ne_zero]; congr 2; omega
    set z : ℤ := ((m * 2 ^ (e - rneQ p n d).toNat : ℕ) : ℤ)
    refine ⟨by rw [hz]; exact rneVal_near hd z, fun hne heq => ?_⟩
    have hd' : 0 < d * 2 ^ (rneQ p n d).toNat := by positivity
    obtain ⟨h1, h2⟩ := roundHalfEven_near (n := n * 2 ^ (-rneQ p n d).toNat) hd'
    rw [scaled_div] at h1 h2
    apply h2
    set r := (n : ℚ) / d / 2 ^ rneQ p n d
    have er : (n : ℚ) / d = r * 2 ^ rneQ p n d := by simp only [r]; field_simp
    have hM : (roundHalfEven (n * 2 ^ (-rneQ p n d).toNat) (d * 2 ^ (rneQ p n d).toNat) : ℕ) = rneM p n d := rfl
    rw [hM] at h1 ⊢
    rw [hz, er, rneVal, ← sub_mul, ← sub_mul, abs_mul, abs_mul] at heq
    have heq' := mul_right_cancel₀ (abs_pos.mpr hp.ne').ne' heq
    have hne' : z ≠ (rneM p n d : ℤ) := by
      rintro h; apply hne; rw [hz, h, rneVal]; push_cast; rfl
    have h3 : (1 : ℚ) ≤ |(z : ℚ) - (rneM p n d : ℕ)| := by
      have : (1 : ℤ) ≤ |z - (rneM p n d : ℕ)| := Int.one_le_abs (sub_ne_zero.mpr hne')
      exact_mod_cast this
    have h4 : |(z : ℚ) - (rneM p n d : ℕ)| ≤ |(z : ℚ) - r| + |(rneM p n d : ℚ) - r| := by
      have := abs_sub_le (z : ℚ) r (rneM p n d : ℕ)
      rwa [abs_sub_comm r] at this
    linarith
  · -- `x` is below the binade of the fraction
    have hq' : p.emin - p.fracBits < rneQ p n d := by omega
    have hk : rneQ p n d + p.fracBits = floorLog2 n d := by unfold rneQ at *; omega
    have h2 : (2 : ℚ) ^ (rneQ p n d + p.fracBits) ≤ (n : ℚ) / d := by rw [hk]; exact (floorLog2_spec hn hd).1
    have hx1 : x < 2 ^ (rneQ p n d + p.fracBits) := by
      rw [hx]
      calc (m : ℚ) * 2 ^ e < 2 ^ ((p.fracBits : ℤ) + 1) * 2 ^ e := by
            apply mul_lt_mul_of_pos_right _ (two_zpow_pos _)
            have e : ((p.fracBits : ℤ) + 1) = ((p.fracBits + 1 : ℕ) : ℤ) := by push_cast; ring
            rw [e, zpow_natCast]; exact_mod_cast hm
        _ = 2 ^ ((p.fracBits : ℤ) + 1 + e) := by rw [← zpow_add₀ two_ne_zero]
        _ ≤ 2 ^ (rneQ p n d + p.fracBits) := zpow_le_zpow_right₀ (by norm_num) (by omega)
    have h3 := rneVal_near (p := p) (n := n) hd ((2 ^ p.fracBits : ℕ) : ℤ)
    have h4 : (((2 ^ p.fracBits : ℕ) : ℤ) : ℚ) * 2 ^ rneQ p n d = 2 ^ (rneQ p n d + p.fracBits) := by
      push_cast; rw [← zpow_natCast, ← zpow_add₀ two_ne_zero]; congr 1; ring
    rw [h4, abs_of_nonpos (by linarith : (2 : ℚ) ^ (rneQ p n d + p.fracBits) - n / d ≤ 0)] at h3
    rw [abs_of_neg (by linarith : x - (n : ℚ) / d < 0)]
    exact ⟨by linarith, fun _ h => by linarith⟩

theorem rneVal_nonneg (p : Precision) (n d : ℕ) : 0 ≤ rneVal p n d := by unfold rneVal; positivity

/-- An exactly representable fraction rounds to itself. -/
theorem rneVal_exact {p : Precision} {n d : ℕ} (hn : 0 < n) (hd : 0 < d) {m : ℕ} {e : ℤ}
    (hm : m < 2 ^ (p.fracBits + 1)) (he : p.emin - p.fracBits ≤ e) (h : (n : ℚ) / d = (m : ℚ) * 2 ^ e) :
    rneVal p n d = (n : ℚ) / d := by
  have h1 := (rneVal_nearest hn hd hm he h).1
  rw [sub_self, abs_zero] at h1
  exact sub_eq_zero.mp (abs_eq_zero.mp (le_antisymm h1 (abs_nonneg _)))

/-- Rounding keeps the side of a representable bound. -/
theorem rneVal_le {p : Precision} {n d : ℕ} (hn : 0 < n) (hd : 0 < d) {m : ℕ} {e : ℤ}
    (hm : m < 2 ^ (p.fracBits + 1)) (he : p.emin - p.fracBits ≤ e) (h : (n : ℚ) / d ≤ (m : ℚ) * 2 ^ e) :
    rneVal p n d ≤ (m : ℚ) * 2 ^ e := by
  have h1 := (rneVal_nearest (n := n) (d := d) hn hd hm he rfl).1
  rw [abs_of_nonneg (by linarith : 0 ≤ (m : ℚ) * 2 ^ e - n / d)] at h1
  linarith [le_abs_self (rneVal p n d - (n : ℚ) / d)]

theorem le_rneVal {p : Precision} {n d : ℕ} (hn : 0 < n) (hd : 0 < d) {m : ℕ} {e : ℤ}
    (hm : m < 2 ^ (p.fracBits + 1)) (he : p.emin - p.fracBits ≤ e) (h : (m : ℚ) * 2 ^ e ≤ (n : ℚ) / d) :
    (m : ℚ) * 2 ^ e ≤ rneVal p n d := by
  have h1 := (rneVal_nearest (n := n) (d := d) hn hd hm he rfl).1
  rw [abs_of_nonpos (by linarith : (m : ℚ) * 2 ^ e - n / d ≤ 0)] at h1
  linarith [neg_abs_le (rneVal p n d - (n : ℚ) / d)]

/-- The datum `rne` gives: an infinity exactly when the rounded value is `2^(bias+1)` or more, else finite with the
rounded value as magnitude; the sign is `s` in both. -/
theorem rne_datum {p : Precision} {w : ℕ} (hw : w = p.width) (s : Bool) {n d : ℕ} (hn : 0 < n) (hd : 0 < d) :
    signBit p (BitVec.ofNat w (rne p s n d)) = s ∧
    (2 ^ ((p.bias : ℤ) + 1) ≤ rneVal p n d → isInf p (BitVec.ofNat w (rne p s n d)) = true) ∧
    (rneVal p n d < 2 ^ ((p.bias : ℤ) + 1) → isFinite p (BitVec.ofNat w (rne p s n d)) = true ∧
      mag p (BitVec.ofNat w (rne p s n d)) = rneVal p n d ∧
      (rneM p n d % 2 = 0 → fracField p (BitVec.ofNat w (rne p s n d)) % 2 = 0)) := by
  have hE : 2 ^ p.expBits - 1 < 2 ^ p.expBits := by cases p <;> decide
  have hF : 0 < 2 ^ p.fracBits := by positivity
  rcases rne_cases p s hn hd with ⟨h1, h2⟩ | ⟨h1, ef, f, he, hf, h2, h3, h4⟩
  · rw [h2]
    refine ⟨signBit_pack hw s hE hF, fun _ => ?_, fun h => absurd h (not_lt.mpr h1)⟩
    unfold isInf; rw [expField_pack hw s hE hF, fracField_pack hw s hE hF]; simp
  · rw [h2]
    have he' : ef < 2 ^ p.expBits := by omega
    refine ⟨signBit_pack hw s he' hf, fun h => absurd h1 (not_lt.mpr h), fun _ => ⟨?_, ?_, ?_⟩⟩
    · rw [isFinite_iff, expField_pack hw s he' hf]; exact he
    · unfold mag intSig lastPlace
      rw [expField_pack hw s he' hf, fracField_pack hw s he' hf, h4]
    · rw [fracField_pack hw s he' hf]; exact h3

/-- The rounded value stays below `2^(bias+1)` exactly below the overflow threshold. -/
theorem rneVal_lt_iff {p : Precision} {n d : ℕ} (hn : 0 < n) (hd : 0 < d) :
    rneVal p n d < 2 ^ ((p.bias : ℤ) + 1) ↔ (n : ℚ) / d < overflowThreshold p := by
  -- the last finite magnitude and the midpoint above it
  have hb : (2 : ℚ) ^ ((p.bias : ℤ) - p.fracBits) = 2 * 2 ^ ((p.bias : ℤ) - p.fracBits - 1) := by
    rw [← zpow_one_add₀ two_ne_zero]; congr 1; ring
  have hT : overflowThreshold p = 2 ^ ((p.bias : ℤ) + 1) - 2 ^ ((p.bias : ℤ) - p.fracBits) / 2 := by
    unfold overflowThreshold; rw [hb]; ring
  have hlast : (((2 ^ (p.fracBits + 1) - 1 : ℕ)) : ℚ) * 2 ^ ((p.bias : ℤ) - p.fracBits)
      = 2 ^ ((p.bias : ℤ) + 1) - 2 ^ ((p.bias : ℤ) - p.fracBits) := by
    rw [Nat.cast_sub Nat.one_le_two_pow, sub_mul]
    congr 1
    · push_cast; rw [← zpow_natCast, ← zpow_add₀ two_ne_zero]; congr 1; push_cast; ring
    · simp
  have hu := two_zpow_pos ((p.bias : ℤ) - p.fracBits)
  have hem : p.emin - p.fracBits ≤ (p.bias : ℤ) - p.fracBits := by cases p <;> decide
  have hm1 : 2 ^ (p.fracBits + 1) - 1 < 2 ^ (p.fracBits + 1) := by have := Nat.one_le_two_pow (n := p.fracBits + 1); omega
  rw [hT]
  set u := (2 : ℚ) ^ ((p.bias : ℤ) - p.fracBits)
  set B := (2 : ℚ) ^ ((p.bias : ℤ) + 1)
  constructor
  · intro h
    by_contra hge
    rw [not_lt] at hge
    -- below `B`, the value is at most the last finite magnitude; nearest and even then contradict each other
    have hle : rneVal p n d ≤ B - u := by
      rcases rne_cases p false hn hd with ⟨h1, _⟩ | ⟨_, ef, f, he, hf, _, _, h4⟩
      · exact absurd h (not_lt.mpr h1)
      · rw [h4, ← hlast]
        have hpow : ((2 ^ p.expBits : ℕ) : ℤ) = 2 * p.bias + 2 := by cases p <;> decide
        have h5 : (2 : ℚ) ^ (if ef = 0 then p.emin - (p.fracBits : ℤ) else (ef : ℤ) - p.bias - p.fracBits) ≤ u := by
          refine zpow_le_zpow_right₀ (by norm_num) ?_
          split
          · exact hem
          · omega
        refine mul_le_mul ?_ h5 (two_zpow_pos _).le (Nat.cast_nonneg _)
        rw [Nat.cast_le, pow_succ]; split <;> omega
    have hnear := (rneVal_nearest (n := n) (d := d) hn hd (p := p) hm1 hem rfl)
    rw [hlast] at hnear
    -- a candidate above: `B` itself is `2^M * 2 ^ (bias + 1 - M)`
    have hB : B = ((2 ^ p.fracBits : ℕ) : ℚ) * 2 ^ ((p.bias : ℤ) + 1 - p.fracBits) := by
      push_cast; rw [← zpow_natCast, ← zpow_add₀ two_ne_zero]; simp only [B]; congr 1; ring
    have hnearB := rneVal_nearest (n := n) (d := d) hn hd (p := p) (x := B) (m := 2 ^ p.fracBits)
      (e := (p.bias : ℤ) + 1 - p.fracBits) (Nat.pow_lt_pow_right (by norm_num) (by omega)) (by omega) hB
    have h6 : B ≠ rneVal p n d := ne_of_gt h
    have h7 := neg_abs_le (rneVal p n d - (n : ℚ) / d)
    rcases le_or_gt B ((n : ℚ) / d) with h8 | h8
    · rw [abs_of_nonpos (by linarith : B - (n : ℚ) / d ≤ 0)] at hnearB; linarith [hnearB.1]
    · rw [abs_of_pos (by linarith : 0 < B - (n : ℚ) / d),
        abs_of_nonpos (by linarith : rneVal p n d - (n : ℚ) / d ≤ 0)] at hnearB
      have hr : (n : ℚ) / d = B - u / 2 := by linarith [hnearB.1]
      have hv : rneVal p n d = B - u := by linarith [hnearB.1]
      have heven := hnearB.2 h6 (by rw [hv, hr]; ring)
      -- the last place is that of the top binade, so the significand is odd
      have hk : floorLog2 n d = p.bias := by
        have hB2 : B = 2 * 2 ^ (p.bias : ℤ) := by rw [← zpow_one_add₀ two_ne_zero]; simp only [B]; congr 1; ring
        have hub : u ≤ 2 ^ (p.bias : ℤ) := zpow_le_zpow_right₀ (by norm_num) (by omega)
        have k1 : (p.bias : ℤ) ≤ floorLog2 n d := by rw [floorLog2_le_iff hn hd, hr]; linarith
        have k2 : ¬ (p.bias : ℤ) + 1 ≤ floorLog2 n d := by
          rw [floorLog2_le_iff hn hd, hr]; linarith
        omega
      have hq : rneQ p n d = (p.bias : ℤ) - p.fracBits := by
        unfold rneQ; rw [hk, max_eq_left]; cases p <;> decide
      have hm2 : rneM p n d = 2 ^ (p.fracBits + 1) - 1 := by
        have h9 : (rneM p n d : ℚ) * u = ((2 ^ (p.fracBits + 1) - 1 : ℕ) : ℚ) * u := by
          rw [hlast, ← hv, rneVal, hq]
        exact_mod_cast mul_right_cancel₀ hu.ne' h9
      rw [hm2, pow_succ] at heven
      have : 0 < 2 ^ p.fracBits := by positivity
      omega
  · intro h
    have h1 := (rneVal_nearest (n := n) (d := d) hn hd (p := p) hm1 hem rfl).1
    rw [hlast] at h1
    by_contra hge
    rw [not_lt] at hge
    have h2 : |B - u - (n : ℚ) / d| < B - (n : ℚ) / d := by rw [abs_lt]; constructor <;> linarith
    have h3 : B - (n : ℚ) / d ≤ |rneVal p n d - (n : ℚ) / d| := le_trans (by linarith) (le_abs_self _)
    linarith

theorem overflowThreshold_pos (p : Precision) : 0 < overflowThreshold p := by
  have : ∀ p : Precision, (p.bias : ℤ) - p.fracBits - 1 < (p.bias : ℤ) + 1 := by intro p; omega
  unfold overflowThreshold
  exact sub_pos.mpr (zpow_lt_zpow_right₀ (by norm_num) (this p))

theorem signBit_zero {p : Precision} {w : ℕ} (hw : w = p.width) (s : Bool) :
    signBit p (BitVec.ofNat w (pack p s 0 0)) = s := signBit_pack hw s (by positivity) (by positivity)

theorem mag_zero {p : Precision} {w : ℕ} (hw : w = p.width) (s : Bool) :
    mag p (BitVec.ofNat w (pack p s 0 0)) = 0 := by
  rw [mag_eq_zero_iff, isZero, expField_pack hw s (by positivity) (by positivity),
    fracField_pack hw s (by positivity) (by positivity)]
  rfl

/-- The one specification of `rne` (R82). -/
theorem rne_roundsTo {p : Precision} {w : ℕ} (hw : w = p.width) (s : Bool) (n : ℕ) {d : ℕ} (hd : 0 < d) :
    RoundsTo p s ((n : ℚ) / d) (BitVec.ofNat w (rne p s n d)) := by
  rcases Nat.eq_zero_or_pos n with rfl | hn
  · have e : rne p s 0 d = pack p s 0 0 := by unfold rne; simp
    rw [e]
    have hf : isFinite p (BitVec.ofNat w (pack p s 0 0)) = true := by
      rw [isFinite_iff, expField_pack hw s (by positivity) (by positivity)]; cases p <;> decide
    have h0 : |val p (BitVec.ofNat w (pack p s 0 0))| = 0 := by rw [abs_val, mag_zero hw]
    refine ⟨signBit_zero hw s, fun h => ?_, fun _ => hf, fun _ u _ => ?_, fun _ u _ _ _ => ?_⟩
    · simp at h; linarith [overflowThreshold_pos p]
    · rw [h0]; simp
    · rw [fracField_pack hw s (by positivity) (by positivity)]
  · obtain ⟨h1, h2, h3⟩ := rne_datum hw s hn hd
    have iff := rneVal_lt_iff (p := p) hn hd
    refine ⟨h1, fun h => h2 (not_lt.mp fun h' => absurd (iff.mp h') (not_lt.mpr h)), fun h => (h3 (iff.mpr h)).1,
      fun h u hu => ?_, fun h u hu hne heq => ?_⟩
    · obtain ⟨_, hm, _⟩ := h3 (iff.mpr h)
      rw [abs_val, abs_val, hm]
      exact (rneVal_nearest hn hd (intSig_lt p u) (emin_le_lastPlace p u) rfl).1
    · obtain ⟨_, hm, he⟩ := h3 (iff.mpr h)
      rw [abs_val, abs_val, hm] at hne heq
      exact he ((rneVal_nearest hn hd (intSig_lt p u) (emin_le_lastPlace p u) rfl).2 hne heq)

theorem dyadic_div (m : ℕ) (e : ℤ) : ((dyadicNum m e : ℕ) : ℚ) / (dyadicDen e : ℕ) = (m : ℚ) * 2 ^ e := by
  unfold dyadicNum dyadicDen
  rw [two_zpow_eq_div]; push_cast; ring

theorem dyadicDen_pos (e : ℤ) : 0 < dyadicDen e := by unfold dyadicDen; positivity

/-! ### `RoundsTo` -/

namespace RoundsTo
variable {p : Precision} {s : Bool} {r : ℚ} {w : ℕ} {v u : BitVec w}

theorem mag_le (h : RoundsTo p s r v) (hu : isFinite p u = true) (hr : r ≤ mag p u) (ho : r < overflowThreshold p) :
    mag p v ≤ mag p u := by
  have h1 := h.nearest ho u hu
  rw [abs_val, abs_val, abs_of_nonneg (by linarith : 0 ≤ mag p u - r)] at h1
  linarith [le_abs_self (mag p v - r)]

theorem le_mag (h : RoundsTo p s r v) (hu : isFinite p u = true) (hr : mag p u ≤ r) (ho : r < overflowThreshold p) :
    mag p u ≤ mag p v := by
  have h1 := h.nearest ho u hu
  rw [abs_val, abs_val, abs_of_nonpos (by linarith : mag p u - r ≤ 0)] at h1
  linarith [neg_abs_le (mag p v - r)]

/-- A representable magnitude is kept. -/
theorem exact (h : RoundsTo p s r v) (hu : isFinite p u = true) (hr : r = mag p u) (ho : r < overflowThreshold p) :
    mag p v = r := by
  rw [hr]; exact le_antisymm (h.mag_le hu hr.le ho) (h.le_mag hu hr.ge ho)

end RoundsTo

/-- Every `m * 2^e` with a significand that fits is the magnitude of a finite datum. -/
theorem exists_datum {p : Precision} (s : Bool) {m : ℕ} {e : ℤ} (hm : m < 2 ^ (p.fracBits + 1))
    (he : p.emin - p.fracBits ≤ e) (hlt : (m : ℚ) * 2 ^ e < 2 ^ ((p.bias : ℤ) + 1)) :
    ∃ u : BitVec p.width, isFinite p u = true ∧ mag p u = (m : ℚ) * 2 ^ e ∧ signBit p u = s := by
  rcases Nat.eq_zero_or_pos m with rfl | hpos
  · refine ⟨BitVec.ofNat p.width (pack p s 0 0), ?_, by rw [mag_zero rfl]; simp, signBit_zero rfl s⟩
    rw [isFinite_iff, expField_pack rfl s (by positivity) (by positivity)]; cases p <;> decide
  · have hd := dyadicDen_pos e
    have hn : 0 < dyadicNum m e := by unfold dyadicNum; positivity
    have hv := rneVal_exact hn hd hm he (dyadic_div m e)
    rw [dyadic_div] at hv
    obtain ⟨h1, _, h3⟩ := rne_datum (w := p.width) rfl s hn hd
    obtain ⟨h4, h5, _⟩ := h3 (by rw [hv]; exact hlt)
    exact ⟨_, h4, by rw [h5, hv], h1⟩

theorem lt_overflowThreshold {p : Precision} {x : ℚ} {m : ℕ} {e : ℤ} (hm : m < 2 ^ (p.fracBits + 1))
    (he : p.emin - p.fracBits ≤ e) (hlt : (m : ℚ) * 2 ^ e < 2 ^ ((p.bias : ℤ) + 1)) (hx : x = (m : ℚ) * 2 ^ e) :
    x < overflowThreshold p := by
  rcases Nat.eq_zero_or_pos m with rfl | hpos
  · rw [hx]; simp [overflowThreshold_pos]
  · have hd := dyadicDen_pos e
    have hn : 0 < dyadicNum m e := by unfold dyadicNum; positivity
    have hv := rneVal_exact hn hd hm he (dyadic_div m e)
    have := (rneVal_lt_iff (p := p) hn hd).mp (by rw [hv, dyadic_div]; exact hlt)
    rwa [dyadic_div, ← hx] at this

theorem mag_lt_overflowThreshold {p : Precision} {w : ℕ} {v : BitVec w} (h : isFinite p v = true) :
    mag p v < overflowThreshold p :=
  lt_overflowThreshold (intSig_lt p v) (emin_le_lastPlace p v) (mag_lt h) rfl

/-- A fraction with a representable value rounds to it. -/
theorem RoundsTo.exact_of_eq {p : Precision} {s : Bool} {r : ℚ} {v : BitVec p.width} (h : RoundsTo p s r v) {m : ℕ}
    {e : ℤ} (hm : m < 2 ^ (p.fracBits + 1)) (he : p.emin - p.fracBits ≤ e)
    (hlt : (m : ℚ) * 2 ^ e < 2 ^ ((p.bias : ℤ) + 1)) (hr : r = (m : ℚ) * 2 ^ e) :
    isFinite p v = true ∧ mag p v = r := by
  obtain ⟨u, hu, hmag, _⟩ := exists_datum (p := p) s hm he hlt
  have ho := lt_overflowThreshold hm he hlt hr
  exact ⟨h.finite ho, h.exact hu (by rw [hmag, hr]) ho⟩

/-! ### A datum is determined by its sign and its magnitude -/

theorem bitsKey_lt_iff {p : Precision} {w : ℕ} {u v : BitVec w} :
    expField p u * 2 ^ p.fracBits + fracField p u < expField p v * 2 ^ p.fracBits + fracField p v ↔ mag p u < mag p v := by
  have key : ∀ {u v : BitVec w}, expField p u * 2 ^ p.fracBits + fracField p u
      < expField p v * 2 ^ p.fracBits + fracField p v → mag p u < mag p v := by
    intro u v h
    have fu := fracField_lt p u
    have fv := fracField_lt p v
    rcases lt_trichotomy (expField p u) (expField p v) with he | he | he
    · have h1 : (2 : ℚ) ^ (p.fracBits : ℤ) * 2 ^ lastPlace p v ≤ mag p v := by
        unfold mag
        refine mul_le_mul_of_nonneg_right ?_ (two_zpow_pos _).le
        rw [zpow_natCast]; unfold intSig; rw [if_neg (by omega)]; push_cast; linarith [Nat.cast_nonneg (α := ℚ) (fracField p v)]
      refine lt_of_lt_of_le ?_ h1
      rw [← zpow_add₀ two_ne_zero]
      by_cases h0 : expField p u = 0
      · have : mag p u = (fracField p u : ℚ) * 2 ^ (p.emin - (p.fracBits : ℤ)) := by unfold mag intSig lastPlace; simp [h0]
        rw [this]
        calc (fracField p u : ℚ) * 2 ^ (p.emin - (p.fracBits : ℤ))
            < 2 ^ (p.fracBits : ℤ) * 2 ^ (p.emin - (p.fracBits : ℤ)) := by
              apply mul_lt_mul_of_pos_right _ (two_zpow_pos _)
              rw [zpow_natCast]; exact_mod_cast fu
          _ = 2 ^ ((p.fracBits : ℤ) + (p.emin - p.fracBits)) := by rw [← zpow_add₀ two_ne_zero]
          _ ≤ 2 ^ ((p.fracBits : ℤ) + lastPlace p v) := by
              refine zpow_le_zpow_right₀ (by norm_num) ?_
              have := emin_le_lastPlace p v; omega
      · calc mag p u < 2 ^ ((p.fracBits : ℤ) + 1) * 2 ^ lastPlace p u := by
              unfold mag
              apply mul_lt_mul_of_pos_right _ (two_zpow_pos _)
              have := intSig_lt p u
              have e : ((p.fracBits : ℤ) + 1) = ((p.fracBits + 1 : ℕ) : ℤ) := by push_cast; ring
              rw [e, zpow_natCast]; exact_mod_cast this
          _ = 2 ^ ((p.fracBits : ℤ) + 1 + lastPlace p u) := by rw [← zpow_add₀ two_ne_zero]
          _ ≤ 2 ^ ((p.fracBits : ℤ) + lastPlace p v) := by
              refine zpow_le_zpow_right₀ (by norm_num) ?_
              unfold lastPlace; rw [if_neg h0, if_neg (by omega)]; omega
    · have hf : fracField p u < fracField p v := by rw [he] at h; omega
      have hl : lastPlace p u = lastPlace p v := by unfold lastPlace; rw [he]
      unfold mag; rw [hl]
      apply mul_lt_mul_of_pos_right _ (two_zpow_pos _)
      have : intSig p u < intSig p v := by unfold intSig; rw [he]; split <;> omega
      exact_mod_cast this
    · exfalso
      have : (expField p v + 1) * 2 ^ p.fracBits ≤ expField p u * 2 ^ p.fracBits := Nat.mul_le_mul_right _ he
      rw [Nat.add_mul] at this; omega
  constructor
  · exact key
  · intro h
    by_contra h'
    rcases Nat.eq_or_lt_of_le (not_lt.mp h') with h2 | h2
    · have fu := fracField_lt p u
      have fv := fracField_lt p v
      have he : expField p u = expField p v := by
        by_contra hne
        rcases Nat.lt_or_gt_of_ne hne with h3 | h3
        · have := Nat.mul_le_mul_right (2 ^ p.fracBits) h3
          rw [Nat.succ_mul] at this; omega
        · have := Nat.mul_le_mul_right (2 ^ p.fracBits) h3
          rw [Nat.succ_mul] at this; omega
      have hf : fracField p u = fracField p v := by rw [he] at h2; omega
      have : mag p u = mag p v := by unfold mag intSig lastPlace; rw [he, hf]
      linarith
    · exact absurd (key h2) (not_lt.mpr h.le)

/-- Data of one format with the same sign and the same magnitude are equal. -/
theorem ext_mag {p : Precision} {w : ℕ} (hw : w = p.width) {u v : BitVec w} (hs : signBit p u = signBit p v)
    (hm : mag p u = mag p v) : u = v := by
  have h1 := mt (bitsKey_lt_iff (p := p) (u := u) (v := v)).mp (not_lt.mpr hm.ge)
  have h2 := mt (bitsKey_lt_iff (p := p) (u := v) (v := u)).mp (not_lt.mpr hm.le)
  have fu := fracField_lt p u
  have fv := fracField_lt p v
  have he : expField p u = expField p v := by
    by_contra hne
    rcases Nat.lt_or_gt_of_ne hne with h3 | h3
    · have := Nat.mul_le_mul_right (2 ^ p.fracBits) h3
      rw [Nat.succ_mul] at this; omega
    · have := Nat.mul_le_mul_right (2 ^ p.fracBits) h3
      rw [Nat.succ_mul] at this; omega
  refine ext_fields hw hs he ?_
  rw [he] at h1 h2; omega

end Sys2Proof.Machine
end

