-- ==== Sys2Proof/Laws/Numerics.lean ====
section
/-! SUPPORT. What the binary64 operators and comparisons do on finite data (spec/40_codec.md R84; spec/00_scope.md R13): one
lemma each. -/

namespace Sys2Proof.Machine

/-! ### Signs, bits -/

theorem toNat_fabs (x : Binary64) : (fabs x).toNat = x.toNat % 2 ^ 63 := by
  unfold fabs
  rw [BitVec.toNat_and]
  have : (0x7FFFFFFFFFFFFFFF#64).toNat = 2 ^ 63 - 1 := by decide
  rw [this, Nat.and_two_pow_sub_one_eq_mod]

theorem expField_fabs (x : Binary64) : expField .double (fabs x) = expField .double x := by
  unfold expField; rw [toNat_fabs]
  simp only [Precision.fracBits, Precision.expBits]; omega

theorem fracField_fabs (x : Binary64) : fracField .double (fabs x) = fracField .double x := by
  unfold fracField; rw [toNat_fabs]
  simp only [Precision.fracBits]; omega

theorem signBit_fabs (x : Binary64) : signBit .double (fabs x) = false := by
  unfold signBit
  rw [BitVec.getLsbD, toNat_fabs, Nat.testBit_eq_decide_div_mod_eq]
  have : x.toNat % 2 ^ 63 / 2 ^ (Precision.width .double - 1) = 0 := by simp only [Precision.width]; omega
  simp only [this]; rfl

theorem signBit_fneg (x : Binary64) : signBit .double (fneg x) = !signBit .double x := by
  unfold signBit fneg
  rw [BitVec.getLsbD_xor]
  simp only [Precision.width]
  have : (0x8000000000000000#64).getLsbD (64 - 1) = true := by decide
  rw [this, Bool.xor_true]

theorem fabs_fneg (x : Binary64) : fabs (fneg x) = fabs x := by
  unfold fabs fneg
  apply BitVec.eq_of_getLsbD_eq
  intro i hi
  simp only [BitVec.getLsbD_and, BitVec.getLsbD_xor]
  have h1 : (0x8000000000000000#64).getLsbD i = decide (i = 63) := by
    interval_cases i <;> decide
  have h2 : (0x7FFFFFFFFFFFFFFF#64).getLsbD i = !decide (i = 63) := by
    interval_cases i <;> decide
  rw [h1, h2]; cases decide (i = 63) <;> simp

theorem expField_fneg (x : Binary64) : expField .double (fneg x) = expField .double x := by
  rw [← expField_fabs, fabs_fneg, expField_fabs]

theorem fracField_fneg (x : Binary64) : fracField .double (fneg x) = fracField .double x := by
  rw [← fracField_fabs, fabs_fneg, fracField_fabs]

theorem mag_congr {p : Precision} {w : ℕ} {u v : BitVec w} (he : expField p u = expField p v)
    (hf : fracField p u = fracField p v) : mag p u = mag p v := by
  unfold mag intSig lastPlace; rw [he, hf]

theorem isFinite_congr {p : Precision} {w : ℕ} {u v : BitVec w} (he : expField p u = expField p v) :
    isFinite p u = isFinite p v := by unfold isFinite; rw [he]

theorem isZero_congr {p : Precision} {w : ℕ} {u v : BitVec w} (he : expField p u = expField p v)
    (hf : fracField p u = fracField p v) : isZero p u = isZero p v := by unfold isZero; rw [he, hf]

@[simp] theorem mag_fabs (x : Binary64) : mag .double (fabs x) = mag .double x :=
  mag_congr (expField_fabs x) (fracField_fabs x)
@[simp] theorem mag_fneg (x : Binary64) : mag .double (fneg x) = mag .double x :=
  mag_congr (expField_fneg x) (fracField_fneg x)
@[simp] theorem isFinite_fabs (x : Binary64) : isFinite .double (fabs x) = isFinite .double x :=
  isFinite_congr (expField_fabs x)
@[simp] theorem isFinite_fneg (x : Binary64) : isFinite .double (fneg x) = isFinite .double x :=
  isFinite_congr (expField_fneg x)
@[simp] theorem isZero_fneg (x : Binary64) : isZero .double (fneg x) = isZero .double x :=
  isZero_congr (expField_fneg x) (fracField_fneg x)
@[simp] theorem isZero_fabs (x : Binary64) : isZero .double (fabs x) = isZero .double x :=
  isZero_congr (expField_fabs x) (fracField_fabs x)

theorem val_fneg (x : Binary64) : val .double (fneg x) = -val .double x := by
  rw [val_eq, val_eq, mag_fneg, signBit_fneg]; cases signBit .double x <;> simp

theorem val_fabs (x : Binary64) : val .double (fabs x) = |val .double x| := by
  rw [abs_val, val_eq, signBit_fabs, mag_fabs]; simp

theorem val_eq_zero_iff (p : Precision) {w : ℕ} (v : BitVec w) : val p v = 0 ↔ isZero p v = true := by
  rw [← abs_eq_zero, abs_val, mag_eq_zero_iff]

theorem isZero_isFinite {p : Precision} {w : ℕ} {v : BitVec w} (h : isZero p v = true) : isFinite p v = true := by
  unfold isZero at h; unfold isFinite
  have : 2 ^ p.expBits - 1 ≠ 0 := by cases p <;> decide
  simp at h ⊢; omega

theorem isFinite_not_nan {p : Precision} {w : ℕ} {v : BitVec w} (h : isFinite p v = true) : isNaN p v = false := by
  unfold isFinite at h; unfold isNaN; simp at h ⊢; intro h'; exact absurd h' h

theorem isFinite_not_inf {p : Precision} {w : ℕ} {v : BitVec w} (h : isFinite p v = true) : isInf p v = false := by
  unfold isFinite at h; unfold isInf; simp at h ⊢; intro h'; exact absurd h' h

/-! ### Comparisons (R13) -/

theorem orderKey_eq (x : Binary64) : orderKey x =
    if signBit .double x then -((expField .double x * 2 ^ 52 + fracField .double x : ℕ) : ℤ)
    else ((expField .double x * 2 ^ 52 + fracField .double x : ℕ) : ℤ) := by
  have : (fabs x).toNat = expField .double x * 2 ^ 52 + fracField .double x := by
    rw [toNat_fabs]; unfold expField fracField; simp only [Precision.fracBits, Precision.expBits]; omega
  unfold orderKey; rw [this]

theorem bitsKey_zero_iff {x : Binary64} : expField .double x * 2 ^ 52 + fracField .double x = 0 ↔ mag .double x = 0 := by
  rw [mag_eq_zero_iff]; unfold isZero; simp

theorem orderKey_lt_iff (x y : Binary64) : orderKey x < orderKey y ↔ val .double x < val .double y := by
  have h1 := bitsKey_lt_iff (p := .double) (u := x) (v := y)
  have h2 := bitsKey_lt_iff (p := .double) (u := y) (v := x)
  have z1 := bitsKey_zero_iff (x := x)
  have z2 := bitsKey_zero_iff (x := y)
  have p1 := mag_nonneg .double x
  have p2 := mag_nonneg .double y
  rw [orderKey_eq, orderKey_eq, val_eq, val_eq]
  simp only [Precision.fracBits] at h1 h2
  set a := expField .double x * 2 ^ 52 + fracField .double x
  set b := expField .double y * 2 ^ 52 + fracField .double y
  clear_value a b
  cases signBit .double x <;> cases signBit .double y <;> simp only [if_true, if_false, Bool.false_eq_true]
  · rw [← h1]; omega
  · constructor
    · intro h; omega
    · intro h; linarith
  · constructor
    · intro h
      by_contra hc
      rw [not_lt] at hc
      have hx : mag .double x = 0 := le_antisymm (by linarith) p1
      have hy : mag .double y = 0 := le_antisymm (by linarith) p2
      have := z1.mpr hx
      have := z2.mpr hy
      omega
    · intro h
      by_contra hc
      have ha : a = 0 := by omega
      have hb : b = 0 := by omega
      rw [z1.mp ha, z2.mp hb] at h; simp at h
  · rw [neg_lt_neg_iff, neg_lt_neg_iff, ← h2]; omega

theorem flt_iff {x y : Binary64} (hx : isFinite .double x = true) (hy : isFinite .double y = true) :
    flt x y = true ↔ val .double x < val .double y := by
  unfold flt; rw [isFinite_not_nan hx, isFinite_not_nan hy]; simp [orderKey_lt_iff]

theorem fge_iff {x y : Binary64} (hx : isFinite .double x = true) (hy : isFinite .double y = true) :
    fge x y = true ↔ val .double y ≤ val .double x := by
  unfold fge; rw [isFinite_not_nan hx, isFinite_not_nan hy]
  simp only [Bool.not_false, Bool.true_and, decide_eq_true_eq]
  rw [← not_lt, orderKey_lt_iff, not_lt]

theorem feq_iff {x y : Binary64} (hx : isFinite .double x = true) (hy : isFinite .double y = true) :
    feq x y = true ↔ val .double x = val .double y := by
  unfold feq; rw [isFinite_not_nan hx, isFinite_not_nan hy]
  simp only [Bool.not_false, Bool.true_and, decide_eq_true_eq]
  have h1 := orderKey_lt_iff x y
  have h2 := orderKey_lt_iff y x
  constructor
  · intro h; rw [h] at h1 h2; exact le_antisymm (not_lt.mp (mt h2.mpr (lt_irrefl _))) (not_lt.mp (mt h1.mpr (lt_irrefl _)))
  · intro h; rw [h] at h1 h2
    have := mt h1.mp (lt_irrefl _); have := mt h2.mp (lt_irrefl _); omega

/-! ### Named data -/

theorem isFinite_zero64 : isFinite .double zero64 = true := by decide
theorem isFinite_one64 : isFinite .double one64 = true := by decide
theorem isFinite_negOne64 : isFinite .double negOne64 = true := by decide
theorem isFinite_two64 : isFinite .double two64 = true := by decide
theorem val_zero64 : val .double zero64 = 0 := by rw [val_eq_zero_iff]; decide
theorem val_negZero64 : val .double negZero64 = 0 := by rw [val_eq_zero_iff]; decide

theorem mag_of_fields {p : Precision} {w : ℕ} {v : BitVec w} (m : ℕ) (e : ℤ) (hm : intSig p v = m) (he : lastPlace p v = e) :
    mag p v = m * 2 ^ e := by unfold mag; rw [hm, he]

theorem val_one64 : val .double one64 = 1 := by
  rw [val_eq, mag_of_fields (2 ^ 52) (-52) (by decide) (by decide)]
  have : signBit .double one64 = false := by decide
  rw [this]; norm_num

theorem val_negOne64 : val .double negOne64 = -1 := by
  rw [val_eq, mag_of_fields (2 ^ 52) (-52) (by decide) (by decide)]
  have : signBit .double negOne64 = true := by decide
  rw [this]; norm_num

theorem val_two64 : val .double two64 = 2 := by
  rw [val_eq, mag_of_fields (2 ^ 52) (-51) (by decide) (by decide)]
  have : signBit .double two64 = false := by decide
  rw [this]; norm_num

/-! ### Operators (R84) -/

theorem rne64_roundsTo (s : Bool) (n : ℕ) {d : ℕ} (hd : 0 < d) : RoundsTo .double s ((n : ℚ) / d) (rne64 s n d) :=
  rne_roundsTo (p := .double) rfl s n hd

theorem rne32_roundsTo (s : Bool) (n : ℕ) {d : ℕ} (hd : 0 < d) : RoundsTo .single s ((n : ℚ) / d) (rne32 s n d) :=
  rne_roundsTo (p := .single) rfl s n hd

theorem RoundsTo.exact64 {s : Bool} {r : ℚ} {v : Binary64} (h : RoundsTo .double s r v) (m : ℕ) (e : ℤ)
    (hm : m < 2 ^ 53) (he : -1074 ≤ e) (hlt : (m : ℚ) * 2 ^ e < 2 ^ (1024 : ℤ)) (hr : r = (m : ℚ) * 2 ^ e) :
    isFinite .double v = true ∧ mag .double v = r :=
  RoundsTo.exact_of_eq (p := .double) h (m := m) (e := e) hm he hlt hr

/-- Rounding to Double keeps the side of a representable upper bound, and stays finite. -/
theorem RoundsTo.le64 {s : Bool} {r : ℚ} {v : Binary64} (h : RoundsTo .double s r v) (m : ℕ) (e : ℤ)
    (hm : m < 2 ^ 53) (he : -1074 ≤ e) (hlt : (m : ℚ) * 2 ^ e < 2 ^ (1024 : ℤ)) (hr : r ≤ (m : ℚ) * 2 ^ e) :
    r < overflowThreshold .double ∧ isFinite .double v = true ∧ mag .double v ≤ (m : ℚ) * 2 ^ e := by
  obtain ⟨u, u1, u2, _⟩ := exists_datum (p := .double) false (m := m) (e := e) hm he hlt
  have ho := lt_of_le_of_lt hr (lt_overflowThreshold (p := .double) hm he hlt rfl)
  rw [← u2] at hr ⊢
  exact ⟨ho, h.finite ho, RoundsTo.mag_le (p := .double) (u := u) h u1 hr ho⟩

/-- Rounding to Double keeps the side of a representable lower bound. -/
theorem RoundsTo.ge64 {s : Bool} {r : ℚ} {v : Binary64} (h : RoundsTo .double s r v) (m : ℕ) (e : ℤ)
    (hm : m < 2 ^ 53) (he : -1074 ≤ e) (hlt : (m : ℚ) * 2 ^ e < 2 ^ (1024 : ℤ)) (hr : (m : ℚ) * 2 ^ e ≤ r)
    (ho : r < overflowThreshold .double) : (m : ℚ) * 2 ^ e ≤ mag .double v := by
  obtain ⟨u, u1, u2, _⟩ := exists_datum (p := .double) false (m := m) (e := e) hm he hlt
  rw [← u2] at hr ⊢
  exact RoundsTo.le_mag (p := .double) (u := u) h u1 hr ho

theorem rne64_dyadic (s : Bool) (m : ℕ) (e : ℤ) :
    RoundsTo .double s ((m : ℚ) * 2 ^ e) (rne64 s (dyadicNum m e) (dyadicDen e)) := by
  rw [← dyadic_div]; exact rne64_roundsTo s _ (dyadicDen_pos e)

theorem rne32_dyadic (s : Bool) (m : ℕ) (e : ℤ) :
    RoundsTo .single s ((m : ℚ) * 2 ^ e) (rne32 s (dyadicNum m e) (dyadicDen e)) := by
  rw [← dyadic_div]; exact rne32_roundsTo s _ (dyadicDen_pos e)

theorem scaledInt_mul (x : Binary64) {base : ℤ} (h : base ≤ lastPlace .double x) :
    (scaledInt x base : ℚ) * 2 ^ base = val .double x := by
  have : ((intSig .double x * 2 ^ (lastPlace .double x - base).toNat : ℕ) : ℚ) * 2 ^ base = mag .double x := by
    unfold mag; push_cast
    rw [mul_assoc, ← zpow_natCast, ← zpow_add₀ two_ne_zero]; congr 2; omega
  rw [val_eq, ← this]
  unfold scaledInt
  cases signBit .double x <;> simp

/-- The signed zero. -/
theorem signedZero64_spec (s : Bool) : isZero .double (signedZero64 s) = true ∧ signBit .double (signedZero64 s) = s := by
  cases s <;> decide

/-- `x ⊕ y` on finite data: the rounded exact sum, or a zero that is negative only when both are `-0` (R84). -/
theorem fadd_spec {x y : Binary64} (hx : isFinite .double x = true) (hy : isFinite .double y = true) :
    (val .double x + val .double y ≠ 0 →
      RoundsTo .double (decide (val .double x + val .double y < 0)) |val .double x + val .double y| (fadd x y)) ∧
    (val .double x + val .double y = 0 → fadd x y =
      signedZero64 (isZero .double x && signBit .double x && (isZero .double y && signBit .double y))) := by
  set base := min (lastPlace .double x) (lastPlace .double y)
  set r := scaledInt x base + scaledInt y base
  have hr : (r : ℚ) * 2 ^ base = val .double x + val .double y := by
    simp only [r]; push_cast
    rw [add_mul, scaledInt_mul x (min_le_left _ _), scaledInt_mul y (min_le_right _ _)]
  have hf : fadd x y = if r ≠ 0 then rne64 (decide (r < 0)) (dyadicNum r.natAbs base) (dyadicDen base)
      else signedZero64 (isZero .double x && signBit .double x && (isZero .double y && signBit .double y)) := by
    unfold fadd; rw [hx, hy]; rfl
  have h2 := two_zpow_pos base
  rw [← hr, hf]
  constructor
  · intro h
    have h0 : r ≠ 0 := by rintro h0; rw [h0] at h; simp at h
    rw [if_pos h0]
    have e1 : decide ((r : ℚ) * 2 ^ base < 0) = decide (r < 0) := by
      congr 1; rw [mul_neg_iff]; simp [h2, h2.not_gt]
    have e2 : |(r : ℚ) * 2 ^ base| = (r.natAbs : ℚ) * 2 ^ base := by
      rw [abs_mul, abs_of_pos h2, Nat.cast_natAbs]; push_cast; rfl
    rw [e1, e2]
    exact rne64_dyadic _ _ _
  · intro h
    have h0 : r = 0 := by
      rcases mul_eq_zero.mp h with h | h
      · exact_mod_cast h
      · exact absurd h h2.ne'
    rw [if_neg (by simpa using h0)]

/-- `x ⊗ y` on finite data: the rounded exact product, or a zero with the XOR of the signs (R84). -/
theorem fmul_spec {x y : Binary64} (hx : isFinite .double x = true) (hy : isFinite .double y = true) :
    RoundsTo .double (signBit .double x ^^ signBit .double y) (mag .double x * mag .double y) (fmul x y) := by
  have e : mag .double x * mag .double y
      = ((intSig .double x * intSig .double y : ℕ) : ℚ) * 2 ^ (lastPlace .double x + lastPlace .double y) := by
    unfold mag; rw [zpow_add₀ two_ne_zero]; push_cast; ring
  unfold fmul; rw [hx, hy, e]
  simp only [Bool.and_self, if_true]
  split_ifs with h
  · exact rne64_dyadic _ _ _
  · rw [not_not] at h
    rw [h]
    have := rne64_dyadic (signBit .double x ^^ signBit .double y) 0 0
    have e0 : rne64 (signBit .double x ^^ signBit .double y) (dyadicNum 0 0) (dyadicDen 0)
        = signedZero64 (signBit .double x ^^ signBit .double y) := by
      cases (signBit .double x ^^ signBit .double y) <;> decide
    rw [e0] at this
    simpa using this

/-- `x ⊘ y` on finite data, `y` not a zero: the rounded exact quotient, or a zero with the XOR of the signs (R84). -/
theorem fdiv_spec {x y : Binary64} (hx : isFinite .double x = true) (hy : isFinite .double y = true)
    (hz : isZero .double y = false) :
    RoundsTo .double (signBit .double x ^^ signBit .double y) (mag .double x / mag .double y) (fdiv x y) := by
  have hmy : intSig .double y ≠ 0 := by
    intro h
    have : mag .double y = 0 := by unfold mag; rw [h]; simp
    rw [mag_eq_zero_iff, hz] at this; exact absurd this (by decide)
  have e : mag .double x / mag .double y
      = ((dyadicNum (intSig .double x) (lastPlace .double x - lastPlace .double y) : ℕ) : ℚ) /
        (intSig .double y * dyadicDen (lastPlace .double x - lastPlace .double y) : ℕ) := by
    have h := dyadic_div (intSig .double x) (lastPlace .double x - lastPlace .double y)
    rw [Nat.cast_mul, mul_comm ((intSig .double y : ℕ) : ℚ), ← div_div, h]
    unfold mag; rw [zpow_sub₀ two_ne_zero]; field_simp
  unfold fdiv; rw [hx, hy, hz, e]
  simp only [Bool.not_false, Bool.and_self, if_true]
  split_ifs with h
  · exact rne64_roundsTo _ _ (Nat.mul_pos (Nat.pos_of_ne_zero hmy) (dyadicDen_pos _))
  · rw [not_not] at h
    rw [h]
    have := rne64_dyadic (signBit .double x ^^ signBit .double y) 0 0
    have e0 : rne64 (signBit .double x ^^ signBit .double y) (dyadicNum 0 0) (dyadicDen 0)
        = signedZero64 (signBit .double x ^^ signBit .double y) := by
      cases (signBit .double x ^^ signBit .double y) <;> decide
    rw [e0] at this
    simpa [dyadicNum] using this

end Sys2Proof.Machine
end

