-- ==== Sys2Proof/Laws/Strings.lean ====
section
/-! SUPPORT. Bit strings and slices (spec/00_scope.md R11, R12): `str_N` and `bitsOf` are inverse, and a slice of a bit string is a
field of the datum. -/

namespace Sys2Proof.Machine

/-! ### Bit characters -/

@[simp] theorem isBitChar_bitChar (b : Bool) : isBitChar (bitChar b) = true := by cases b <;> decide
@[simp] theorem isWhitespace_bitChar (b : Bool) : isWhitespace (bitChar b) = false := by cases b <;> decide
@[simp] theorem bitChar_eq_one (b : Bool) : (bitChar b = '1') = (b = true) := by cases b <;> decide

theorem isWhitespace_of_isBitChar {c : Char} (h : isBitChar c = true) : isWhitespace c = false := by
  simp only [isBitChar, Bool.or_eq_true, beq_iff_eq] at h
  rcases h with rfl | rfl <;> decide

theorem bitChar_of_isBitChar {c : Char} (h : isBitChar c = true) : bitChar (decide (c = '1')) = c := by
  simp only [isBitChar, Bool.or_eq_true, beq_iff_eq] at h
  rcases h with rfl | rfl <;> decide

/-! ### Lengths and slices -/

@[simp] theorem length_repeatChar (c : Char) (n : ℕ) : (repeatChar c n).length = n := by simp [repeatChar]

theorem length_slice (s : Str) (i j : ℕ) : (slice s i j).length = min (j - i) (s.length - i) := by simp [slice]

/-- A slice never has more characters than asked for, so padding it gives exactly that many. -/
theorem length_padR_slice (s : Str) (i n : ℕ) : (padR (slice s i (i + n)) n).length = n := by
  simp [padR, length_slice]

@[simp] theorem length_bitString {w : ℕ} (v : BitVec w) : (bitString v).length = w := by simp [bitString]

/-- `str_N(v)[i] = v[N-1-i]` (R12). -/
theorem getElem_bitString {w : ℕ} (v : BitVec w) {i : ℕ} (h : i < w) :
    (bitString v)[i]? = some (bitChar (v.getLsbD (w - 1 - i))) := by
  simp [bitString, h, BitVec.getMsbD]

theorem strip_eq_self {s : Str} (h : ∀ c ∈ s, isWhitespace c = false) : strip s = s := by
  unfold strip; rw [List.filter_eq_self]; intro c hc; simp [h c hc]

theorem strip_bitString {w : ℕ} (v : BitVec w) : strip (bitString v) = bitString v := by
  apply strip_eq_self; intro c hc
  simp only [bitString, List.mem_map] at hc
  obtain ⟨i, _, rfl⟩ := hc; simp

theorem validPattern_bitString {w : ℕ} (v : BitVec w) : validPattern (bitString v) w = true := by
  simp [validPattern, bitString]

/-! ### The integer of a bit string -/

theorem uintOfBits_snoc (s : Str) (c : Char) : uintOfBits (s ++ [c]) = 2 * uintOfBits s + (if c = '1' then 1 else 0) := by
  simp [uintOfBits]

theorem bit_of_div (x k : ℕ) : x / 2 ^ k % 2 = if x.testBit k then 1 else 0 := by
  rw [Nat.testBit_eq_decide_div_mod_eq]
  rcases Nat.mod_two_eq_zero_or_one (x / 2 ^ k) with h | h <;> simp [h]

/-- The `n` bits from index `i` on are a field of the datum. -/
theorem uintOfBits_range' {w : ℕ} (v : BitVec w) (i : ℕ) :
    ∀ n, i + n ≤ w → uintOfBits ((List.range' i n).map fun j => bitChar (v.getMsbD j)) = v.toNat / 2 ^ (w - i - n) % 2 ^ n := by
  intro n
  induction n with
  | zero => intro _; simp [uintOfBits, Nat.mod_one]
  | succ n ih =>
    intro h
    rw [List.range'_concat, List.map_append, List.map_singleton, uintOfBits_snoc, ih (by omega)]
    simp only [bitChar_eq_one, one_mul]
    have hb : v.getMsbD (i + n) = v.toNat.testBit (w - i - (n + 1)) := by
      rw [BitVec.getMsbD]
      have : decide (i + n < w) = true := by simp; omega
      rw [this, Bool.true_and, BitVec.getLsbD]; congr 1; omega
    rw [hb, ← bit_of_div]
    have e : w - i - n = (w - i - (n + 1)) + 1 := by omega
    rw [e, pow_succ, ← Nat.div_div_eq_div_mul]
    set y := v.toNat / 2 ^ (w - i - (n + 1))
    rw [pow_succ, mul_comm (2 ^ n) 2, Nat.mod_mul]; omega

theorem slice_bitString {w : ℕ} (v : BitVec w) {i j : ℕ} (hij : i ≤ j) (hj : j ≤ w) :
    slice (bitString v) i j = (List.range' i (j - i)).map fun k => bitChar (v.getMsbD k) := by
  unfold slice bitString
  rw [← List.map_drop, ← List.map_take, List.range_eq_range', List.drop_range']
  congr 1
  apply List.ext_getElem?
  intro k
  rw [List.getElem?_take]
  by_cases hk : k < j - i
  · rw [if_pos hk, List.getElem?_eq_getElem (by simp; omega), List.getElem?_eq_getElem (by simp; omega)]
    simp
  · rw [if_neg hk, List.getElem?_eq_none (by simp; omega)]

theorem uintOfBits_slice_bitString {w : ℕ} (v : BitVec w) {i j : ℕ} (hij : i ≤ j) (hj : j ≤ w) :
    uintOfBits (slice (bitString v) i j) = v.toNat / 2 ^ (w - j) % 2 ^ (j - i) := by
  rw [slice_bitString v hij hj, uintOfBits_range' v i (j - i) (by omega)]
  congr 3; omega

/-- `bitsOf` is the inverse of `str_N` (R12). -/
theorem bitsOf_bitString {w : ℕ} (v : BitVec w) : bitsOf w (bitString v) = v := by
  have h := uintOfBits_range' v 0 w (by omega)
  have e : bitString v = (List.range' 0 w).map fun j => bitChar (v.getMsbD j) := by
    rw [bitString, List.range_eq_range']
  rw [bitsOf, e, h]
  apply BitVec.eq_of_toNat_eq
  rw [BitVec.toNat_ofNat]
  simp [Nat.mod_eq_of_lt v.isLt]

theorem uintOfBits_lt (s : Str) : uintOfBits s < 2 ^ s.length := by
  induction s using List.reverseRecOn with
  | nil => simp [uintOfBits]
  | append_singleton s c ih =>
    rw [uintOfBits_snoc, List.length_append, List.length_singleton, pow_succ]; split <;> omega

theorem uintOfBits_testBit (s : Str) : ∀ i, i < s.length →
    (uintOfBits s).testBit i = decide (s[s.length - 1 - i]? = some '1') := by
  induction s using List.reverseRecOn with
  | nil => intro i h; simp at h
  | append_singleton s c ih =>
    intro i h
    rw [uintOfBits_snoc]
    simp only [List.length_append, List.length_singleton] at h ⊢
    cases i with
    | zero =>
      rw [Nat.testBit_zero]
      simp only [Nat.add_sub_cancel, Nat.sub_zero, List.getElem?_append_right (Nat.le_refl _), Nat.sub_self]
      by_cases hc : c = '1' <;> simp [hc]
    | succ i =>
      rw [Nat.testBit_succ, List.getElem?_append_left (by omega)]
      have e1 : (2 * uintOfBits s + if c = '1' then 1 else 0) / 2 = uintOfBits s := by split <;> omega
      rw [e1, ih i (by omega)]; congr 2; congr 1; omega

/-- `str_N` is the inverse of `bitsOf` on bit strings of length N (R12). -/
theorem bitString_bitsOf {s : Str} {w : ℕ} (h : validPattern s w = true) : bitString (bitsOf w s) = s := by
  simp only [validPattern, Bool.and_eq_true, beq_iff_eq, List.all_eq_true] at h
  obtain ⟨hl, hc⟩ := h
  apply List.ext_getElem?
  intro i
  rcases Nat.lt_or_ge i w with hi | hi
  · rw [getElem_bitString _ hi]
    have hb : (bitsOf w s).getLsbD (w - 1 - i) = decide (s[i]? = some '1') := by
      unfold bitsOf
      rw [BitVec.getLsbD_ofNat, uintOfBits_testBit s _ (by omega)]
      have : s.length - 1 - (w - 1 - i) = i := by omega
      rw [this]
      have : decide (w - 1 - i < w) = true := by simp; omega
      rw [this, Bool.true_and]
    have hi' : i < s.length := by omega
    rw [hb, List.getElem?_eq_getElem hi']
    simp only [Option.some.injEq]
    exact bitChar_of_isBitChar (hc _ (List.getElem_mem hi'))
  · rw [List.getElem?_eq_none (by simp; omega), List.getElem?_eq_none (by omega)]

end Sys2Proof.Machine
end

