-- ==== Sys2Proof/Laws/Operands.lean ====
section
/-! SUPPORT. The Single encoding of an operand and its decomposition (spec/40_codec.md R83; spec/41_simulator.md R122, R123, R145,
R146). -/

namespace Sys2Proof.Machine

/-! ### Exact integers and powers -/

theorem natTo64_spec {n : ℕ} (h : n < 2 ^ 53) :
    isFinite .double (natTo64 n) = true ∧ signBit .double (natTo64 n) = false ∧ val .double (natTo64 n) = n := by
  have hr := rne64_roundsTo false n (d := 1) one_pos
  have he : (n : ℚ) / (1 : ℕ) = (n : ℚ) * 2 ^ (0 : ℤ) := by simp
  have hlt : (n : ℚ) * 2 ^ (0 : ℤ) < 2 ^ (1024 : ℤ) := by
    rw [zpow_zero, mul_one]
    calc (n : ℚ) < 2 ^ (53 : ℤ) := by exact_mod_cast h
      _ ≤ _ := zpow_le_zpow_right₀ (by norm_num) (by norm_num)
  obtain ⟨h1, h2⟩ := hr.exact64 n 0 h (by norm_num) hlt he
  refine ⟨h1, hr.sign, ?_⟩
  rw [val_eq, show signBit .double (natTo64 n) = false from hr.sign]
  simpa [natTo64] using h2

theorem pow64_spec {k : ℕ} (h : k ≤ 1023) :
    isFinite .double (pow64 k) = true ∧ signBit .double (pow64 k) = false ∧ val .double (pow64 k) = 2 ^ k := by
  have hr := rne64_roundsTo false (2 ^ k) (d := 1) one_pos
  have he : ((2 ^ k : ℕ) : ℚ) / (1 : ℕ) = ((1 : ℕ) : ℚ) * 2 ^ (k : ℤ) := by simp
  have hlt : ((1 : ℕ) : ℚ) * 2 ^ (k : ℤ) < 2 ^ (1024 : ℤ) := by
    rw [Nat.cast_one, one_mul]
    exact zpow_lt_zpow_right₀ (by norm_num) (by omega)
  obtain ⟨h1, h2⟩ := hr.exact64 1 k (by norm_num) (by omega) hlt he
  refine ⟨h1, hr.sign, ?_⟩
  rw [val_eq, show signBit .double (pow64 k) = false from hr.sign]
  simpa [pow64, natTo64] using h2

theorem mag_eq_val {p : Precision} {w : ℕ} {v : BitVec w} (h : signBit p v = false) : mag p v = val p v := by
  rw [val_eq, h]; simp

theorem val_nonneg {p : Precision} {w : ℕ} {v : BitVec w} (h : signBit p v = false) : 0 ≤ val p v := by
  rw [← mag_eq_val h]; exact mag_nonneg p v

/-- Dividing by a power of two changes only the last place, where that stays representable (R146). -/
theorem fdiv_pow64 {x : Binary64} (hx : isFinite .double x = true) {k : ℕ} (hk : k ≤ 1023)
    (hp : isZero .double x = false → (-1074 : ℤ) ≤ lastPlace .double x - k) :
    isFinite .double (fdiv x (pow64 k)) = true ∧ signBit .double (fdiv x (pow64 k)) = signBit .double x ∧
      val .double (fdiv x (pow64 k)) = val .double x / 2 ^ k := by
  obtain ⟨p1, p2, p3⟩ := pow64_spec hk
  have hz : isZero .double (pow64 k) = false := by
    by_contra h
    rw [Bool.not_eq_false, ← val_eq_zero_iff, p3] at h
    exact absurd h (by positivity)
  have hr := fdiv_spec hx p1 hz
  rw [p2, Bool.xor_false, mag_eq_val p2, p3] at hr
  have hlast : mag .double x / 2 ^ k = (intSig .double x : ℚ) * 2 ^ (lastPlace .double x - k) := by
    unfold mag; rw [zpow_sub₀ two_ne_zero, zpow_natCast]; ring
  have hle : mag .double x / 2 ^ k ≤ mag .double x := div_le_self (mag_nonneg _ _) (one_le_pow₀ (by norm_num))
  have hlt : mag .double x / 2 ^ k < 2 ^ (1024 : ℤ) := lt_of_le_of_lt hle (mag_lt hx)
  have hex : isFinite .double (fdiv x (pow64 k)) = true ∧ mag .double (fdiv x (pow64 k)) = mag .double x / 2 ^ k := by
    by_cases h0 : isZero .double x = true
    · have hm0 : mag .double x = 0 := (mag_eq_zero_iff _ _).mpr h0
      rw [hm0, zero_div] at hr ⊢
      exact hr.exact64 0 0 (by norm_num) (by norm_num) (by simp) (by simp)
    · rw [Bool.not_eq_true] at h0
      exact hr.exact64 _ _ (intSig_lt .double x) (hp h0) (by rw [← hlast]; exact hlt) hlast
  refine ⟨hex.1, hr.sign, ?_⟩
  rw [val_eq, val_eq, hr.sign, hex.2]; cases signBit .double x <;> simp [neg_div]

/-- The last place of a datum of at least `2^k` (`k` normal). -/
theorem lastPlace_ge {x : Binary64} {k : ℤ} (h : (2 : ℚ) ^ k ≤ mag .double x) : k - 52 ≤ lastPlace .double x := by
  have h1 : mag .double x < 2 ^ (53 + lastPlace .double x) := by
    unfold mag; rw [zpow_add₀ two_ne_zero]
    apply mul_lt_mul_of_pos_right _ (two_zpow_pos _)
    have := intSig_lt .double x
    simp only [Precision.fracBits] at this
    exact_mod_cast this
  have := lt_of_le_of_lt h h1
  rw [zpow_lt_zpow_iff_right₀ (by norm_num)] at this
  omega

/-! ### The Single encoding of an operand (R83, R122) -/

/-- `CvtS` rounds a finite datum to Single (R82, R83). -/
theorem cvtS_spec {x : Binary64} (hx : isFinite .double x = true) :
    RoundsTo .single (signBit .double x) (mag .double x) (cvtS x) := by
  unfold cvtS
  rw [isFinite_not_nan hx, isFinite_not_inf hx]
  simp only [Bool.false_eq_true, if_false]
  have hz : ∀ s, (if s = true then 0x80000000#32 else 0x00000000#32) = BitVec.ofNat 32 (rne .single s 0 1) := by
    intro s; cases s <;> decide
  split_ifs with h1 h2
  · have := rne32_roundsTo true 0 (d := 1) one_pos
    rw [(mag_eq_zero_iff _ _).mpr h1, h2]
    simpa [rne32, ← hz] using this
  · have := rne32_roundsTo false 0 (d := 1) one_pos
    rw [Bool.not_eq_true] at h2
    rw [(mag_eq_zero_iff _ _).mpr h1, h2]
    simpa [rne32, ← hz] using this
  · exact rne32_dyadic _ _ _

theorem zeroValued_iff {x : Binary64} (hx : isFinite .double x = true) : zeroValued x = isZero .double x := by
  have h := feq_iff hx isFinite_zero64
  rw [val_zero64, val_eq_zero_iff] at h
  unfold zeroValued
  cases h1 : isZero .double x
  · cases h2 : feq x zero64
    · rfl
    · rw [h.mp h2] at h1; exact absurd h1 (by decide)
  · exact h.mpr h1

theorem expField_single_eq (v : Binary32) : uintOfBits (slice (bitString v) 1 9) = expField .single v := by
  rw [uintOfBits_slice_bitString v (by decide) (by decide)]; rfl

theorem fracField_single_eq (v : Binary32) : uintOfBits (slice (bitString v) 9 32) = fracField .single v := by
  rw [uintOfBits_slice_bitString v (by decide) (by decide)]; simp [fracField, Precision.fracBits]

theorem head_bitString (v : Binary32) : (bitString v)[0]?.getD '0' = bitChar (signBit .single v) := by
  rw [getElem_bitString v (by decide)]; rfl

theorem decompose_value (x : Binary64) : (decompose x).value = x := rfl
theorem decompose_bits (x : Binary64) : (decompose x).bits = bitString (cvtS x) := rfl
theorem decompose_exp (x : Binary64) : (decompose x).exp = (expField .single (cvtS x) : ℤ) - 127 := by
  unfold decompose; dsimp only; rw [expField_single_eq]
theorem decompose_sgn {x : Binary64} (hx : isFinite .double x = true) :
    (decompose x).sgn = bitChar (signBit .double x) := by
  unfold decompose; dsimp only; rw [head_bitString, (cvtS_spec hx).sign]

/-- The raw exponent of an operand lies in [-127, 128] (R26, R145). -/
theorem decompose_exp_range (x : Binary64) : -127 ≤ (decompose x).exp ∧ (decompose x).exp ≤ 128 := by
  rw [decompose_exp]; have := expField_lt .single (cvtS x)
  simp only [Precision.expBits] at this; omega

/-- The Single encoding of a finite operand is no NaN. -/
theorem cvtS_inf_or_finite {x : Binary64} (hx : isFinite .double x = true) :
    isInf .single (cvtS x) = true ∨ isFinite .single (cvtS x) = true := by
  have h := cvtS_spec hx
  rcases lt_or_ge (mag .double x) (overflowThreshold .single) with h1 | h1
  · exact .inr (h.finite h1)
  · exact .inl (h.overflow h1)

/-- An exponent of 128 comes with an all-zero fraction (R145). -/
theorem fracField_of_top {x : Binary64} (hx : isFinite .double x = true) (h : (decompose x).exp = 128) :
    fracField .single (cvtS x) = 0 := by
  rw [decompose_exp] at h
  rcases cvtS_inf_or_finite hx with h1 | h1
  · unfold isInf at h1; simp at h1; exact h1.2
  · rw [isFinite_iff] at h1; simp only [Precision.expBits] at h1; omega

/-- `1 + f / 2^23` is exact (R122, R146). -/
theorem significand_spec {f : ℕ} (hf : f < 2 ^ 23) :
    isFinite .double (fadd one64 (fdiv (natTo64 f) (pow64 23))) = true ∧
    signBit .double (fadd one64 (fdiv (natTo64 f) (pow64 23))) = false ∧
    val .double (fadd one64 (fdiv (natTo64 f) (pow64 23))) = 1 + f / 2 ^ 23 := by
  obtain ⟨n1, n2, n3⟩ := natTo64_spec (n := f) (by omega)
  have hlast : isZero .double (natTo64 f) = false → (-1074 : ℤ) ≤ lastPlace .double (natTo64 f) - (23 : ℕ) := by
    intro hz
    have hf1 : 1 ≤ f := by
      rcases Nat.eq_zero_or_pos f with rfl | h
      · rw [Nat.cast_zero, val_eq_zero_iff, hz] at n3; exact absurd n3 (by decide)
      · exact h
    have := lastPlace_ge (x := natTo64 f) (k := 0) (by rw [mag_eq_val n2, n3]; simpa using hf1)
    push_cast; omega
  obtain ⟨d1, d2, d3⟩ := fdiv_pow64 n1 (k := 23) (by norm_num) hlast
  rw [n3] at d3
  have hsum : val .double one64 + val .double (fdiv (natTo64 f) (pow64 23)) = 1 + f / 2 ^ 23 := by
    rw [val_one64, d3]
  have hpos : (0 : ℚ) < 1 + f / 2 ^ 23 := by positivity
  have hr := (fadd_spec isFinite_one64 d1).1 (by rw [hsum]; exact hpos.ne')
  rw [hsum, abs_of_pos hpos, decide_eq_false hpos.not_gt] at hr
  have he : (1 + f / 2 ^ 23 : ℚ) = ((2 ^ 23 + f : ℕ) : ℚ) * 2 ^ (-23 : ℤ) := by
    push_cast; rw [zpow_neg]; norm_num; ring
  have hlt : ((2 ^ 23 + f : ℕ) : ℚ) * 2 ^ (-23 : ℤ) < 2 ^ (1024 : ℤ) := by
    rw [← he]
    have : (f : ℚ) / 2 ^ 23 < 1 := by rw [div_lt_one (by positivity)]; exact_mod_cast hf
    calc (1 + f / 2 ^ 23 : ℚ) < 2 ^ (1 : ℤ) := by norm_num; linarith
      _ ≤ _ := zpow_le_zpow_right₀ (by norm_num) (by norm_num)
  obtain ⟨e1, e2⟩ := hr.exact64 (2 ^ 23 + f) (-23) (by omega) (by norm_num) hlt he
  refine ⟨e1, hr.sign, ?_⟩
  rw [val_eq, hr.sign]; simpa using e2

/-- The significand of an operand (R122, R123). -/
theorem decompose_sig_zero {x : Binary64} (hx : isFinite .double x = true) (hz : isZero .double x = true) :
    (decompose x).sig = zero64 := by
  unfold decompose; dsimp only; rw [zeroValued_iff hx, hz]; rfl

theorem decompose_sig {x : Binary64} (hx : isFinite .double x = true) (hz : isZero .double x = false) :
    isFinite .double (decompose x).sig = true ∧ signBit .double (decompose x).sig = false ∧
    val .double (decompose x).sig = 1 + fracField .single (cvtS x) / 2 ^ 23 := by
  have := significand_spec (f := fracField .single (cvtS x)) (by simpa [Precision.fracBits] using fracField_lt .single (cvtS x))
  unfold decompose; dsimp only; rw [zeroValued_iff hx, hz, fracField_single_eq]; exact this

/-- Every operand's significand is zero or in [1, 2), a multiple of `2^-23` (R146). -/
theorem decompose_sig_cases {x : Binary64} (hx : isFinite .double x = true) :
    (isZero .double x = true ∧ (decompose x).sig = zero64) ∨
    (isZero .double x = false ∧ isFinite .double (decompose x).sig = true ∧ signBit .double (decompose x).sig = false ∧
      ∃ f : ℕ, f < 2 ^ 23 ∧ val .double (decompose x).sig = ((2 ^ 23 + f : ℕ) : ℚ) / 2 ^ 23 ∧
        ((decompose x).exp = 128 → f = 0)) := by
  cases hz : isZero .double x
  · obtain ⟨h1, h2, h3⟩ := decompose_sig hx hz
    refine .inr ⟨rfl, h1, h2, fracField .single (cvtS x), ?_, ?_, fracField_of_top hx⟩
    · simpa [Precision.fracBits] using fracField_lt .single (cvtS x)
    · rw [h3]; push_cast; ring
  · exact .inl ⟨rfl, decompose_sig_zero hx hz⟩

theorem signBit_zero64 : signBit .double zero64 = false := by decide
theorem isZero_zero64 : isZero .double zero64 = true := by decide

theorem decompose_workingSig {x : Binary64} (hx : isFinite .double x = true) : WorkingSig (decompose x).sig := by
  rcases decompose_sig_cases hx with ⟨_, h⟩ | ⟨_, h1, h2, f, hf, h3, _⟩
  · rw [h]; exact ⟨isFinite_zero64, signBit_zero64, by rw [val_zero64]; norm_num⟩
  · refine ⟨h1, h2, ?_⟩
    rw [h3, div_lt_iff₀ (by positivity)]
    have : (2 ^ 23 + f : ℕ) < 2 * 2 ^ 23 := by omega
    exact_mod_cast this

/-- An operand that is zero-valued has the lowest exponent (R123). -/
theorem decompose_exp_zero {x : Binary64} (hx : isFinite .double x = true) (hz : isZero .double x = true) :
    (decompose x).exp = -127 := by
  have h := cvtS_spec hx
  have hm : mag .double x = 0 := (mag_eq_zero_iff _ _).mpr hz
  rw [hm] at h
  have h0 : mag .single (cvtS x) = 0 :=
    RoundsTo.exact (p := .single) (u := (0 : Binary32)) h (by decide) ((mag_eq_zero_iff _ _).mpr (by decide)).symm
      (overflowThreshold_pos _)
  rw [mag_eq_zero_iff] at h0
  unfold isZero at h0
  rw [decompose_exp]; simp at h0; omega

end Sys2Proof.Machine
end

