-- ==== Sys2Proof/Laws/PerInstr.lean ====
section
/-! SUPPORT. What holds of each opcode as syntax: its command word has the `unit` and the `sel` of Table O
(spec/30_encoding.md R60 to R63), `sel[1]` is 0 outside the SIM unit (R62), and the opcode exists in every instance but for
the DEC pair (R65). -/

namespace Sys2Proof.Laws.Fields

/-- The fields of an opcode's command word, and whether `HAS_DEC` decides its existence. -/
def Statement (i : Instr) : Prop :=
  unitField (encode i) = i.unit ∧ selField (encode i) = i.sel ∧
    (i.unit ≠ 0b10#2 → i.sel.getLsbD 1 = false) ∧ (i.wf false = true ↔ i.unit ≠ 0b11#2) ∧ i.wf true = true

theorem encS : Statement .encS := by unfold Statement; decide

theorem encD : Statement .encD := by unfold Statement; decide

theorem splitS : Statement .splitS := by unfold Statement; decide

theorem splitD : Statement .splitD := by unfold Statement; decide

theorem simAdd : Statement .simAdd := by unfold Statement; decide

theorem simSub : Statement .simSub := by unfold Statement; decide

theorem simMul : Statement .simMul := by unfold Statement; decide

theorem simDiv : Statement .simDiv := by unfold Statement; decide

theorem decS : Statement .decS := by unfold Statement; decide

theorem decD : Statement .decD := by unfold Statement; decide

end Sys2Proof.Laws.Fields
end

