-- ==== Sys2Proof/Laws/State.lean ====
section
/-! SUPPORT. One lemma for every field after every shared update, and the cases of the shared operations: later proofs
cite these and never unfold a record update. -/

namespace Sys2Proof.Machine

/-! ### `emit` (spec/10_state.md R30) -/

@[simp] theorem emit_params (op : SimOp) (t : StepPayload) (s : State) : (emit op t s).params = s.params := rfl
@[simp] theorem emit_stage (op : SimOp) (t : StepPayload) (s : State) : (emit op t s).stage = s.stage := rfl
@[simp] theorem emit_log (op : SimOp) (t : StepPayload) (s : State) : (emit op t s).log = s.log ++ [{ title := Config.titleOf t.kind op, payload := t }] := rfl
@[simp] theorem emit_opA (op : SimOp) (t : StepPayload) (s : State) : (emit op t s).opA = s.opA := rfl
@[simp] theorem emit_opB (op : SimOp) (t : StepPayload) (s : State) : (emit op t s).opB = s.opB := rfl
@[simp] theorem emit_sA (op : SimOp) (t : StepPayload) (s : State) : (emit op t s).sA = s.sA := rfl
@[simp] theorem emit_sB (op : SimOp) (t : StepPayload) (s : State) : (emit op t s).sB = s.sB := rfl
@[simp] theorem emit_sigA (op : SimOp) (t : StepPayload) (s : State) : (emit op t s).sigA = s.sigA := rfl
@[simp] theorem emit_sigB (op : SimOp) (t : StepPayload) (s : State) : (emit op t s).sigB = s.sigB := rfl
@[simp] theorem emit_exp (op : SimOp) (t : StepPayload) (s : State) : (emit op t s).exp = s.exp := rfl
@[simp] theorem emit_raw (op : SimOp) (t : StepPayload) (s : State) : (emit op t s).raw = s.raw := rfl
@[simp] theorem emit_sig (op : SimOp) (t : StepPayload) (s : State) : (emit op t s).sig = s.sig := rfl
@[simp] theorem emit_rsgn (op : SimOp) (t : StepPayload) (s : State) : (emit op t s).rsgn = s.rsgn := rfl
@[simp] theorem emit_k (op : SimOp) (t : StepPayload) (s : State) : (emit op t s).k = s.k := rfl
@[simp] theorem emit_req (op : SimOp) (t : StepPayload) (s : State) : (emit op t s).req = s.req := rfl
@[simp] theorem emit_building (op : SimOp) (t : StepPayload) (s : State) : (emit op t s).building = s.building := rfl
@[simp] theorem emit_rsp (op : SimOp) (t : StepPayload) (s : State) : (emit op t s).rsp = s.rsp := rfl
@[simp] theorem emit_host (op : SimOp) (t : StepPayload) (s : State) : (emit op t s).host = s.host := rfl

/-! ### `deliver` (spec/70_reset_and_hazards.md R203) -/

@[simp] theorem deliver_params (r : Response) (s : State) : (deliver r s).params = s.params := rfl
@[simp] theorem deliver_stage (r : Response) (s : State) : (deliver r s).stage = .idle := rfl
@[simp] theorem deliver_log (r : Response) (s : State) : (deliver r s).log = s.log := rfl
@[simp] theorem deliver_opA (r : Response) (s : State) : (deliver r s).opA = s.opA := rfl
@[simp] theorem deliver_opB (r : Response) (s : State) : (deliver r s).opB = s.opB := rfl
@[simp] theorem deliver_sA (r : Response) (s : State) : (deliver r s).sA = s.sA := rfl
@[simp] theorem deliver_sB (r : Response) (s : State) : (deliver r s).sB = s.sB := rfl
@[simp] theorem deliver_sigA (r : Response) (s : State) : (deliver r s).sigA = s.sigA := rfl
@[simp] theorem deliver_sigB (r : Response) (s : State) : (deliver r s).sigB = s.sigB := rfl
@[simp] theorem deliver_exp (r : Response) (s : State) : (deliver r s).exp = s.exp := rfl
@[simp] theorem deliver_raw (r : Response) (s : State) : (deliver r s).raw = s.raw := rfl
@[simp] theorem deliver_sig (r : Response) (s : State) : (deliver r s).sig = s.sig := rfl
@[simp] theorem deliver_rsgn (r : Response) (s : State) : (deliver r s).rsgn = s.rsgn := rfl
@[simp] theorem deliver_k (r : Response) (s : State) : (deliver r s).k = s.k := rfl
@[simp] theorem deliver_req (r : Response) (s : State) : (deliver r s).req = s.req := rfl
@[simp] theorem deliver_building (r : Response) (s : State) : (deliver r s).building = none := rfl
@[simp] theorem deliver_rsp (r : Response) (s : State) : (deliver r s).rsp = some r := rfl
@[simp] theorem deliver_host (r : Response) (s : State) : (deliver r s).host = s.host := rfl

/-! ### `raise` (spec/60_exceptions.md R187) -/

@[simp] theorem raise_params (c : Status) (w : Option OperandName) (s : State) : (raise c w s).params = s.params := rfl
@[simp] theorem raise_stage (c : Status) (w : Option OperandName) (s : State) : (raise c w s).stage = .idle := rfl
@[simp] theorem raise_log (c : Status) (w : Option OperandName) (s : State) : (raise c w s).log = s.log := rfl
@[simp] theorem raise_opA (c : Status) (w : Option OperandName) (s : State) : (raise c w s).opA = s.opA := rfl
@[simp] theorem raise_opB (c : Status) (w : Option OperandName) (s : State) : (raise c w s).opB = s.opB := rfl
@[simp] theorem raise_sA (c : Status) (w : Option OperandName) (s : State) : (raise c w s).sA = s.sA := rfl
@[simp] theorem raise_sB (c : Status) (w : Option OperandName) (s : State) : (raise c w s).sB = s.sB := rfl
@[simp] theorem raise_sigA (c : Status) (w : Option OperandName) (s : State) : (raise c w s).sigA = s.sigA := rfl
@[simp] theorem raise_sigB (c : Status) (w : Option OperandName) (s : State) : (raise c w s).sigB = s.sigB := rfl
@[simp] theorem raise_exp (c : Status) (w : Option OperandName) (s : State) : (raise c w s).exp = s.exp := rfl
@[simp] theorem raise_raw (c : Status) (w : Option OperandName) (s : State) : (raise c w s).raw = s.raw := rfl
@[simp] theorem raise_sig (c : Status) (w : Option OperandName) (s : State) : (raise c w s).sig = s.sig := rfl
@[simp] theorem raise_rsgn (c : Status) (w : Option OperandName) (s : State) : (raise c w s).rsgn = s.rsgn := rfl
@[simp] theorem raise_k (c : Status) (w : Option OperandName) (s : State) : (raise c w s).k = s.k := rfl
@[simp] theorem raise_req (c : Status) (w : Option OperandName) (s : State) : (raise c w s).req = s.req := rfl
@[simp] theorem raise_building (c : Status) (w : Option OperandName) (s : State) : (raise c w s).building = none := rfl
@[simp] theorem raise_rsp (c : Status) (w : Option OperandName) (s : State) : (raise c w s).rsp = some { status := c, info := w } := rfl
@[simp] theorem raise_host (c : Status) (w : Option OperandName) (s : State) : (raise c w s).host = s.host := rfl

/-! ### The entry check's end (spec/41_simulator.md R120) -/

@[simp] theorem simEntry_params (s : State) : (simEntry s).params = s.params := rfl
@[simp] theorem simEntry_stage (s : State) : (simEntry s).stage = .extract := rfl
@[simp] theorem simEntry_log (s : State) : (simEntry s).log = [] := rfl
@[simp] theorem simEntry_opA (s : State) : (simEntry s).opA = s.opA := rfl
@[simp] theorem simEntry_opB (s : State) : (simEntry s).opB = s.opB := rfl
@[simp] theorem simEntry_sA (s : State) : (simEntry s).sA = s.sA := rfl
@[simp] theorem simEntry_sB (s : State) : (simEntry s).sB = s.sB := rfl
@[simp] theorem simEntry_sigA (s : State) : (simEntry s).sigA = s.sigA := rfl
@[simp] theorem simEntry_sigB (s : State) : (simEntry s).sigB = s.sigB := rfl
@[simp] theorem simEntry_exp (s : State) : (simEntry s).exp = s.exp := rfl
@[simp] theorem simEntry_raw (s : State) : (simEntry s).raw = s.raw := rfl
@[simp] theorem simEntry_sig (s : State) : (simEntry s).sig = s.sig := rfl
@[simp] theorem simEntry_rsgn (s : State) : (simEntry s).rsgn = s.rsgn := rfl
@[simp] theorem simEntry_k (s : State) : (simEntry s).k = s.k := rfl
@[simp] theorem simEntry_req (s : State) : (simEntry s).req = s.req := rfl
@[simp] theorem simEntry_building (s : State) : (simEntry s).building = s.building := rfl
@[simp] theorem simEntry_rsp (s : State) : (simEntry s).rsp = s.rsp := rfl
@[simp] theorem simEntry_host (s : State) : (simEntry s).host = s.host := rfl

/-! ### DONE (spec/41_simulator.md R140) -/

@[simp] theorem deliverBuilt_params (s : State) : (deliverBuilt s).params = s.params := rfl
@[simp] theorem deliverBuilt_stage (s : State) : (deliverBuilt s).stage = .idle := rfl
@[simp] theorem deliverBuilt_log (s : State) : (deliverBuilt s).log = s.log := rfl
@[simp] theorem deliverBuilt_opA (s : State) : (deliverBuilt s).opA = s.opA := rfl
@[simp] theorem deliverBuilt_opB (s : State) : (deliverBuilt s).opB = s.opB := rfl
@[simp] theorem deliverBuilt_sA (s : State) : (deliverBuilt s).sA = s.sA := rfl
@[simp] theorem deliverBuilt_sB (s : State) : (deliverBuilt s).sB = s.sB := rfl
@[simp] theorem deliverBuilt_sigA (s : State) : (deliverBuilt s).sigA = s.sigA := rfl
@[simp] theorem deliverBuilt_sigB (s : State) : (deliverBuilt s).sigB = s.sigB := rfl
@[simp] theorem deliverBuilt_exp (s : State) : (deliverBuilt s).exp = s.exp := rfl
@[simp] theorem deliverBuilt_raw (s : State) : (deliverBuilt s).raw = s.raw := rfl
@[simp] theorem deliverBuilt_sig (s : State) : (deliverBuilt s).sig = s.sig := rfl
@[simp] theorem deliverBuilt_rsgn (s : State) : (deliverBuilt s).rsgn = s.rsgn := rfl
@[simp] theorem deliverBuilt_k (s : State) : (deliverBuilt s).k = s.k := rfl
@[simp] theorem deliverBuilt_req (s : State) : (deliverBuilt s).req = s.req := rfl
@[simp] theorem deliverBuilt_building (s : State) : (deliverBuilt s).building = none := rfl
@[simp] theorem deliverBuilt_rsp (s : State) : (deliverBuilt s).rsp = s.building := rfl
@[simp] theorem deliverBuilt_host (s : State) : (deliverBuilt s).host = s.host := rfl

/-! ### Reset (spec/70_reset_and_hazards.md R200) -/

@[simp] theorem blockReset_params (s : State) : (blockReset s).params = s.params := rfl
@[simp] theorem blockReset_stage (s : State) : (blockReset s).stage = State.reset.stage := rfl
@[simp] theorem blockReset_log (s : State) : (blockReset s).log = State.reset.log := rfl
@[simp] theorem blockReset_opA (s : State) : (blockReset s).opA = State.reset.opA := rfl
@[simp] theorem blockReset_opB (s : State) : (blockReset s).opB = State.reset.opB := rfl
@[simp] theorem blockReset_sA (s : State) : (blockReset s).sA = State.reset.sA := rfl
@[simp] theorem blockReset_sB (s : State) : (blockReset s).sB = State.reset.sB := rfl
@[simp] theorem blockReset_sigA (s : State) : (blockReset s).sigA = State.reset.sigA := rfl
@[simp] theorem blockReset_sigB (s : State) : (blockReset s).sigB = State.reset.sigB := rfl
@[simp] theorem blockReset_exp (s : State) : (blockReset s).exp = State.reset.exp := rfl
@[simp] theorem blockReset_raw (s : State) : (blockReset s).raw = State.reset.raw := rfl
@[simp] theorem blockReset_sig (s : State) : (blockReset s).sig = State.reset.sig := rfl
@[simp] theorem blockReset_rsgn (s : State) : (blockReset s).rsgn = State.reset.rsgn := rfl
@[simp] theorem blockReset_k (s : State) : (blockReset s).k = State.reset.k := rfl
@[simp] theorem blockReset_req (s : State) : (blockReset s).req = State.reset.req := rfl
@[simp] theorem blockReset_building (s : State) : (blockReset s).building = State.reset.building := rfl
@[simp] theorem blockReset_rsp (s : State) : (blockReset s).rsp = State.reset.rsp := rfl
@[simp] theorem blockReset_host (s : State) : (blockReset s).host = s.host := rfl
/-! ### What the host does next (spec/70_reset_and_hazards.md R206) -/

theorem poll_reset {s : State} {rest : List HostEvent} (h : s.host = .reset :: rest) :
    poll s = .reset { s with host := rest } := by
  unfold poll; rw [h]

theorem poll_serve {s : State} {r : Request} {rest : List HostEvent} (hs : s.stage = .idle)
    (h : s.host = .request r :: rest) : poll s = .serve { s with req := r, host := rest } := by
  unfold poll; rw [h, hs]

theorem poll_wait {s : State} (hs : s.stage = .idle) (h : s.host = []) : poll s = .wait := by
  unfold poll; rw [h, hs]

theorem poll_advance {s : State} (hs : s.stage ≠ .idle) (h : ∀ rest, s.host ≠ .reset :: rest) : poll s = .advance := by
  unfold poll
  split
  · next rest hr => exact absurd hr (h rest)
  · next hi => exact absurd hi hs
  · next hi => exact absurd hi hs
  · rfl

/-- Everything `poll` can say. -/
theorem poll_cases (s : State) :
    (∃ rest, s.host = .reset :: rest ∧ poll s = .reset { s with host := rest }) ∨
    (∃ r rest, s.stage = .idle ∧ s.host = .request r :: rest ∧ poll s = .serve { s with req := r, host := rest }) ∨
    (s.stage = .idle ∧ s.host = [] ∧ poll s = .wait) ∨
    (s.stage ≠ .idle ∧ (∀ rest, s.host ≠ .reset :: rest) ∧ poll s = .advance) := by
  rcases hh : s.host with _ | ⟨e, rest⟩
  · by_cases hs : s.stage = .idle
    · exact .inr (.inr (.inl ⟨hs, rfl, poll_wait hs hh⟩))
    · exact .inr (.inr (.inr ⟨hs, by simp, poll_advance hs (by simp [hh])⟩))
  · cases e with
    | reset => exact .inl ⟨rest, rfl, poll_reset hh⟩
    | request r =>
      by_cases hs : s.stage = .idle
      · exact .inr (.inl ⟨r, rest, hs, rfl, poll_serve hs hh⟩)
      · exact .inr (.inr (.inr ⟨hs, by simp, poll_advance hs (by simp [hh])⟩))

/-! ### The whole-request operations answer a next state -/

/-- The state an opcode leaves. -/
def execState (i : Instr) (s : State) : State :=
  match i with
  | .encS => deliver (patternResponse (encSinglePattern s.params.nanMode s.req.a)) s
  | .encD => deliver (patternResponse (encDoublePattern s.params.nanMode s.req.a)) s
  | .splitS => deliver (fieldsResponse (splitFields s.req.bits 8 23 127)) s
  | .splitD => deliver (fieldsResponse (splitFields s.req.bits 11 52 1023)) s
  | .simAdd => simulate .add s
  | .simSub => simulate .sub s
  | .simMul => simulate .mul s
  | .simDiv => simulate .div s
  | .decS =>
    if validPattern s.req.bits 32 then deliver (valueResponse (widen (bitsOf 32 s.req.bits))) s else raise .badPattern none s
  | .decD =>
    if validPattern s.req.bits 64 then deliver (valueResponse (bitsOf 64 s.req.bits)) s else raise .badPattern none s

/-- Every opcode ends in a next state, from every state. -/
theorem exec_eq_next (i : Instr) (s : State) : exec i s = .next (execState i s) := by
  cases i <;> first
    | rfl
    | (simp only [exec, execDecS, execDecD, execState]; split <;> rfl)

/-- A SIM opcode, by its operation. -/
theorem exec_ofSimOp (op : SimOp) (s : State) : exec (Instr.ofSimOp op) s = .next (simulate op s) := by
  cases op <;> rfl

/-- On finite operands the stages run. -/
theorem simulate_finite {op : SimOp} {s : State} (ha : isFinite .double s.req.a = true)
    (hb : isFinite .double s.req.b = true) : simulate op s = runStages op s := by
  unfold simulate nonfiniteOperand; rw [ha, hb]; rfl

/-- Everything a step can do. -/
theorem step_cases (s : State) :
    (∃ rest, s.host = .reset :: rest ∧ step s = .next (blockReset { s with host := rest })) ∨
    (∃ r rest i, s.stage = .idle ∧ s.host = .request r :: rest ∧ decode s.params.hasDec r.cmd = .ok i ∧
      step s = .next (execState i { s with req := r, host := rest })) ∨
    (∃ r rest e, s.stage = .idle ∧ s.host = .request r :: rest ∧ decode s.params.hasDec r.cmd = .error e ∧
      step s = .next (illegalCommand { s with req := r, host := rest })) ∨
    (s.stage = .idle ∧ s.host = [] ∧ step s = .next s) ∨
    (s.stage ≠ .idle ∧ stageDefined s = true ∧ step s = .next (advance s)) ∨
    (s.stage ≠ .idle ∧ stageDefined s = false ∧ step s = .refused .unreachableStage) := by
  rcases poll_cases s with ⟨rest, h, hp⟩ | ⟨r, rest, hs, h, hp⟩ | ⟨hs, h, hp⟩ | ⟨hs, h, hp⟩
  · exact .inl ⟨rest, h, by unfold step; rw [hp]⟩
  · cases hd : decode s.params.hasDec r.cmd with
    | ok i => exact .inr (.inl ⟨r, rest, i, hs, h, hd, by unfold step; rw [hp]; dsimp only; rw [hd]; exact exec_eq_next i _⟩)
    | error e => exact .inr (.inr (.inl ⟨r, rest, e, hs, h, hd, by unfold step; rw [hp]; dsimp only; rw [hd]⟩))
  · exact .inr (.inr (.inr (.inl ⟨hs, h, by unfold step; rw [hp]⟩)))
  · cases hd : stageDefined s with
    | true => exact .inr (.inr (.inr (.inr (.inl ⟨hs, rfl, by unfold step; rw [hp]; simp [hd]⟩))))
    | false => exact .inr (.inr (.inr (.inr (.inr ⟨hs, rfl, by unfold step; rw [hp]; simp [hd]⟩))))

end Sys2Proof.Machine
end

