-- ==== Sys2Proof/Laws/Stages.lean ====
section
/-! SUPPORT. The transitions of a SIM request (spec/41_simulator.md R121), from every state: what each leaves alone, the one
record it appends, and where it leads. -/

namespace Sys2Proof.Machine

/-- What the transitions before DONE leave alone, and that they append one record. -/
structure StageFrame (s t : State) : Prop where
  params : t.params = s.params
  req : t.req = s.req
  host : t.host = s.host
  rsp : t.rsp = s.rsp
  log : ∃ st, t.log = s.log ++ [st]

/-! ### Extract -/

theorem extract_frame (op : SimOp) (s : State) : StageFrame s (extract op s) := ⟨rfl, rfl, rfl, rfl, _, rfl⟩

/-! ### Align, AlignNone, ExpCalc -/

/-- What stage 2 does to the registers no rule of R127 to R130 names, and the record it appends. -/
structure CombineFrame (op : SimOp) (s t : State) : Prop extends StageFrame s t where
  stage : t.stage = .compute
  building : t.building = s.building
  sA : t.sA = s.sA
  sB : t.sB = s.sB
  signA : t.opA.sgn = s.opA.sgn
  signB : t.opB.sgn = s.opB.sgn
  kind : ∃ st, t.log = s.log ++ [st] ∧ st.kind ∈ stage2Kinds op

theorem alignStage_frame (op : SimOp) (h : stage2Kinds op = [.align, .alignNone]) (s : State) :
    CombineFrame op s (alignStage op s) := by
  unfold alignStage alignShift alignNone
  dsimp only
  split <;> [split; skip]
  all_goals
    exact ⟨⟨rfl, rfl, rfl, rfl, _, rfl⟩, rfl, rfl, rfl, rfl, rfl, rfl, _, rfl, by
      rw [h]; simp [SimulationStep.kind, StepPayload.kind]⟩

theorem combineExponents_frame (op : SimOp) (s : State) : CombineFrame op s (combineExponents op s) := by
  cases op with
  | add => exact alignStage_frame .add rfl s
  | sub => exact alignStage_frame .sub rfl s
  | mul =>
    exact ⟨⟨rfl, rfl, rfl, rfl, _, rfl⟩, rfl, rfl, rfl, rfl, rfl, rfl, _, rfl, by
      simp [SimulationStep.kind, StepPayload.kind, stage2Kinds]⟩
  | div =>
    exact ⟨⟨rfl, rfl, rfl, rfl, _, rfl⟩, rfl, rfl, rfl, rfl, rfl, rfl, _, rfl, by
      simp [SimulationStep.kind, StepPayload.kind, stage2Kinds]⟩

/-! ### Compute -/

/-- What Compute does to the registers no rule of R131 to R133 names, and the record it appends. -/
structure ComputeFrame (s t : State) : Prop extends StageFrame s t where
  stage : t.stage = .normalize
  building : t.building = s.building
  opA : t.opA = s.opA
  opB : t.opB = s.opB
  sigA : t.sigA = s.sigA
  sigB : t.sigB = s.sigB
  exp : t.exp = s.exp
  record : ∃ op lhs rhs title, t.log = s.log ++ [{ title := title, payload := .compute op lhs rhs t.raw t.rsgn t.sig s.exp }]

theorem computeStage_frame (op : SimOp) (s : State) : ComputeFrame s (computeStage op s) := by
  cases op <;> exact ⟨⟨rfl, rfl, rfl, rfl, _, rfl⟩, rfl, rfl, rfl, rfl, rfl, rfl, rfl, _, _, _, _, rfl⟩

theorem computeStage_kind (op : SimOp) (s : State) :
    ∃ st, (computeStage op s).log = s.log ++ [st] ∧ st.kind = .compute := by
  obtain ⟨o, l, r, title, h⟩ := (computeStage_frame op s).record
  exact ⟨_, h, rfl⟩

/-! ### Normalize -/

/-- What Normalize does to the registers no rule of R134 to R137 names. -/
structure NormalizeFrame (s t : State) : Prop extends StageFrame s t where
  opA : t.opA = s.opA
  opB : t.opB = s.opB
  sigA : t.sigA = s.sigA
  sigB : t.sigB = s.sigB
  raw : t.raw = s.raw
  rsgn : t.rsgn = s.rsgn

theorem normalizeStage_frame (op : SimOp) (s : State) : NormalizeFrame s (normalizeStage op s) := by
  unfold normalizeStage
  split <;> [skip; (split <;> [skip; split])] <;>
    exact ⟨⟨rfl, rfl, rfl, rfl, _, rfl⟩, rfl, rfl, rfl, rfl, rfl, rfl⟩

/-- The two ways out of Normalize: the zero exit, and Final (R134 to R137). -/
theorem normalizeStage_exits (op : SimOp) (s : State) :
    ((feq s.sig zero64 || isNaN .double s.sig) = true ∧ normalizeStage op s = finishZero op s) ∨
    ((feq s.sig zero64 || isNaN .double s.sig) = false ∧ (normalizeStage op s).stage = .final ∧
      (normalizeStage op s).building = s.building ∧
      ∃ st, (normalizeStage op s).log = s.log ++ [st] ∧ (st.kind = .normalize ∨ st.kind = .normalizeNone)) := by
  unfold normalizeStage
  split
  · next h => exact .inl ⟨h, rfl⟩
  · next h =>
    rw [Bool.not_eq_true] at h
    refine .inr ⟨h, ?_⟩
    split <;> [skip; split]
    · exact ⟨rfl, rfl, _, rfl, .inl rfl⟩
    · exact ⟨rfl, rfl, _, rfl, .inl rfl⟩
    · exact ⟨rfl, rfl, _, rfl, .inr rfl⟩

/-! ### Final -/

theorem finalStage_frame (op : SimOp) (s : State) : NormalizeFrame s (finalStage op s) :=
  ⟨⟨rfl, rfl, rfl, rfl, _, rfl⟩, rfl, rfl, rfl, rfl, rfl, rfl⟩

theorem finalUnlessDone_of_done {op : SimOp} {s : State} (h : s.stage = .done) : finalUnlessDone op s = s := if_pos h

theorem finalUnlessDone_of_final {op : SimOp} {s : State} (h : s.stage = .final) :
    finalUnlessDone op s = finalStage op s := if_neg (by rw [h]; decide)

/-! ### One transition at a time -/

theorem advance_extract {s : State} (h : s.stage = .extract) : advance s = extract (currentOp s) s := by
  unfold advance stageStep; rw [h]

theorem advance_align {s : State} (h : s.stage = .align) : advance s = combineExponents (currentOp s) s := by
  unfold advance stageStep; rw [h]

theorem advance_compute {s : State} (h : s.stage = .compute) : advance s = computeStage (currentOp s) s := by
  unfold advance stageStep; rw [h]

theorem advance_normalize {s : State} (h : s.stage = .normalize) : advance s = normalizeStage (currentOp s) s := by
  unfold advance stageStep; rw [h]

theorem advance_final {s : State} (h : s.stage = .final) : advance s = finalStage (currentOp s) s := by
  unfold advance stageStep; rw [h]

theorem advance_done {s : State} (h : s.stage = .done) : advance s = deliverBuilt s := by
  unfold advance stageStep; rw [h]

/-! ### Step sequences (R148) -/

theorem kinds_snoc (l : List SimulationStep) (st : SimulationStep) : kinds (l ++ [st]) = kinds l ++ [st.kind] := by
  simp [kinds]

theorem path_compute {op : SimOp} {l : List StepKind} (h : l ∈ partialPaths op .align) {k : StepKind}
    (hk : k ∈ stage2Kinds op) : l ++ [k] ∈ partialPaths op .compute := by
  simp [partialPaths] at h ⊢; subst h; exact ⟨k, hk, rfl⟩

theorem path_normalize {op : SimOp} {l : List StepKind} (h : l ∈ partialPaths op .compute) :
    l ++ [.compute] ∈ partialPaths op .normalize := by
  simp [partialPaths] at h ⊢; obtain ⟨k, hk, rfl⟩ := h; exact ⟨k, hk, rfl⟩

theorem path_final {op : SimOp} {l : List StepKind} (h : l ∈ partialPaths op .normalize) {k : StepKind}
    (hk : k = .normalize ∨ k = .normalizeNone) : l ++ [k] ∈ partialPaths op .final := by
  simp [partialPaths] at h ⊢
  obtain ⟨k', hk', rfl⟩ := h
  exact ⟨k', hk', by rcases hk with rfl | rfl <;> simp⟩

theorem path_zero {op : SimOp} {l : List StepKind} (h : l ∈ partialPaths op .normalize) :
    l ++ [.finishZero] ∈ zeroPaths op := by
  simp [partialPaths, zeroPaths] at h ⊢; obtain ⟨k', hk', rfl⟩ := h; exact ⟨k', hk', rfl⟩

theorem path_normal {op : SimOp} {l : List StepKind} (h : l ∈ partialPaths op .final) :
    l ++ [.final] ∈ normalPaths op := by
  simp [partialPaths, normalPaths] at h ⊢; obtain ⟨k', hk', rfl | rfl⟩ := h <;> exact ⟨k', hk', by simp⟩

end Sys2Proof.Machine
end

