-- ==== Sys2Proof/Laws/Responses.lean ====
section
/-! SUPPORT. What the stages of a SIM request read (spec/00_scope.md R21; spec/30_encoding.md R64): two blocks that serve
the same operands agree, stage by stage, on everything a later stage reads. -/

namespace Sys2Proof.Machine

/-- Two blocks with the same operands and the same registers that Extract writes. -/
structure SameOperands (s u : State) : Prop where
  a : s.req.a = u.req.a
  b : s.req.b = u.req.b
  log : s.log = u.log
  opA : s.opA = u.opA
  opB : s.opB = u.opB
  sA : s.sA = u.sA
  sB : s.sB = u.sB
  sigA : s.sigA = u.sigA
  sigB : s.sigB = u.sigB

theorem extract_same (op : SimOp) {s u : State} (ha : s.req.a = u.req.a) (hb : s.req.b = u.req.b) :
    SameOperands (extract op (simEntry s)) (extract op (simEntry u)) := by
  refine ⟨ha, hb, ?_, ?_, ?_, ?_, ?_, ?_, ?_⟩ <;> simp [extract, ha, hb]

theorem alignStage_same (op : SimOp) {s u : State} (h : SameOperands s u) :
    SameOperands (alignStage op s) (alignStage op u) ∧ (alignStage op s).exp = (alignStage op u).exp := by
  obtain ⟨h1, h2, h3, h4, h5, h6, h7, h8, h9⟩ := h
  unfold alignStage alignShift alignNone alignDiff
  dsimp only
  rw [h4, h5]
  split <;> [split; skip]
  all_goals refine ⟨⟨h1, h2, ?_, ?_, ?_, h6, h7, ?_, ?_⟩, ?_⟩ <;> simp [*]

theorem combineExponents_same (op : SimOp) {s u : State} (h : SameOperands s u) :
    SameOperands (combineExponents op s) (combineExponents op u) ∧
      (combineExponents op s).exp = (combineExponents op u).exp := by
  cases op with
  | add => exact alignStage_same .add h
  | sub => exact alignStage_same .sub h
  | mul =>
    obtain ⟨h1, h2, h3, h4, h5, h6, h7, h8, h9⟩ := h
    refine ⟨⟨h1, h2, ?_, h4, h5, h6, h7, h8, h9⟩, ?_⟩ <;> simp [combineExponents, expCalcMul, *]
  | div =>
    obtain ⟨h1, h2, h3, h4, h5, h6, h7, h8, h9⟩ := h
    refine ⟨⟨h1, h2, ?_, h4, h5, h6, h7, h8, h9⟩, ?_⟩ <;> simp [combineExponents, expCalcDiv, *]

/-- Two blocks that agree on what Normalize and Final read. -/
structure SameResult (s u : State) : Prop where
  a : s.req.a = u.req.a
  b : s.req.b = u.req.b
  log : s.log = u.log
  exp : s.exp = u.exp
  sig : s.sig = u.sig
  rsgn : s.rsgn = u.rsgn

theorem computeStage_same (op : SimOp) {s u : State} (h : SameOperands s u) (he : s.exp = u.exp) :
    SameResult (computeStage op s) (computeStage op u) := by
  obtain ⟨h1, h2, h3, h4, h5, h6, h7, h8, h9⟩ := h
  cases op <;> refine ⟨h1, h2, ?_, he, ?_, ?_⟩ <;> simp [computeStage, computeAddSub, computeMul, computeDiv, *]

theorem finalStage_same (op : SimOp) {s u : State} (hs : s.stage = .final) (hu : u.stage = .final) (h : SameResult s u) :
    (finalUnlessDone op s).building = (finalUnlessDone op u).building := by
  obtain ⟨h1, h2, h3, h4, h5, h6⟩ := h
  rw [finalUnlessDone_of_final hs, finalUnlessDone_of_final hu]
  simp [finalStage, *]

theorem normalizeStage_same (op : SimOp) {s u : State} (h : SameResult s u) :
    (finalUnlessDone op (normalizeStage op s)).building = (finalUnlessDone op (normalizeStage op u)).building := by
  obtain ⟨h1, h2, h3, h4, h5, h6⟩ := h
  unfold normalizeStage
  rw [h5]
  split
  · rw [finalUnlessDone_of_done rfl, finalUnlessDone_of_done rfl]; simp [finishZero, h3]
  · split <;> [skip; split]
    · refine finalStage_same op rfl rfl ⟨h1, h2, ?_, ?_, ?_, h6⟩ <;> simp [normalizeOverflow, *]
    · refine finalStage_same op rfl rfl ⟨h1, h2, ?_, ?_, ?_, h6⟩ <;> simp [normalizeUnderflow, *]
    · refine finalStage_same op rfl rfl ⟨h1, h2, ?_, ?_, ?_, h6⟩ <;> simp [normalizeNone, *]

/-- The response of a SIM opcode is a function of the two operands. -/
theorem simulate_rsp_eq (op : SimOp) {s u : State} (ha : s.req.a = u.req.a) (hb : s.req.b = u.req.b) :
    (simulate op s).rsp = (simulate op u).rsp := by
  have h : nonfiniteOperand s.req = nonfiniteOperand u.req := by unfold nonfiniteOperand; rw [ha, hb]
  unfold simulate
  rw [h]
  split
  · rfl
  · have ⟨h1, h2⟩ := combineExponents_same op (extract_same op ha hb)
    exact normalizeStage_same op (computeStage_same op h1 h2)

/-- A SIM opcode always delivers a response. -/
theorem simulate_rsp_ne_none (op : SimOp) (s : State) : (simulate op s).rsp ≠ none := by
  unfold simulate
  split
  · exact Option.some_ne_none _
  · show (finalUnlessDone op (normalizeStage op _)).building ≠ none
    generalize computeStage op _ = z
    rcases normalizeStage_exits op z with ⟨_, e⟩ | ⟨_, e, _⟩
    · rw [e, finalUnlessDone_of_done rfl]; exact Option.some_ne_none _
    · rw [finalUnlessDone_of_final e]; exact Option.some_ne_none _

end Sys2Proof.Machine
end

