-- ==== Sys2Proof/Laws/Simulator.lean ====
section
/-! SUPPORT. What each stage of the Simulator can do to a datapath in range (spec/41_simulator.md R127 to R137, R145 to R147). -/

namespace Sys2Proof.Machine

/-- The significand of an operand as a multiple of `2^-23`: zero, or at least 1 (R146). -/
theorem decompose_sig_int {x : Binary64} (hx : isFinite .double x = true) :
    ∃ i : ℕ, i < 2 ^ 24 ∧ val .double (decompose x).sig = (i : ℚ) / 2 ^ 23 ∧ (i = 0 ∨ 2 ^ 23 ≤ i) ∧
      (isZero .double x = false → 2 ^ 23 ≤ i) ∧ ((decompose x).exp = 128 → i ≤ 2 ^ 23) := by
  rcases decompose_sig_cases hx with ⟨hz, h⟩ | ⟨hz, _, _, f, hf, h3, h4⟩
  · exact ⟨0, by norm_num, by rw [h, val_zero64]; simp, .inl rfl, by rw [hz]; intro h; exact absurd h (by decide),
      fun _ => by norm_num⟩
  · exact ⟨2 ^ 23 + f, by omega, h3, .inr (by omega), fun _ => by omega, fun h => by have := h4 h; omega⟩

theorem lastPlace_of_one_le {x : Binary64} (hs : signBit .double x = false) (h : 1 ≤ val .double x) :
    -52 ≤ lastPlace .double x := by
  have := lastPlace_ge (x := x) (k := 0) (by rw [mag_eq_val hs]; simpa using h)
  simpa using this

/-- Aligning an operand's significand is exact (R127, R146). -/
theorem shifted_spec {x : Binary64} (hx : isFinite .double x = true) {k : ℕ} (hk : k ≤ 255) :
    WorkingSig (fdiv (decompose x).sig (pow64 k)) ∧
      val .double (fdiv (decompose x).sig (pow64 k)) = val .double (decompose x).sig / 2 ^ k := by
  obtain ⟨w1, w2, w3⟩ := decompose_workingSig hx
  have hp : isZero .double (decompose x).sig = false → (-1074 : ℤ) ≤ lastPlace .double (decompose x).sig - k := by
    intro hz
    have h1 : 1 ≤ val .double (decompose x).sig := by
      obtain ⟨i, _, h, h0, _, _⟩ := decompose_sig_int hx
      rcases h0 with rfl | h0
      · rw [Nat.cast_zero, zero_div, val_eq_zero_iff, hz] at h; exact absurd h (by decide)
      · rw [h, le_div_iff₀ (by positivity), one_mul]; exact_mod_cast h0
    have := lastPlace_of_one_le w2 h1
    omega
  obtain ⟨h1, h2, h3⟩ := fdiv_pow64 w1 (k := k) (by omega) hp
  refine ⟨⟨h1, h2.trans w2, ?_⟩, h3⟩
  rw [h3]
  exact lt_of_le_of_lt (div_le_self (val_nonneg w2) (one_le_pow₀ (by norm_num))) w3

theorem AlignedPair.symm {x y : Binary64} (h : AlignedPair x y) : AlignedPair y x := by
  obtain ⟨h1, h2, h3, h4⟩ := h
  refine ⟨h2, h1, fun h => ?_, fun h => ?_⟩
  · rw [abs_sub_comm]; exact h3 (Ne.symm h)
  · have := h4 h.symm; rwa [h.symm] at this

/-- Equal exponents: both significands are multiples of `2^-23` (R147). -/
theorem alignedPair_equal {x y : Binary64} (hx : isFinite .double x = true) (hy : isFinite .double y = true) :
    AlignedPair (decompose x).sig (decompose y).sig := by
  obtain ⟨i, _, hi, i0, _, _⟩ := decompose_sig_int hx
  obtain ⟨j, _, hj, _, _, _⟩ := decompose_sig_int hy
  refine ⟨decompose_workingSig hx, decompose_workingSig hy, fun h => ?_, fun h => ?_⟩
  · rw [hi, hj] at h ⊢
    have hne : (i : ℤ) - j ≠ 0 := by
      intro h0; apply h
      have : i = j := by omega
      rw [this]
    have h1 : (1 : ℚ) ≤ |(i : ℚ) - j| := by
      have : (1 : ℤ) ≤ |(i : ℤ) - j| := Int.one_le_abs hne
      exact_mod_cast this
    rw [← sub_div, abs_div, abs_of_pos (by positivity : (0 : ℚ) < 2 ^ 23), le_div_iff₀ (by positivity)]
    have : (2 : ℚ) ^ (-24 : ℤ) * 2 ^ 23 ≤ 1 := by rw [zpow_neg]; norm_num
    linarith
  · rw [hi]
    rcases i0 with rfl | h0
    · left; simp
    · right; rw [le_div_iff₀ (by positivity), one_mul]; exact_mod_cast h0

/-- One significand shifted by at least one place against one that is at least 1 (R147). -/
theorem alignedPair_shifted {x y : Binary64} (hx : isFinite .double x = true) (hy : isFinite .double y = true)
    (hz : isZero .double y = false) {k : ℕ} (h1 : 1 ≤ k) (hk : k ≤ 255) :
    AlignedPair (fdiv (decompose x).sig (pow64 k)) (decompose y).sig := by
  obtain ⟨i, hi', hi, _, _, _⟩ := decompose_sig_int hx
  obtain ⟨j, _, hj, _, j1, _⟩ := decompose_sig_int hy
  obtain ⟨w, hv⟩ := shifted_spec hx hk
  have hgap : (2 : ℚ) ^ (-24 : ℤ) ≤ val .double (decompose y).sig - val .double (fdiv (decompose x).sig (pow64 k)) := by
    rw [hv, hi, hj]
    have hk2 : (2 : ℚ) ≤ 2 ^ k := by
      calc (2 : ℚ) = 2 ^ 1 := by norm_num
        _ ≤ 2 ^ k := pow_le_pow_right₀ (by norm_num) h1
    have h2 : (i : ℚ) / 2 ^ 23 / 2 ^ k ≤ (i : ℚ) / 2 ^ 23 / 2 := by gcongr
    have h3 : (i : ℚ) + 1 ≤ 2 * j := by
      have := j1 hz
      have : i + 1 ≤ 2 * j := by omega
      exact_mod_cast this
    have h4 : (2 : ℚ) ^ (-24 : ℤ) = 1 / 2 ^ 24 := by rw [zpow_neg]; norm_num
    rw [h4]
    have h5 : (i : ℚ) / 2 ^ 23 / 2 = i / 2 ^ 24 := by rw [div_div]; norm_num
    have h6 : (j : ℚ) / 2 ^ 23 = 2 * j / 2 ^ 24 := by rw [div_eq_div_iff (by positivity) (by positivity)]; ring
    rw [h5] at h2
    have h7 : (1 : ℚ) / 2 ^ 24 ≤ (2 * j - i) / 2 ^ 24 := by gcongr; linarith
    rw [sub_div] at h7
    linarith
  have hpos : (0 : ℚ) < 2 ^ (-24 : ℤ) := two_zpow_pos _
  refine ⟨w, decompose_workingSig hy, fun _ => ?_, fun h => ?_⟩
  · rw [abs_sub_comm]; exact le_trans hgap (le_abs_self _)
  · rw [h, sub_self] at hgap; linarith

/-! ### Compute (R131 to R133) -/

theorem SignFactor.val {s : Binary64} (h : SignFactor s) :
    isFinite .double s = true ∧ mag .double s = 1 ∧ (val .double s = 1 ∨ val .double s = -1) := by
  rcases h with rfl | rfl
  · exact ⟨isFinite_one64, by rw [← abs_val, val_one64]; simp, .inl val_one64⟩
  · exact ⟨isFinite_negOne64, by rw [← abs_val, val_negOne64]; simp, .inr val_negOne64⟩

/-- Multiplying by a sign factor is exact (R146). -/
theorem fmul_signFactor {x s : Binary64} (hx : isFinite .double x = true) (hs : SignFactor s) :
    isFinite .double (fmul x s) = true ∧ val .double (fmul x s) = val .double x * val .double s := by
  obtain ⟨s1, s2, s3⟩ := hs.val
  have hr := fmul_spec hx s1
  rw [s2, mul_one] at hr
  have hlt := mag_lt_overflowThreshold hx
  have hm := hr.exact hx rfl hlt
  refine ⟨hr.finite hlt, ?_⟩
  rw [val_eq, val_eq .double x, hr.sign, hm]
  have hsb : signBit .double s = decide (val .double s = -1) := by
    rcases hs with rfl | rfl
    · rw [val_one64]; norm_num; decide
    · rw [val_negOne64]; norm_num; decide
  rcases s3 with h | h <;> rw [hsb, h] <;> cases signBit .double x <;> norm_num

/-- The largest datum below 2. -/
def belowTwo : Binary64 := 0x3FFFFFFFFFFFFFFF#64

theorem val_belowTwo : mag .double belowTwo = ((2 ^ 53 - 1 : ℕ) : ℚ) * 2 ^ (-52 : ℤ) :=
  mag_of_fields _ _ (by decide) (by decide)

/-- A working significand is at most the largest datum below 2. -/
theorem WorkingSig.le {x : Binary64} (h : WorkingSig x) : val .double x ≤ ((2 ^ 53 - 1 : ℕ) : ℚ) * 2 ^ (-52 : ℤ) := by
  obtain ⟨_, h2, h3⟩ := h
  rw [← mag_eq_val h2] at h3 ⊢
  rw [← val_belowTwo]
  have h4 : mag .double x < mag .double two64 := by rw [mag_eq_val (v := two64) (by decide), val_two64]; exact h3
  have h5 := bitsKey_lt_iff.mpr h4
  have h6 := mt (bitsKey_lt_iff (p := .double) (u := belowTwo) (v := x)).mpr
  have k1 : expField .double two64 * 2 ^ (Precision.double).fracBits + fracField .double two64 = 2 ^ 62 := by decide
  have k2 : expField .double belowTwo * 2 ^ (Precision.double).fracBits + fracField .double belowTwo = 2 ^ 62 - 1 := by
    decide
  rw [k1] at h5; rw [k2] at h6
  exact not_lt.mp (h6 (by omega))

theorem four_lt : (4 : ℚ) < 2 ^ (1024 : ℤ) := by
  calc (4 : ℚ) < 2 ^ (3 : ℤ) := by norm_num
    _ ≤ _ := zpow_le_zpow_right₀ (by norm_num) (by norm_num)

/-- What Compute leaves in `SIG` (R131 to R133, R147): a finite significand that is not negative, below 4, and zero or
at least `2^-24`. -/
def ComputedSig (x : Binary64) : Prop :=
  isFinite .double x = true ∧ signBit .double x = false ∧ val .double x < 4 ∧
    (isZero .double x = false → (2 : ℚ) ^ (-24 : ℤ) ≤ val .double x)

theorem computedSig_zero : ComputedSig zero64 :=
  ⟨isFinite_zero64, signBit_zero64, by rw [val_zero64]; norm_num, fun h => by rw [isZero_zero64] at h; exact absurd h (by decide)⟩

/-- The signed sum of an aligned pair (R131). -/
theorem computedSig_sum {x y s t : Binary64} (h : AlignedPair x y) (hs : SignFactor s) (ht : SignFactor t) :
    ComputedSig (fabs (fadd (fmul x s) (fmul y t))) := by
  obtain ⟨wx, wy, hgap, heq⟩ := h
  obtain ⟨l1, l2⟩ := fmul_signFactor wx.1 hs
  obtain ⟨r1, r2⟩ := fmul_signFactor wy.1 ht
  obtain ⟨a1, a2⟩ := fadd_spec l1 r1
  have hx0 := val_nonneg wx.2.1
  have hy0 := val_nonneg wy.2.1
  set r := val .double (fmul x s) + val .double (fmul y t) with hr
  have hrabs : |r| = val .double x + val .double y ∨ |r| = |val .double x - val .double y| := by
    rw [hr, l2, r2]
    rcases hs.val.2.2 with e | e <;> rcases ht.val.2.2 with e' | e' <;> rw [e, e']
    · left; rw [mul_one, mul_one, abs_of_nonneg (by linarith)]
    · right; congr 1; ring
    · right; rw [abs_sub_comm]; congr 1; ring
    · left; rw [show val .double x * -1 + val .double y * -1 = -(val .double x + val .double y) by ring, abs_neg,
        abs_of_nonneg (by linarith)]
  by_cases h0 : r = 0
  · rw [a2 h0]
    obtain ⟨z1, _⟩ := signedZero64_spec (isZero .double (fmul x s) && signBit .double (fmul x s) &&
      (isZero .double (fmul y t) && signBit .double (fmul y t)))
    refine ⟨by rw [isFinite_fabs]; exact isZero_isFinite z1, signBit_fabs _, ?_, fun h => ?_⟩
    · rw [val_fabs, (val_eq_zero_iff _ _).mpr z1]; norm_num
    · rw [isZero_fabs, z1] at h; exact absurd h (by decide)
  · have hro := a1 h0
    have hle : |r| ≤ ((2 ^ 53 - 1 : ℕ) : ℚ) * 2 ^ (-51 : ℤ) := by
      have e : ((2 ^ 53 - 1 : ℕ) : ℚ) * 2 ^ (-51 : ℤ) = 2 * (((2 ^ 53 - 1 : ℕ) : ℚ) * 2 ^ (-52 : ℤ)) := by
        rw [show (-51 : ℤ) = 1 + -52 by norm_num, zpow_add₀ two_ne_zero, zpow_one]; ring
      have := wx.le; have := wy.le
      rcases hrabs with h | h
      · linarith
      · have : |val .double x - val .double y| ≤ val .double x + val .double y := by
          rw [abs_le]; constructor <;> linarith
        linarith
    have hlt4 : ((2 ^ 53 - 1 : ℕ) : ℚ) * 2 ^ (-51 : ℤ) < 4 := by
      rw [zpow_neg]; norm_num
    obtain ⟨hth, hfin, hmax⟩ := hro.le64 (2 ^ 53 - 1) (-51) (by norm_num) (by norm_num) (lt_trans hlt4 four_lt) hle
    have hlow : (2 : ℚ) ^ (-24 : ℤ) ≤ |r| := by
      by_cases hxy : val .double x = val .double y
      · rcases hrabs with h | h
        · rcases heq hxy with h' | h'
          · exfalso; rw [← hxy, h', add_zero, abs_eq_zero] at h; exact h0 h
          · have : (2 : ℚ) ^ (-24 : ℤ) ≤ 1 := zpow_le_one_of_nonpos₀ (by norm_num) (by norm_num)
            linarith
        · exfalso; rw [hxy, sub_self, abs_zero, abs_eq_zero] at h; exact h0 h
      · have := hgap hxy
        rcases hrabs with h | h
        · have : |val .double x - val .double y| ≤ val .double x + val .double y := by
            rw [abs_le]; constructor <;> linarith
          linarith
        · linarith
    have hmin := hro.ge64 1 (-24) (by norm_num) (by norm_num)
      (by rw [Nat.cast_one, one_mul]; exact zpow_lt_zpow_right₀ (by norm_num) (by norm_num)) (by simpa using hlow) hth
    rw [Nat.cast_one, one_mul] at hmin
    have hval : val .double (fabs (fadd (fmul x s) (fmul y t))) = mag .double (fadd (fmul x s) (fmul y t)) := by
      rw [val_fabs, abs_val]
    refine ⟨by rw [isFinite_fabs]; exact hfin, signBit_fabs _, ?_, fun _ => ?_⟩
    · rw [hval]; linarith
    · rw [hval]; exact hmin

/-- The product of two operands' significands (R132). -/
theorem computedSig_product {x y : Binary64} (hx : isFinite .double x = true) (hy : isFinite .double y = true) :
    ComputedSig (fmul (decompose x).sig (decompose y).sig) ∧
      (2 ≤ val .double (fmul (decompose x).sig (decompose y).sig) →
        (decompose x).exp + (decompose y).exp ≤ 255) ∧
      (isZero .double (fmul (decompose x).sig (decompose y).sig) = false →
        1 ≤ val .double (fmul (decompose x).sig (decompose y).sig)) ∧
      val .double (fmul (decompose x).sig (decompose y).sig) = val .double (decompose x).sig * val .double (decompose y).sig := by
  obtain ⟨x1, x2, _⟩ := decompose_workingSig hx
  obtain ⟨y1, y2, _⟩ := decompose_workingSig hy
  obtain ⟨i, hi', hi, i0, _, i128⟩ := decompose_sig_int hx
  obtain ⟨j, hj', hj, j0, _, j128⟩ := decompose_sig_int hy
  have hr := fmul_spec x1 y1
  rw [x2, y2, Bool.xor_false, mag_eq_val x2, mag_eq_val y2, hi, hj] at hr
  have he : (i : ℚ) / 2 ^ 23 * (j / 2 ^ 23) = ((i * j : ℕ) : ℚ) * 2 ^ (-46 : ℤ) := by
    push_cast; rw [zpow_neg, zpow_ofNat]; field_simp
  have hij : i * j ≤ (2 ^ 24 - 1) * (2 ^ 24 - 1) := Nat.mul_le_mul (by omega) (by omega)
  have hij' : ((i * j : ℕ) : ℚ) ≤ 2 ^ 48 - 1 := by
    have : i * j ≤ 2 ^ 48 - 1 := le_trans hij (by norm_num)
    have : ((i * j : ℕ) : ℚ) ≤ ((2 ^ 48 - 1 : ℕ) : ℚ) := Nat.cast_le.mpr this
    refine le_trans this ?_; norm_num
  have hlt4 : ((i * j : ℕ) : ℚ) * 2 ^ (-46 : ℤ) < 4 := by
    rw [zpow_neg, zpow_ofNat, ← div_eq_mul_inv, div_lt_iff₀ (by positivity)]; linarith
  obtain ⟨e1, e2⟩ := hr.exact64 (i * j) (-46) (by omega) (by norm_num) (lt_trans hlt4 four_lt) he
  have hs := hr.sign
  rw [mag_eq_val hs, he] at e2
  have hone : isZero .double (fmul (decompose x).sig (decompose y).sig) = false →
      1 ≤ val .double (fmul (decompose x).sig (decompose y).sig) := by
    intro hz
    have hne : i * j ≠ 0 := by
      intro h0
      rw [h0, Nat.cast_zero, zero_mul, val_eq_zero_iff, hz] at e2; exact absurd e2 (by decide)
    have hi1 : 2 ^ 23 ≤ i := by
      rcases i0 with rfl | h
      · simp at hne
      · exact h
    have hj1 : 2 ^ 23 ≤ j := by
      rcases j0 with rfl | h
      · simp at hne
      · exact h
    have : 2 ^ 23 * 2 ^ 23 ≤ i * j := Nat.mul_le_mul hi1 hj1
    have h46 : ((2 ^ 46 : ℕ) : ℚ) ≤ ((i * j : ℕ) : ℚ) := Nat.cast_le.mpr (le_trans (by norm_num) this)
    rw [e2, zpow_neg, zpow_ofNat, ← div_eq_mul_inv, le_div_iff₀ (by positivity), one_mul]
    refine le_trans ?_ h46; norm_num
  refine ⟨⟨e1, hs, by rw [e2]; exact hlt4, fun hz => ?_⟩, fun h2 => ?_, hone, by rw [e2, ← he, hi, hj]⟩
  · exact le_trans (zpow_le_one_of_nonpos₀ (by norm_num) (by norm_num)) (hone hz)
  · by_contra hc
    have rx := decompose_exp_range x
    have ry := decompose_exp_range y
    have k1 := i128 (by omega)
    have k2 := j128 (by omega)
    have : i * j ≤ 2 ^ 23 * 2 ^ 23 := Nat.mul_le_mul k1 k2
    have h46 : ((i * j : ℕ) : ℚ) ≤ ((2 ^ 46 : ℕ) : ℚ) := Nat.cast_le.mpr (le_trans this (by norm_num))
    rw [e2, zpow_neg, zpow_ofNat, ← div_eq_mul_inv, le_div_iff₀ (by positivity)] at h2
    have : (2 : ℚ) * 2 ^ 46 ≤ 2 ^ 46 := by
      refine le_trans h2 (le_trans h46 ?_); norm_num
    norm_num at this

/-- The quotient of two operands' significands, the divisor not zero-valued (R133). -/
theorem computedSig_quotient {x y : Binary64} (hx : isFinite .double x = true) (hy : isFinite .double y = true)
    (hz : isZero .double y = false) :
    ComputedSig (fdiv (decompose x).sig (decompose y).sig) ∧
      val .double (fdiv (decompose x).sig (decompose y).sig) < 2 ∧
      (isZero .double (fdiv (decompose x).sig (decompose y).sig) = false →
        1 / 2 < val .double (fdiv (decompose x).sig (decompose y).sig)) := by
  obtain ⟨x1, x2, _⟩ := decompose_workingSig hx
  obtain ⟨y1, y2, _⟩ := decompose_workingSig hy
  obtain ⟨i, hi', hi, i0, _, _⟩ := decompose_sig_int hx
  obtain ⟨j, hj', hj, _, j1, _⟩ := decompose_sig_int hy
  have hj1 := j1 hz
  have hjq : (2 : ℚ) ^ 23 ≤ j := by exact_mod_cast hj1
  have hyz : isZero .double (decompose y).sig = false := by
    by_contra h
    rw [Bool.not_eq_false, ← val_eq_zero_iff, hj] at h
    exact absurd h (by positivity)
  have hr := fdiv_spec x1 y1 hyz
  rw [x2, y2, Bool.xor_false, mag_eq_val x2, mag_eq_val y2, hi, hj] at hr
  have hq : (i : ℚ) / 2 ^ 23 / (j / 2 ^ 23) = i / j := by field_simp
  rw [hq] at hr
  have hle : (i : ℚ) / j ≤ ((2 ^ 24 - 1 : ℕ) : ℚ) * 2 ^ (-23 : ℤ) := by
    have : (i : ℚ) ≤ ((2 ^ 24 - 1 : ℕ) : ℚ) := Nat.cast_le.mpr (by omega)
    rw [zpow_neg, zpow_ofNat, ← div_eq_mul_inv]
    gcongr
  have hlt2 : ((2 ^ 24 - 1 : ℕ) : ℚ) * 2 ^ (-23 : ℤ) < 2 := by rw [zpow_neg]; norm_num
  obtain ⟨hth, hfin, hmax⟩ := hr.le64 (2 ^ 24 - 1) (-23) (by norm_num) (by norm_num)
    (lt_trans hlt2 (lt_trans (by norm_num) four_lt)) hle
  have hs := hr.sign
  rw [mag_eq_val hs] at hmax
  have hlow : isZero .double (fdiv (decompose x).sig (decompose y).sig) = false →
      1 / 2 < val .double (fdiv (decompose x).sig (decompose y).sig) := by
    intro hnz
    have hi1 : 2 ^ 23 ≤ i := by
      rcases i0 with rfl | h
      · exfalso
        rw [Nat.cast_zero, zero_div] at hr
        have := (hr.exact64 0 0 (by norm_num) (by norm_num) (by simp) (by simp)).2
        rw [mag_eq_zero_iff, hnz] at this; exact absurd this (by decide)
      · exact h
    -- `(2^24 + 1) * 2^-25` is just above one half and not above the quotient
    have hge : ((2 ^ 24 + 1 : ℕ) : ℚ) * 2 ^ (-25 : ℤ) ≤ (i : ℚ) / j := by
      rw [le_div_iff₀ (by positivity), zpow_neg, zpow_ofNat]
      have h1 : (j : ℚ) ≤ 2 ^ 24 - 1 := by
        have : (j : ℚ) ≤ ((2 ^ 24 - 1 : ℕ) : ℚ) := Nat.cast_le.mpr (by omega)
        refine le_trans this ?_; norm_num
      have h2 : (2 : ℚ) ^ 23 ≤ i := by exact_mod_cast hi1
      have h3 : ((2 ^ 24 + 1 : ℕ) : ℚ) = 2 ^ 24 + 1 := by norm_num
      rw [h3]
      calc (2 ^ 24 + 1 : ℚ) * (2 ^ 25)⁻¹ * j ≤ (2 ^ 24 + 1) * (2 ^ 25)⁻¹ * (2 ^ 24 - 1) := by gcongr
        _ ≤ 2 ^ 23 := by norm_num
        _ ≤ i := h2
    have hmin := hr.ge64 (2 ^ 24 + 1) (-25) (by norm_num) (by norm_num)
      (lt_trans (by rw [zpow_neg]; norm_num : _ < (4 : ℚ)) four_lt) hge hth
    rw [mag_eq_val hs] at hmin
    refine lt_of_lt_of_le ?_ hmin
    rw [zpow_neg, zpow_ofNat]; norm_num
  refine ⟨⟨hfin, hs, by linarith, fun h => ?_⟩, by linarith, hlow⟩
  have h1 := hlow h
  have : (2 : ℚ) ^ (-24 : ℤ) ≤ 1 / 2 := by rw [zpow_neg]; norm_num
  exact this.trans h1.le

/-! ### The normalization loops (R135, R136, R147) -/

theorem two64_eq_pow64 : two64 = pow64 1 := by decide

/-- Halving a significand of at least 1 is exact (R146). -/
theorem halve_spec {x : Binary64} (hx : isFinite .double x = true) (hs : signBit .double x = false)
    (h : 1 ≤ val .double x) :
    isFinite .double (fdiv x two64) = true ∧ signBit .double (fdiv x two64) = false ∧
      val .double (fdiv x two64) = val .double x / 2 := by
  have hl := lastPlace_of_one_le hs h
  obtain ⟨h1, h2, h3⟩ := fdiv_pow64 hx (k := 1) (by norm_num) (fun _ => by push_cast; omega)
  rw [two64_eq_pow64]
  exact ⟨h1, h2.trans hs, by rw [h3, pow_one]⟩

/-- Doubling a significand below 2 is exact (R146). -/
theorem double_spec {x : Binary64} (hx : isFinite .double x = true) (hs : signBit .double x = false)
    (h : val .double x < 2) :
    isFinite .double (fmul x two64) = true ∧ signBit .double (fmul x two64) = false ∧
      val .double (fmul x two64) = val .double x * 2 := by
  have hr := fmul_spec hx isFinite_two64
  have h2 : signBit .double two64 = false := by decide
  rw [hs, h2, Bool.xor_false, mag_eq_val h2, val_two64] at hr
  have he : mag .double x * 2 = (intSig .double x : ℚ) * 2 ^ (lastPlace .double x + 1) := by
    unfold mag; rw [zpow_add_one₀ two_ne_zero]; ring
  have hl := emin_le_lastPlace .double x
  have hc : (Precision.emin .double - (Precision.double).fracBits : ℤ) = -1074 := by decide
  rw [← mag_eq_val hs] at h
  obtain ⟨e1, e2⟩ := hr.exact64 _ _ (intSig_lt .double x) (by omega)
    (by rw [← he]; exact lt_trans (by linarith : mag .double x * 2 < 4) four_lt) he
  refine ⟨e1, hr.sign, ?_⟩
  rw [← mag_eq_val hr.sign, e2, mag_eq_val hs]

/-- The Overflow loop halves a significand in [2, 4) exactly once (R147). -/
theorem overflowLoop_once {x : Binary64} {e : ℤ} (hx : isFinite .double x = true) (hs : signBit .double x = false)
    (h2 : 2 ≤ val .double x) (h4 : val .double x < 4) (fuel : ℕ) :
    overflowLoop (fuel + 2) { sig := x, exp := e, k := 0 } = { sig := fdiv x two64, exp := e + 1, k := 1 } := by
  obtain ⟨f1, f2, f3⟩ := halve_spec hx hs (by linarith)
  have t1 : fge x two64 = true := by rw [fge_iff hx isFinite_two64, val_two64]; exact h2
  have t2 : fge (fdiv x two64) two64 = false := by
    rw [← Bool.not_eq_true, fge_iff f1 isFinite_two64, val_two64, f3]; linarith
  simp [overflowLoop, halveOnce, t1, t2]

/-- The Underflow loop on a positive significand below 2 that is at least `2^(k - 24)`, with enough fuel: it ends at or
above 1 or on the exponent floor, after at most 24 doublings, and never takes the exponent below the floor
(R136, R145, R147). -/
theorem underflowLoop_spec (fuel : ℕ) : ∀ r : LoopRegs, isFinite .double r.sig = true → signBit .double r.sig = false →
    val .double r.sig < 2 → 0 ≤ r.k → r.k ≤ 24 → (2 : ℚ) ^ (r.k - 24) ≤ val .double r.sig → 24 ≤ r.k + fuel →
    isFinite .double (underflowLoop fuel r).sig = true ∧ signBit .double (underflowLoop fuel r).sig = false ∧
    val .double (underflowLoop fuel r).sig < 2 ∧
    (1 ≤ val .double (underflowLoop fuel r).sig ∨ (underflowLoop fuel r).exp ≤ Config.ufExpFloor) ∧
    r.k ≤ (underflowLoop fuel r).k ∧ (underflowLoop fuel r).k ≤ 24 ∧
    (underflowLoop fuel r).exp = r.exp - ((underflowLoop fuel r).k - r.k) ∧
    (Config.ufExpFloor ≤ (underflowLoop fuel r).exp ∨ (underflowLoop fuel r).exp = r.exp) ∧
    val .double (underflowLoop fuel r).sig = val .double r.sig * 2 ^ ((underflowLoop fuel r).k - r.k) := by
  induction fuel with
  | zero =>
    intro r h1 h2 h3 h4 h5 h6 h7
    have hk : r.k = 24 := by push_cast at h7; omega
    rw [hk] at h6
    refine ⟨h1, h2, h3, .inl (by simpa [underflowLoop] using h6), le_refl _, h5, by simp [underflowLoop], .inr rfl, by simp [underflowLoop]⟩
  | succ fuel ih =>
    intro r h1 h2 h3 h4 h5 h6 h7
    have hlt : flt r.sig one64 = true ↔ val .double r.sig < 1 := by
      rw [flt_iff h1 isFinite_one64, val_one64]
    unfold underflowLoop
    split_ifs with hc
    · simp only [Bool.and_eq_true, decide_eq_true_eq] at hc
      obtain ⟨⟨c1, _⟩, c3⟩ := hc
      rw [hlt] at c1
      obtain ⟨d1, d2, d3⟩ := double_spec h1 h2 h3
      have hk : r.k < 24 := by
        by_contra hk
        have : r.k = 24 := by omega
        rw [this] at h6; norm_num at h6; linarith
      have h6' : (2 : ℚ) ^ (r.k + 1 - 24) ≤ val .double r.sig * 2 := by
        rw [show r.k + 1 - 24 = (r.k - 24) + 1 by ring, zpow_add_one₀ two_ne_zero]; linarith
      obtain ⟨i1, i2, i3, i4, i5, i6, i7, i8, i9⟩ := ih (doubleOnce r) d1 d2 (by
        show val .double (fmul r.sig two64) < 2
        rw [d3]; linarith) (by show 0 ≤ r.k + 1; omega) (by show r.k + 1 ≤ 24; omega) (by
        show (2 : ℚ) ^ (r.k + 1 - 24) ≤ val .double (fmul r.sig two64)
        rw [d3]; exact h6') (by show 24 ≤ r.k + 1 + fuel; push_cast at h7; omega)
      have e1 : (doubleOnce r).k = r.k + 1 := rfl
      have e2 : (doubleOnce r).exp = r.exp - 1 := rfl
      rw [e1] at i5 i7 i9
      rw [e2] at i7 i8
      refine ⟨i1, i2, i3, i4, by omega, i6, by omega, ?_, ?_⟩
      · left; rcases i8 with h | h
        · exact h
        · rw [h]; omega
      · rw [i9]
        show val .double (fmul r.sig two64) * _ = _
        rw [d3, mul_assoc, ← zpow_one_add₀ two_ne_zero]; congr 2; ring
    · refine ⟨h1, h2, h3, ?_, le_refl _, h5, by simp, .inr rfl, by simp⟩
      by_contra hn
      rw [not_or, not_le, not_le] at hn
      apply hc
      simp only [Bool.and_eq_true, decide_eq_true_eq]
      refine ⟨⟨hlt.mpr hn.1, ?_⟩, hn.2⟩
      have : (Config.ufMaxIter : ℤ) = 30 := rfl
      omega

/-! ### Stages keep the datapath in range (R145 to R147) -/

theorem signFactor_spec (c : Char) : SignFactor (signFactor c) := by
  unfold signFactor SignFactor; split <;> simp

theorem signFactor_fneg {x : Binary64} (h : SignFactor x) : SignFactor (fneg x) := by
  rcases h with rfl | rfl
  · right; decide
  · left; decide

theorem extract_datapath (op : SimOp) (s : State) : DatapathAt op (extract op s) .align := by
  refine ⟨⟨rfl, rfl, rfl, rfl⟩, signFactor_spec _, ?_⟩
  show SignFactor (if op = .sub then fneg (signFactor _) else signFactor _)
  split
  · exact signFactor_fneg (signFactor_spec _)
  · exact signFactor_spec _

/-- Stage 2 of Add and Sub. -/
theorem alignStage_pair {op : SimOp} {s : State} (ha : isFinite .double s.req.a = true) (hb : isFinite .double s.req.b = true)
    (h : Extracted s) :
    AlignedPair (alignStage op s).sigA (alignStage op s).sigB ∧ -127 ≤ (alignStage op s).exp ∧
      (alignStage op s).exp ≤ 128 := by
  obtain ⟨h1, h2, h3, h4⟩ := h
  have ra := decompose_exp_range s.req.a
  have rb := decompose_exp_range s.req.b
  rw [← h1] at ra; rw [← h2] at rb
  unfold alignStage
  split
  · next hne =>
    unfold alignShift
    dsimp only
    split
    · next hlt =>
      have hz : isZero .double s.req.b = false := by
        by_contra hz
        rw [Bool.not_eq_false] at hz
        have := decompose_exp_zero hb hz
        rw [← h2] at this; omega
      have hd : (alignDiff s).toNat = (s.opA.exp - s.opB.exp).natAbs := rfl
      refine ⟨?_, rb.1, rb.2⟩
      show AlignedPair (fdiv s.sigA (pow64 (alignDiff s).toNat)) s.sigB
      rw [h3, h4, h1, h2, hd]
      exact alignedPair_shifted ha hb hz (by omega) (by omega)
    · next hge =>
      have hz : isZero .double s.req.a = false := by
        by_contra hz
        rw [Bool.not_eq_false] at hz
        have := decompose_exp_zero ha hz
        rw [← h1] at this; omega
      have hd : (alignDiff s).toNat = (s.opA.exp - s.opB.exp).natAbs := rfl
      refine ⟨?_, ra.1, ra.2⟩
      show AlignedPair s.sigA (fdiv s.sigB (pow64 (alignDiff s).toNat))
      rw [h3, h4, h1, h2, hd]
      exact (alignedPair_shifted hb ha hz (by omega) (by omega)).symm
  · refine ⟨?_, ra.1, ra.2⟩
    show AlignedPair s.sigA s.sigB
    rw [h3, h4, h1, h2]; exact alignedPair_equal ha hb

theorem combineExponents_datapath {op : SimOp} {s : State}
    (ha : isFinite .double s.req.a = true) (hb : isFinite .double s.req.b = true) (h : DatapathAt op s .align) :
    DatapathAt op (combineExponents op s) .compute := by
  obtain ⟨hx, hA, hB⟩ := h
  have eA := (combineExponents_frame op s).sA
  have eB := (combineExponents_frame op s).sB
  cases op with
  | add => exact ⟨eA ▸ hA, eB ▸ hB, alignStage_pair ha hb hx⟩
  | sub => exact ⟨eA ▸ hA, eB ▸ hB, alignStage_pair ha hb hx⟩
  | mul => exact ⟨hA, hB, ⟨hx.opA, hx.opB, hx.sigA, hx.sigB⟩, rfl⟩
  | div => exact ⟨hA, hB, ⟨hx.opA, hx.opB, hx.sigA, hx.sigB⟩, rfl⟩

theorem computeStage_datapath {op : SimOp} {s : State}
    (ha : isFinite .double s.req.a = true) (hb : isFinite .double s.req.b = true) (h : DatapathAt op s .compute) :
    DatapathAt op (computeStage op s) .normalize := by
  obtain ⟨hA, hB, h⟩ := h
  have ra := decompose_exp_range s.req.a
  have rb := decompose_exp_range s.req.b
  have addSub : ∀ o, AlignedPair s.sigA s.sigB ∧ -127 ≤ s.exp ∧ s.exp ≤ 128 → o ≠ .div →
      DatapathAt o (computeAddSub o s) .normalize := by
    intro o ⟨hp, e1, e2⟩ hne
    obtain ⟨c1, c2, c3, c4⟩ := computedSig_sum hp hA hB
    refine ⟨c1, c2, c3, c4, ?_, ?_, fun _ => ?_, fun hd => absurd hd hne⟩
    · show -255 ≤ s.exp; omega
    · show s.exp ≤ 256; omega
    · show s.exp ≤ 255; omega
  cases op
  · exact addSub .add h (by decide)
  · exact addSub .sub h (by decide)
  · obtain ⟨⟨h1, h2, h3, h4⟩, he⟩ := h
    obtain ⟨⟨c1, c2, c3, c4⟩, c5, _⟩ := computedSig_product ha hb
    rw [← h1, ← h2, ← h3, ← h4] at c1 c2 c3 c4 c5
    rw [← h1] at ra; rw [← h2] at rb
    refine ⟨c1, c2, c3, c4, ?_, ?_, fun h => ?_, fun hd => absurd hd (by decide)⟩
    · show -255 ≤ s.exp; omega
    · show s.exp ≤ 256; omega
    · have := c5 h
      show s.exp ≤ 255; omega
  · obtain ⟨⟨h1, h2, h3, h4⟩, he⟩ := h
    rw [← h1] at ra; rw [← h2] at rb
    have main : ComputedSig (computeDiv s).sig ∧ (isZero .double s.req.b = true → isZero .double (computeDiv s).sig = true) := by
      cases hz : isZero .double s.req.b
      · obtain ⟨c, _, _⟩ := computedSig_quotient ha hb hz
        have hy := decompose_sig hb hz
        have hnz : feq s.sigB zero64 = false := by
          rw [← Bool.not_eq_true, h4, h2, feq_iff hy.1 isFinite_zero64, val_zero64, hy.2.2]
          exact ne_of_gt (by positivity)
        have e : (computeDiv s).sig = fdiv (decompose s.req.a).sig (decompose s.req.b).sig := by
          show (if feq s.sigB zero64 = true then zero64 else fdiv s.sigA s.sigB) = _
          rw [hnz, h3, h4, h1, h2]; rfl
        rw [e]; exact ⟨c, fun h => absurd h (by decide)⟩
      · have hz' := decompose_sig_zero hb hz
        have hq : feq s.sigB zero64 = true := by rw [h4, h2, hz']; decide
        have e : (computeDiv s).sig = zero64 := by
          show (if feq s.sigB zero64 = true then zero64 else fdiv s.sigA s.sigB) = _
          rw [hq]; rfl
        rw [e]; exact ⟨computedSig_zero, fun _ => isZero_zero64⟩
    obtain ⟨⟨c1, c2, c3, c4⟩, c5⟩ := main
    refine ⟨c1, c2, c3, c4, ?_, ?_, fun _ => ?_, fun _ => c5⟩
    · show -255 ≤ s.exp; omega
    · show s.exp ≤ 256; omega
    · show s.exp ≤ 255; omega

/-- The four ways out of Normalize for a significand Compute leaves (R134 to R137), with what the loops do (R147). -/
theorem normalizeStage_cases (op : SimOp) {s : State} (h : ComputedSig s.sig) :
    (isZero .double s.sig = true ∧ normalizeStage op s = finishZero op s) ∨
    (isZero .double s.sig = false ∧ 2 ≤ val .double s.sig ∧
      normalizeStage op s = emit op (.normalize .overflow 1 s.sig (fdiv s.sig two64) (s.exp + 1))
        { s with sig := fdiv s.sig two64, exp := s.exp + 1, k := 1, stage := .final } ∧
      isFinite .double (fdiv s.sig two64) = true ∧ signBit .double (fdiv s.sig two64) = false ∧
      val .double (fdiv s.sig two64) = val .double s.sig / 2) ∨
    (isZero .double s.sig = false ∧ val .double s.sig < 1 ∧ ∃ r : LoopRegs,
      r = underflowLoop Config.ufMaxIter { sig := s.sig, exp := s.exp, k := 0 } ∧
      normalizeStage op s = emit op (.normalize .underflow r.k s.sig r.sig r.exp)
        { s with sig := r.sig, exp := r.exp, k := r.k, stage := .final } ∧
      isFinite .double r.sig = true ∧ signBit .double r.sig = false ∧ val .double r.sig < 2 ∧
      (1 ≤ val .double r.sig ∨ r.exp ≤ Config.ufExpFloor) ∧ 0 ≤ r.k ∧ r.k ≤ 24 ∧ r.exp = s.exp - r.k ∧
      (Config.ufExpFloor ≤ r.exp ∨ r.exp = s.exp) ∧ val .double r.sig = val .double s.sig * 2 ^ r.k) ∨
    (1 ≤ val .double s.sig ∧ val .double s.sig < 2 ∧
      normalizeStage op s = emit op (.normalizeNone s.sig s.exp) { s with stage := .final }) := by
  obtain ⟨h1, h2, h3, h4⟩ := h
  have nan := isFinite_not_nan h1
  have tz := feq_iff h1 isFinite_zero64
  rw [val_zero64, val_eq_zero_iff] at tz
  have t2 := fge_iff h1 isFinite_two64
  rw [val_two64] at t2
  have t1 := flt_iff h1 isFinite_one64
  rw [val_one64] at t1
  unfold normalizeStage
  rw [nan, Bool.or_false]
  cases hz : isZero .double s.sig
  · have fz : feq s.sig zero64 = false := by
      rw [← Bool.not_eq_true, tz, hz]; decide
    rw [fz]
    simp only [Bool.false_eq_true, if_false, false_and, false_or, true_and]
    split_ifs with c2 c1
    · left
      rw [t2] at c2
      obtain ⟨f1, f2, f3⟩ := halve_spec h1 h2 (by linarith)
      refine ⟨c2, ?_, f1, f2, f3⟩
      unfold normalizeOverflow
      rw [show overflowFuel = 1022 + 2 from rfl, overflowLoop_once h1 h2 c2 h3]
    · right; left
      rw [t1] at c1
      obtain ⟨i1, i2, i3, i4, i5, i6, i7, i8, i9⟩ := underflowLoop_spec Config.ufMaxIter
        { sig := s.sig, exp := s.exp, k := 0 } h1 h2 (by linarith : val .double s.sig < 2) (le_refl _) (by norm_num)
        (by simpa using h4 hz)
        (show (24 : ℤ) ≤ 0 + ((30 : ℕ) : ℤ) by norm_num)
      refine ⟨c1, _, rfl, rfl, i1, i2, i3, i4, i5, i6, by simpa using i7, i8, by simpa using i9⟩
    · right; right
      rw [t2] at c2; rw [t1] at c1
      exact ⟨not_lt.mp c1, not_le.mp c2, rfl⟩
  · have fz : feq s.sig zero64 = true := tz.mpr hz
    rw [fz]; left; exact ⟨rfl, rfl⟩

theorem normalizeStage_datapath (op : SimOp) {s : State} (h : DatapathAt op s .normalize) :
    ((normalizeStage op s).stage = .done ∧ DatapathAt op (normalizeStage op s) .done) ∨
    ((normalizeStage op s).stage = .final ∧ DatapathAt op (normalizeStage op s) .final) := by
  obtain ⟨h1, h2, h3, h4, h5, h6, h7, h8⟩ := h
  have nz : ∀ t : State, t.req = s.req → isZero .double s.sig = false →
      (op = .div → isZero .double t.req.b = false) := by
    intro t ht hz hd
    rw [ht]
    by_contra hb
    rw [Bool.not_eq_false] at hb
    rw [h8 hd hb] at hz; exact absurd hz (by decide)
  rcases normalizeStage_cases op (s := s) ⟨h1, h2, h3, h4⟩ with ⟨_, e⟩ | ⟨hz, c2, e, f1, f2, f3⟩ |
      ⟨hz, c1, r, _, e, i1, i2, i3, i4, i5, i6, i7, i8, i9⟩ | ⟨c1, c2, e⟩
  · left; rw [e]; exact ⟨rfl, rfl⟩
  · right; rw [e]
    refine ⟨rfl, f1, f2, ?_, ?_, .inl ?_, ?_, ?_, nz _ rfl hz⟩
    · show 0 < val .double (fdiv s.sig two64); rw [f3]; linarith
    · show val .double (fdiv s.sig two64) < 2; rw [f3]; linarith
    · show 1 ≤ val .double (fdiv s.sig two64); rw [f3]; linarith
    · show -255 ≤ s.exp + 1; omega
    · show s.exp + 1 ≤ 256; have := h7 c2; omega
  · right; rw [e]
    have hpos : 0 < val .double s.sig := lt_of_lt_of_le (two_zpow_pos _) (h4 hz)
    refine ⟨rfl, i1, i2, ?_, i3, i4, ?_, ?_, nz _ rfl hz⟩
    · show 0 < val .double r.sig; rw [i9]; exact mul_pos hpos (two_zpow_pos _)
    · show -255 ≤ r.exp
      rcases i8 with h | h
      · have : Config.ufExpFloor = -126 := rfl
        omega
      · omega
    · show r.exp ≤ 256; omega
  · right; rw [e]
    have hz : isZero .double s.sig = false := by
      by_contra hz
      rw [Bool.not_eq_false, ← val_eq_zero_iff] at hz
      rw [hz] at c1; norm_num at c1
    exact ⟨rfl, h1, h2, by show 0 < val .double s.sig; linarith, c2, .inl c1, h5, h6, nz _ rfl hz⟩

/-! ### A whole request on finite operands -/

/-- The states a SIM request passes through after stages 1 to 4, and what they hold. -/
structure Trace (op : SimOp) (s s1 s2 s3 s4 : State) : Prop where
  extract : s1 = extract op (simEntry s)
  combine : s2 = combineExponents op s1
  compute : s3 = computeStage op s2
  normalize : s4 = normalizeStage op s3
  result : simulate op s = deliverBuilt (finalUnlessDone op s4)
  combineFrame : CombineFrame op s1 s2
  computeFrame : ComputeFrame s2 s3
  normalizeFrame : NormalizeFrame s3 s4
  req1 : s1.req = s.req
  req2 : s2.req = s.req
  req3 : s3.req = s.req
  req4 : s4.req = s.req
  extracted : DatapathAt op s1 .align
  combined : DatapathAt op s2 .compute
  computed : DatapathAt op s3 .normalize
  log1 : s1.log = [{ title := Config.titleOf .extract op, payload := .extract (decompose s.req.a) (decompose s.req.b) }]

theorem simulate_trace (op : SimOp) {s : State} (hf : FiniteOperands s.req) : ∃ s1 s2 s3 s4, Trace op s s1 s2 s3 s4 := by
  have f2 := combineExponents_frame op (extract op (simEntry s))
  have f3 := computeStage_frame op (combineExponents op (extract op (simEntry s)))
  have f4 := normalizeStage_frame op (computeStage op (combineExponents op (extract op (simEntry s))))
  have d1 := extract_datapath op (simEntry s)
  have d2 := combineExponents_datapath (op := op) (s := extract op (simEntry s)) hf.1 hf.2 d1
  have d3 := computeStage_datapath (op := op) (by rw [f2.req]; exact hf.1) (by rw [f2.req]; exact hf.2) d2
  exact ⟨_, _, _, _, rfl, rfl, rfl, rfl, simulate_finite hf.1 hf.2, f2, f3, f4, rfl, f2.req, f3.req.trans f2.req,
    f4.req.trans (f3.req.trans f2.req), d1, d2, d3, rfl⟩

/-- The two ends of a request on finite operands: the zero exit exactly when Compute left a zero significand (R134), else
Final (R138). -/
theorem Trace.ends {op : SimOp} {s s1 s2 s3 s4 : State} (h : Trace op s s1 s2 s3 s4) :
    (isZero .double s3.sig = true ∧ s4 = finishZero op s3 ∧ simulate op s = deliverBuilt s4) ∨
    (isZero .double s3.sig = false ∧ s4.stage = .final ∧ DatapathAt op s4 .final ∧
      simulate op s = deliverBuilt (finalStage op s4) ∧
      ∃ st, s4.log = s3.log ++ [st] ∧ (st.kind = .normalize ∨ st.kind = .normalizeNone)) := by
  have hd := h.computed
  have tz := feq_iff hd.1 isFinite_zero64
  rw [val_zero64, val_eq_zero_iff] at tz
  have nan := isFinite_not_nan hd.1
  rcases normalizeStage_exits op s3 with ⟨e, e'⟩ | ⟨e, e1, _, e3⟩
  · rw [nan, Bool.or_false, tz] at e
    have e4 := h.normalize.trans e'
    refine .inl ⟨e, e4, ?_⟩
    rw [h.result, finalUnlessDone_of_done (by rw [e4]; rfl)]
  · rw [nan, Bool.or_false, ← Bool.not_eq_true, tz, Bool.not_eq_true] at e
    rw [← h.normalize] at e1 e3
    refine .inr ⟨e, e1, ?_, by rw [h.result, finalUnlessDone_of_final e1], e3⟩
    rcases normalizeStage_datapath op hd with ⟨e', _⟩ | ⟨_, h'⟩
    · rw [← h.normalize, e1] at e'; exact absurd e' (by decide)
    · rw [h.normalize]; exact h'

end Sys2Proof.Machine
end

