-- ==== Sys2Proof/Tests/Slice0.lean ====
section
/-! SUPPORT. Tests: the well-formedness check, the decoder on the words of Table O, vectors of spec/95_test_vectors.md (its
row numbers stand in the comments), and for every statement with hypotheses a concrete input that meets them. -/

namespace Sys2Proof.Tests

open Sys2Proof.Machine

/-! ### Helpers -/

/-- An idle block that serves a request with these operands. -/
def ready (a b : Binary64) (bits : Str) : State :=
  { State.reset with
    params := { nanMode := .placeholder, hasDec := true }
    req := { cmd := 0b0000#4, a := a, b := b, bits := bits } }

/-- The same with a command word. -/
def withCmd (c : Command) (s : State) : State := { s with req := { s.req with cmd := c } }

/-- The state an outcome leaves. -/
def after (o : Host.Outcome State Fault Refusal) : Option State :=
  match o with
  | .next t => some t
  | .fault _ => none
  | .refused _ => none

/-- The response an outcome leaves. -/
def answer (o : Host.Outcome State Fault Refusal) : Option Response := (after o).bind State.rsp

/-- What a SIM vector says apart from titles and texts: the final value, the kinds, and the registers `EXP`, `SIG`,
`RSGN`. -/
structure Summary where
  finalValue : Option Binary64
  kinds : List StepKind
  exp : Int
  sig : Binary64
  rsgn : Char
deriving DecidableEq, Repr

/-- The summary of a SIM opcode. -/
def summary (i : Instr) (a b : Binary64) : Option Summary :=
  (after (exec i (ready a b []))).map fun t =>
    { finalValue := (t.rsp.bind Response.result).map SimulationResult.finalValue
      kinds := kinds t.log, exp := t.exp, sig := t.sig, rsgn := t.rsgn }

/-- Does an outcome give a next state? -/
def answersNext (o : Host.Outcome State Fault Refusal) : Bool := (after o).isSome

/-! ### Well-formedness and decoding (Table O of spec/30_encoding.md) -/

theorem test_wf_decS_absent : Instr.wf false .decS = false := by decide
theorem test_wf_decD_absent : Instr.wf false .decD = false := by decide
theorem test_decoder_refuses_absent_decS : decode false 0b1100#4 = .error .decoderAbsent := by decide
theorem test_decoder_refuses_absent_decD : decode false 0b1101#4 = .error .decoderAbsent := by decide

theorem test_decode_encS : decode true 0b0000#4 = .ok .encS := by decide
theorem test_decode_encD : decode true 0b0001#4 = .ok .encD := by decide
theorem test_decode_splitS : decode true 0b0100#4 = .ok .splitS := by decide
theorem test_decode_splitD : decode true 0b0101#4 = .ok .splitD := by decide
theorem test_decode_simAdd : decode true 0b1000#4 = .ok .simAdd := by decide
theorem test_decode_simSub : decode true 0b1001#4 = .ok .simSub := by decide
theorem test_decode_simMul : decode true 0b1010#4 = .ok .simMul := by decide
theorem test_decode_simDiv : decode true 0b1011#4 = .ok .simDiv := by decide
theorem test_decode_decS : decode true 0b1100#4 = .ok .decS := by decide
theorem test_decode_decD : decode true 0b1101#4 = .ok .decD := by decide
theorem test_decode_reserved : decode true 0b0010#4 = .error .reservedSelector := by decide
theorem test_decodeTableWord : decodeTableWord 8 0b1011 = some .simDiv := by decide
theorem test_decodeTableWord_reserved : decodeTableWord 8 0b0110 = none := by decide
theorem test_decodeTableWord_wide : decodeTableWord 8 0b00010000 = none := by decide
theorem test_fetch_encD : answersNext (step (State.reset.withFetchWord 8 0b0001)) = true := by decide
theorem test_fetch_simAdd : answersNext (step (State.reset.withFetchWord 8 0b1000)) = true := by decide +kernel

/-! ### ENC (spec/95_test_vectors.md 2.1 to 2.3) -/

/-- 0.1 rounds up to 0x3DCCCCCD -/
theorem test_encS_tenth : (answer (exec .encS (ready 0x3FB999999999999A#64 0 []))).bind Response.pattern
    = some "00111101110011001100110011001101".toList := by decide +kernel

/-- the tie 2^-126 - 2^-150 rounds up to 0x00800000 -/
theorem test_encS_tie : (answer (exec .encS (ready 0x380FFFFFE0000000#64 0 []))).bind Response.pattern
    = some "00000000100000000000000000000000".toList := by decide +kernel

/-- -1.5 is 0xBFF8000000000000 -/
theorem test_encD : (answer (exec .encD (ready 0xBFF8000000000000#64 0 []))).bind Response.pattern
    = some ("101111111111".toList ++ '1' :: List.replicate 51 '0') := by decide +kernel

/-- a NaN under PLACEHOLDER -/
theorem test_encD_nan : (answer (exec .encD (ready 0x7FF8000000000001#64 0 []))).bind Response.pattern
    = some ("NaN".toList ++ List.replicate 61 '0') := by decide +kernel

/-! ### SPLIT and DEC (3.1, 3.2) -/

/-- "0\t1111111\n1" gives 0, 11111111, 0^23 -/
theorem test_splitS : (answer (exec .splitS (ready 0 0 "0\t1111111\n1".toList))).bind Response.fields
    = some { sign := ['0'], exponent := "11111111".toList, mantissa := List.replicate 23 '0', bias := 127 } := by
  decide +kernel

/-- 40 characters: those beyond the 32nd are ignored -/
theorem test_splitS_long :
    (answer (exec .splitS (ready 0 0 "0100000010100000000000000000000011111111".toList))).bind Response.fields
    = some { sign := ['0'], exponent := "10000001".toList, mantissa := '0' :: '1' :: List.replicate 21 '0', bias := 127 } := by
  decide +kernel

/-- a Single pattern at Double keeps the bias 1023 -/
theorem test_splitD : (answer (exec .splitD (ready 0 0 "00111111100000000000000000000000".toList))).bind Response.fields
    = some { sign := ['0'], exponent := "01111111000".toList, mantissa := List.replicate 52 '0', bias := 1023 } := by
  decide +kernel

/-- the least subnormal of Single is 2^-149 -/
theorem test_decS : (answer (exec .decS (ready 0 0 "00000000000000000000000000000001".toList))).bind Response.value
    = some 0x36A0000000000000#64 := by decide +kernel

/-- NaN 0x7F800001: the quiet bit is forced and the payload kept -/
theorem test_decS_nan : (answer (exec .decS (ready 0 0 "01111111100000000000000000000001".toList))).bind Response.value
    = some 0x7FF8000020000000#64 := by decide +kernel

/-- "1" ++ 0^63 is -0 -/
theorem test_decD : (answer (exec .decD (ready 0 0 ('1' :: List.replicate 63 '0')))).bind Response.value
    = some 0x8000000000000000#64 := by decide +kernel

/-- 32 characters are no Double pattern -/
theorem test_decD_short : (answer (exec .decD (ready 0 0 (List.replicate 32 '0')))).map Response.status
    = some .badPattern := by decide +kernel

/-! ### SIM (4.1, 4.2) -/

/-- V1: 12.5 + 2.5 -/
theorem test_simAdd : summary .simAdd 0x4029000000000000#64 0x4004000000000000#64 =
    some { finalValue := some 0x402E000000000000#64, kinds := [.extract, .align, .compute, .normalizeNone, .final]
           exp := 3, sig := 0x3FFE000000000000#64, rsgn := '0' } := by decide +kernel

/-- V31: the binary64 sum of the significands rounds -/
theorem test_simAdd_rounds : (after (exec .simAdd (ready 0x3FF0000020000000#64 0x3E00000020000000#64 []))).map State.raw =
    some 0x3FF0000020200000#64 := by decide +kernel

/-- V12: -3 - 1 -/
theorem test_simSub : summary .simSub 0xC008000000000000#64 0x3FF0000000000000#64 =
    some { finalValue := some 0xC010000000000000#64, kinds := [.extract, .align, .compute, .normalize, .final]
           exp := 2, sig := 0x3FF0000000000000#64, rsgn := '1' } := by decide +kernel

/-- V29: the longest Underflow, 24 doublings -/
theorem test_simSub_underflow : summary .simSub 0x3FF0000000000000#64 0x3FEFFFFFE0000000#64 =
    some { finalValue := some 0x3E70000000000000#64, kinds := [.extract, .align, .compute, .normalize, .final]
           exp := -24, sig := 0x3FF0000000000000#64, rsgn := '0' } := by decide +kernel

/-- V7: 3 * 3 -/
theorem test_simMul : summary .simMul 0x4008000000000000#64 0x4008000000000000#64 =
    some { finalValue := some 0x4022000000000000#64, kinds := [.extract, .expCalc, .compute, .normalize, .final]
           exp := 3, sig := 0x3FF2000000000000#64, rsgn := '0' } := by decide +kernel

/-- V19: -0 * 5 takes the zero exit with +0 -/
theorem test_simMul_zero : summary .simMul 0x8000000000000000#64 0x4014000000000000#64 =
    some { finalValue := some 0x0000000000000000#64, kinds := [.extract, .expCalc, .compute, .finishZero]
           exp := -125, sig := 0x0000000000000000#64, rsgn := '1' } := by decide +kernel

/-- V8: 1 / 3 -/
theorem test_simDiv : summary .simDiv 0x3FF0000000000000#64 0x4008000000000000#64 =
    some { finalValue := some 0x3FD5555555555555#64, kinds := [.extract, .expCalc, .compute, .normalize, .final]
           exp := -2, sig := 0x3FF5555555555555#64, rsgn := '0' } := by decide +kernel

/-- V9: 7 / 0 -/
theorem test_simDiv_zero : summary .simDiv 0x401C000000000000#64 0x0000000000000000#64 =
    some { finalValue := some 0x0000000000000000#64, kinds := [.extract, .expCalc, .compute, .finishZero]
           exp := 129, sig := 0x0000000000000000#64, rsgn := '0' } := by decide +kernel

/-- V37: the first operand is refused first -/
theorem test_nonfinite_first : (answer (exec .simSub (ready 0x7FF0000000000000#64 0x7FF8000000000000#64 []))) =
    some { status := .nonfiniteOperand, info := some .A } := by decide +kernel

/-! ### Witnesses: an input that meets the hypotheses of each statement that has some, and each clause of a statement with
several -/

/-- A SIM request in progress, right after Extract. -/
def inProgress : State := extract .add (simEntry (withCmd 0b1000#4 (ready 0x4029000000000000#64 0x4004000000000000#64 [])))

/-- An idle block that a request is sent to. -/
def sent (c : Command) : State :=
  { ready 0 0 [] with host := [.request { cmd := c, a := 0x4029000000000000#64, b := 0x4004000000000000#64, bits := [] }] }

theorem witness_DecodeAndEncodeAreInverse : Instr.wf false .simDiv = true ∧ Instr.wf true .decD = true ∧
    decode true 0b1101#4 = .ok .decD ∧ decode false 0b0000#4 = .ok .encS := by decide

theorem witness_StepRunsDecodedRequest : ∃ (r : Request) (rest : List HostEvent),
    (sent 0b1011#4).stage = .idle ∧ (sent 0b1011#4).host = .request r :: rest ∧
      decode (sent 0b1011#4).params.hasDec r.cmd = .ok .simDiv := ⟨_, _, rfl, rfl, by decide⟩

theorem witness_FetchWordIsRunNext : (13 : Nat) < 16 ∧
    decode (ready 0 0 []).params.hasDec (BitVec.ofNat 4 13) = .ok .decD := by decide

theorem witness_ReservedWordRaisesIllegalCmd : ∃ (r : Request) (rest : List HostEvent),
    (sent 0b0010#4).stage = .idle ∧ (sent 0b0010#4).host = .request r :: rest ∧
      decode (sent 0b0010#4).params.hasDec r.cmd = .error .reservedSelector := ⟨_, _, rfl, rfl, by decide⟩

theorem witness_ReservedWordRaisesIllegalCmd_noDec : ∃ (s : State) (r : Request) (rest : List HostEvent),
    s.stage = .idle ∧ s.host = .request r :: rest ∧ decode s.params.hasDec r.cmd = .error .decoderAbsent :=
  ⟨{ sent 0b1100#4 with params := { nanMode := .placeholder, hasDec := false } }, _, _, rfl, rfl, by decide⟩

theorem witness_StepAdvancesRequestInProgress :
    inProgress.stage ≠ .idle ∧ (∀ rest, inProgress.host ≠ .reset :: rest) ∧ stageDefined inProgress = true :=
  ⟨by decide, fun _ h => List.noConfusion rfl (heq_of_eq h), by decide +kernel⟩

theorem witness_IdleBlockWaits : State.reset.stage = .idle ∧ State.reset.host = [] := ⟨rfl, rfl⟩

theorem witness_ResetAbandonsTheRequest : ∃ rest, ({ inProgress with host := [.reset] } : State).host = .reset :: rest :=
  ⟨_, rfl⟩

theorem witness_IdleBlockNeverStops : State.reset.stage = .idle := rfl

theorem witness_EveryRequestIsAnswered : ∃ (r : Request) (rest : List HostEvent),
    (sent 0b1111#4).stage = .idle ∧ (sent 0b1111#4).host = .request r :: rest := ⟨_, _, rfl, rfl⟩

theorem witness_NoStepChangesParameters : ∃ t, step (sent 0b0100#4) = .next t := ⟨_, rfl⟩

theorem witness_EncDoubleEmitsItsBits : isNaN .double 0xFFFFFFFFFFFFFFFF#64 = true ∧ isNaN .double 0x7FF0000000000000#64 = false := by
  decide

theorem witness_EncSingleRoundsToNearestEven : isNaN .double 0x7FF0000000000001#64 = true ∧
    isInf .double 0xFFF0000000000000#64 = true ∧ isFinite .double 0x7FEFFFFFFFFFFFFF#64 = true := by decide

/-- Each clause of `EncSingleCornerCases` at its boundary. -/
theorem witness_EncSingleCornerCases :
    (2 : ℚ) ^ 128 - 2 ^ 103 ≤ |val .double 0x47EFFFFFF0000000#64| ∧
    |val .double 0x3690000000000000#64| ≤ (2 : ℚ) ^ (-150 : ℤ) ∧
    ((2 : ℚ) ^ (-150 : ℤ) < |val .double 0x36A0000000000000#64| ∧
      |val .double 0x36A0000000000000#64| < (2 : ℚ) ^ (-126 : ℤ) - 2 ^ (-150 : ℤ)) ∧
    ((2 : ℚ) ^ (-126 : ℤ) - 2 ^ (-150 : ℤ) ≤ |val .double 0x380FFFFFE0000000#64| ∧
      |val .double 0x380FFFFFE0000000#64| < (2 : ℚ) ^ 128 - 2 ^ 103) ∧
    isFinite .double 0x47EFFFFFF0000000#64 = true ∧ isFinite .double 0x3690000000000000#64 = true ∧
    isFinite .double 0x36A0000000000000#64 = true ∧ isFinite .double 0x380FFFFFE0000000#64 = true := by
  have e1 : |val .double 0x47EFFFFFF0000000#64| = ((2 ^ 52 + 0xFFFFFF0000000 : ℕ) : ℚ) * 2 ^ (75 : ℤ) := by
    rw [abs_val]; exact mag_of_fields _ _ (by decide) (by decide)
  have e2 : |val .double 0x3690000000000000#64| = ((2 ^ 52 : ℕ) : ℚ) * 2 ^ (-202 : ℤ) := by
    rw [abs_val]; exact mag_of_fields _ _ (by decide) (by decide)
  have e3 : |val .double 0x36A0000000000000#64| = ((2 ^ 52 : ℕ) : ℚ) * 2 ^ (-201 : ℤ) := by
    rw [abs_val]; exact mag_of_fields _ _ (by decide) (by decide)
  have e4 : |val .double 0x380FFFFFE0000000#64| = ((2 ^ 52 + 0xFFFFFE0000000 : ℕ) : ℚ) * 2 ^ (-179 : ℤ) := by
    rw [abs_val]; exact mag_of_fields _ _ (by decide) (by decide)
  rw [e1, e2, e3, e4]
  refine ⟨?_, ?_, ⟨?_, ?_⟩, ⟨?_, ?_⟩, by decide, by decide, by decide, by decide⟩ <;> norm_num [zpow_neg]

theorem witness_PatternIsPaddedBinaryDigits : 0 < 1 := by decide

theorem witness_DecDoubleReadsTheBits :
    IsBitString (List.replicate 64 '1') 64 ∧ ¬ IsBitString (List.replicate 63 '1') 64 ∧
      ¬ IsBitString ('2' :: List.replicate 63 '1') 64 := by
  simp [IsBitString]

theorem witness_DecSingleValue :
    IsBitString (List.replicate 32 '1') 32 ∧ ¬ IsBitString (List.replicate 33 '1') 32 ∧
    isNaN .single (bitsOf 32 (List.replicate 32 '1')) = true ∧
    (IsBitString ("111111111".toList ++ List.replicate 23 '0') 32 ∧
      isInf .single (bitsOf 32 ("111111111".toList ++ List.replicate 23 '0')) = true) ∧
    (IsBitString (List.replicate 32 '0') 32 ∧ isFinite .single (bitsOf 32 (List.replicate 32 '0')) = true) := by
  refine ⟨by simp [IsBitString], by simp [IsBitString], by decide, ⟨?_, by decide⟩, by simp [IsBitString], by decide⟩
  simp [IsBitString]

theorem witness_DoubleRoundTrip : isNaN .double (ready 0x8000000000000000#64 0 []).req.a = false ∧
    ∃ u : State, u.req.bits = bitString 0x8000000000000000#64 :=
  ⟨by decide, ready 0 0 (bitString 0x8000000000000000#64), rfl⟩

theorem witness_SingleRoundTrip : IsBitString (List.replicate 32 '0') 32 ∧
    isNaN .single (bitsOf 32 (List.replicate 32 '0')) = false ∧ ∃ u : State, u.req.a = 0#64 := by
  exact ⟨by simp [IsBitString], by decide, ready 0 0 [], rfl⟩

theorem witness_SplitOfEncodedPattern : isNaN .double 0xFFF0000000000000#64 = false ∧
    ∃ u : State, u.req.bits = bitString 0xFFF0000000000000#64 :=
  ⟨by decide, ready 0 0 (bitString 0xFFF0000000000000#64), rfl⟩

theorem witness_CodecTouchesOnlyTheResponse : Instr.decD ∈ [Instr.encS, .encD, .splitS, .splitD, .decS, .decD] ∧
    ∃ u : State, u ≠ ready 0 0 [] ∧ u.req = (ready 0 0 []).req ∧ u.params = (ready 0 0 []).params :=
  ⟨by decide, { ready 0 0 [] with k := 7 }, by decide, rfl, rfl⟩

theorem witness_NonfiniteOperandIsRefused : isFinite .double 0x7FF0000000000000#64 = false ∧
    isFinite .double 0x7FEFFFFFFFFFFFFF#64 = true ∧ isFinite .double 0x7FF8000000000000#64 = false := by decide

theorem witness_FaultHasNoOtherEffect : ∃ (s t : State) (r : Request) (rest : List HostEvent) (resp : Response),
    s.stage = .idle ∧ s.host = .request r :: rest ∧ step s = .next t ∧ t.rsp = some resp ∧ resp.status ≠ .ok :=
  ⟨{ ready 0 0 [] with host := [.request { cmd := 0b1100#4, a := 0, b := 0, bits := [] }] }, _, _, _, _,
    rfl, rfl, rfl, rfl, by decide⟩

theorem witness_ValidRequestsRaiseNothing : FiniteOperands (ready 0 0 (List.replicate 32 '0')).req ∧
    IsBitString (ready 0 0 (List.replicate 32 '0')).req.bits 32 ∧ IsBitString (ready 0 0 (List.replicate 64 '0')).req.bits 64 := by
  exact ⟨⟨by decide, by decide⟩, by simp [IsBitString, ready], by simp [IsBitString, ready]⟩

/-- The hypothesis of the SIM statements, at the largest finite datum and the least. -/
theorem witness_SimCompletesWithLegalSteps : FiniteOperands (ready 0x7FEFFFFFFFFFFFFF#64 0x8000000000000001#64 []).req :=
  ⟨by decide, by decide⟩

theorem witness_SimCompletesWithLegalSteps_normalize :
    (after (exec .simMul (ready 0x4008000000000000#64 0x4008000000000000#64 []))).bind
      (fun t => t.log[3]?.map SimulationStep.kind) = some .normalize := by decide +kernel

theorem witness_LiteralResultIsRoundedExactly :
    isFinite .double 0x8000000000000000#64 = true ∧ val .double 0x8000000000000000#64 + val .double 0x8000000000000000#64 = 0 ∧
    val .double one64 + val .double one64 ≠ 0 ∧ val .double one64 - val .double one64 = 0 ∧
    val .double one64 - val .double negOne64 ≠ 0 ∧ isZero .double one64 = false := by
  have h : val .double 0x8000000000000000#64 = 0 := val_negZero64
  rw [h, val_one64, val_negOne64]
  norm_num
  decide

theorem witness_ExtractRecordsBothOperands : FiniteOperands (ready 0x8000000000000000#64 0x3FF0000000000000#64 []).req ∧
    isZero .double 0x8000000000000000#64 = true ∧ isZero .double 0x3FF0000000000000#64 = false := ⟨⟨by decide, by decide⟩, by decide, by decide⟩

/-- The three clauses of the alignment statement: 1.5 and 1.25, 1 and 12.5, 12.5 and 2.5; and the largest shift. -/
theorem witness_AlignShiftsTheSmallerExponent :
    (decompose 0x3FF8000000000000#64).exp = (decompose 0x3FF4000000000000#64).exp ∧
    (decompose 0x3FF0000000000000#64).exp < (decompose 0x4029000000000000#64).exp ∧
    (decompose 0x4004000000000000#64).exp < (decompose 0x4029000000000000#64).exp ∧
    (decompose 0x7FEFFFFFFFFFFFFF#64).exp - (decompose 0x0000000000000000#64).exp = 255 := by decide +kernel

theorem witness_ExpCalcCombinesExponents : FiniteOperands (ready 0x4029000000000000#64 0x4004000000000000#64 []).req :=
  ⟨by decide, by decide⟩

theorem witness_ComputeAddSubIsTheSignedSum : FiniteOperands (ready 0xBFF0000000000000#64 0x3FF0000000000000#64 []).req :=
  ⟨by decide, by decide⟩

/-- 1 and 2^-29 -/
theorem witness_SumIsExactForNearExponents : FiniteOperands (ready 0x3FF0000000000000#64 0x3E20000000000000#64 []).req ∧
    |(decompose 0x3FF0000000000000#64).exp - (decompose 0x3E20000000000000#64).exp| ≤ 29 ∧
    29 ≤ |(decompose 0x3FF0000000000000#64).exp - (decompose 0x3E20000000000000#64).exp| := by
  refine ⟨⟨by decide, by decide⟩, ?_⟩
  have h1 : (decompose 0x3FF0000000000000#64).exp = 0 := by decide +kernel
  have h2 : (decompose 0x3E20000000000000#64).exp = -29 := by decide +kernel
  rw [h1, h2]; decide

theorem witness_ComputeMulIsTheExactProduct : FiniteOperands (ready 0x8000000000000000#64 0x4008000000000000#64 []).req :=
  ⟨by decide, by decide⟩

theorem witness_ComputeDivIsTheRoundedQuotient : FiniteOperands (ready 0x3FF0000000000000#64 0x0000000000000000#64 []).req ∧
    isZero .double 0x0000000000000000#64 = true ∧ isZero .double 0x0000000000000001#64 = false ∧
    FiniteOperands (ready 0x3FF0000000000000#64 0x0000000000000001#64 []).req :=
  ⟨⟨by decide, by decide⟩, by decide, by decide, by decide, by decide⟩

theorem witness_ZeroDivisorIsNotAFault : FiniteOperands (ready 0x401C000000000000#64 0x8000000000000000#64 []).req ∧
    isZero .double (ready 0x401C000000000000#64 0x8000000000000000#64 []).req.b = true := ⟨⟨by decide, by decide⟩, by decide⟩

theorem witness_ZeroFactorTakesTheZeroExit : FiniteOperands (ready 0x401C000000000000#64 0x8000000000000000#64 []).req ∧
    (isZero .double (ready 0x401C000000000000#64 0x8000000000000000#64 []).req.a = true ∨
      isZero .double (ready 0x401C000000000000#64 0x8000000000000000#64 []).req.b = true) :=
  ⟨⟨by decide, by decide⟩, .inr (by decide)⟩

/-- V18 and V12: a zero significand and one that is not. -/
theorem witness_ZeroExitExactlyOnZeroSignificand :
    (after (exec .simSub (ready 0x4008000000000000#64 0x4008000000000000#64 []))).map (fun t => isZero .double t.sig) = some true ∧
    (after (exec .simSub (ready 0xC008000000000000#64 0x3FF0000000000000#64 []))).map (fun t => isZero .double t.sig) = some false := by
  decide +kernel

/-- Each range of Normalize, and its boundaries: 3 times 3 (overflow), 1/3 (underflow), and the significands 1 and 2 that
`1 times 1` and `1 plus 1` leave. -/
theorem witness_NormalizeChoosesByRange : FiniteOperands (ready 0x4008000000000000#64 0x4008000000000000#64 []).req ∧
    (after (exec .simMul (ready 0x4008000000000000#64 0x4008000000000000#64 []))).map (fun t => kinds t.log)
      = some [.extract, .expCalc, .compute, .normalize, .final] ∧
    (after (exec .simDiv (ready 0x3FF0000000000000#64 0x4008000000000000#64 []))).map (fun t => kinds t.log)
      = some [.extract, .expCalc, .compute, .normalize, .final] ∧
    (after (exec .simMul (ready 0x3FF0000000000000#64 0x3FF0000000000000#64 []))).map (fun t => kinds t.log)
      = some [.extract, .expCalc, .compute, .normalizeNone, .final] ∧
    (after (exec .simAdd (ready 0x3FF0000000000000#64 0x3FF0000000000000#64 []))).map (fun t => (kinds t.log, t.exp))
      = some ([.extract, .alignNone, .compute, .normalize, .final], 1) :=
  ⟨⟨by decide, by decide⟩, by decide +kernel, by decide +kernel, by decide +kernel, by decide +kernel⟩

/-- Overflow by 1 (V7), Underflow by 24 (V29), by 1 for Div (V8) and by 0 at the floor (V27). -/
theorem witness_NormalizationBounds :
    (after (exec .simMul (ready 0x4008000000000000#64 0x4008000000000000#64 []))).map State.k = some 1 ∧
    (after (exec .simSub (ready 0x3FF0000000000000#64 0x3FEFFFFFE0000000#64 []))).map State.k = some 24 ∧
    (after (exec .simDiv (ready 0x3FF0000000000000#64 0x4008000000000000#64 []))).map State.k = some 1 ∧
    (after (exec .simSub (ready 0x3818000000000000#64 0x3814000000000000#64 []))).map
      (fun t => (t.k, t.exp, kinds t.log)) = some (0, -126, [.extract, .alignNone, .compute, .normalize, .final]) := by
  decide +kernel

theorem witness_FinalReportsTheRegisters : FiniteOperands (ready 0x4029000000000000#64 0x4004000000000000#64 []).req ∧
    (after (exec .simAdd (ready 0x4029000000000000#64 0x4004000000000000#64 []))).map (fun t => t.log.length) = some 5 :=
  ⟨⟨by decide, by decide⟩, by decide +kernel⟩

/-- V26 and V25: the largest exponent at Final, and one of the lowest. -/
theorem witness_ExponentsStayInRange :
    (after (exec .simMul (ready 0x6974E718D7D7625A#64 0x6974E718D7D7625A#64 []))).map State.exp = some 256 ∧
    (after (exec .simMul (ready 0x1687E92154EF7AC7#64 0x1687E92154EF7AC7#64 []))).map State.exp = some (-254) := by
  decide +kernel

theorem witness_SimFrame : ∃ t, exec .simAdd (ready 0x4029000000000000#64 0x4004000000000000#64 []) = .next t ∧
    FiniteOperands (ready 0x4029000000000000#64 0x4004000000000000#64 []).req ∧ StepKind.normalize ∉ kinds t.log := by
  refine ⟨_, rfl, ⟨by decide, by decide⟩, ?_⟩
  decide +kernel

/-- Every clause of the stage order: a block in each stage, and a zero and a non-zero `SIG` in Normalize. -/
theorem witness_StagesFollowTheirOrder : (∀ g : Stage, ∃ s : State, s.stage = g) ∧
    (feq zero64 0#64 || isNaN .double zero64) = true ∧ (feq one64 0#64 || isNaN .double one64) = false :=
  ⟨fun g => ⟨{ inProgress with stage := g }, rfl⟩, by decide, by decide⟩

theorem witness_LogOnlyGrows : inProgress.stage ≠ .idle ∧ ({ inProgress with stage := .done } : State).stage = .done :=
  ⟨by decide, rfl⟩

theorem witness_StepwiseRunEqualsWholeRequest :
    ∃ s : State, s.stage = .idle ∧ s.building = none ∧ decode s.params.hasDec s.req.cmd = .ok (Instr.ofSimOp .div) ∧
      FiniteOperands s.req ∧ ∀ rest, s.host ≠ .reset :: rest :=
  ⟨withCmd 0b1011#4 (ready 0x3FF0000000000000#64 0x4008000000000000#64 []), rfl, rfl, by decide, ⟨by decide, by decide⟩,
    fun _ h => List.noConfusion rfl (heq_of_eq h)⟩

theorem witness_ResponseDependsOnRequestAlone : ∃ (s u s' u' : State) (r : Request) (rest rest' : List HostEvent),
    s.stage = .idle ∧ u.stage = .idle ∧ s.params = u.params ∧ s.host = .request r :: rest ∧ u.host = .request r :: rest' ∧
      step s = .next s' ∧ step u = .next u' ∧ s.rsp ≠ u.rsp :=
  ⟨sent 0b0001#4, { sent 0b0001#4 with rsp := some { status := .ok } }, _, _, _, _, _, rfl, rfl, rfl, rfl, rfl, rfl, rfl, by decide⟩

theorem witness_UnreadFieldsHaveNoEffect : ∃ (s u s' u' : State), s.params = u.params ∧ SameReadFields .encD s.req u.req ∧
    exec .encD s = .next s' ∧ exec .encD u = .next u' ∧ s.req.b ≠ u.req.b :=
  ⟨ready 1 2 [], ready 1 3 ['x'], _, _, rfl, rfl, rfl, rfl, by decide⟩

theorem witness_StepKeepsLogInvariant : ∃ t, LogInvariant inProgress ∧ step inProgress = .next t := by
  refine ⟨advance inProgress, ⟨fun r h => ?_, fun h => ?_, fun _ => rfl, fun _ => ⟨by decide, ?_⟩⟩, ?_⟩
  · exact absurd (show (none : Option Response) = some r from h) (by simp)
  · exact absurd (show Stage.align = Stage.done from h) (by decide)
  · decide
  · have hd : stageDefined inProgress = true := witness_StepAdvancesRequestInProgress.2.2
    unfold step
    rw [poll_advance witness_StepAdvancesRequestInProgress.1 witness_StepAdvancesRequestInProgress.2.1]
    simp only [hd, if_true]

theorem witness_StepKeepsDatapathInvariant : DatapathInvariant inProgress ∧ ∃ t, step inProgress = .next t :=
  ⟨⟨fun _ => ⟨by decide, by decide, by decide⟩, extract_datapath .add _⟩, witness_StepKeepsLogInvariant.elim fun t h => ⟨t, h.2⟩⟩

/-- The hypothesis of `RunsNeverStop` holds in the middle of a request too. -/
theorem witness_RunsNeverStop : DatapathInvariant inProgress ∧ DatapathInvariant State.reset ∧ inProgress.stage ≠ .idle :=
  ⟨witness_StepKeepsDatapathInvariant.1, ⟨fun h => absurd rfl h, trivial⟩, by decide⟩

end Sys2Proof.Tests
end

section
/-! The frame of the transitions and of whole requests (spec/10_state.md R27, R30, R36): what they leave unchanged, and
what they do to `LOG` and to `K`. -/

namespace Sys2Proof.Machine

/-! ### One transition of a request in progress (R121) -/

/-- Every transition between IDLE and DONE is one of the stages, so it has their frame. -/
theorem advance_stageFrame {s : State} (hi : s.stage ≠ .idle) (hd : s.stage ≠ .done) : StageFrame s (advance s) := by
  cases hs : s.stage with
  | idle => exact absurd hs hi
  | extract => rw [advance_extract hs]; exact extract_frame _ s
  | align => rw [advance_align hs]; exact (combineExponents_frame _ s).toStageFrame
  | compute => rw [advance_compute hs]; exact (computeStage_frame _ s).toStageFrame
  | normalize => rw [advance_normalize hs]; exact (normalizeStage_frame _ s).toStageFrame
  | final => rw [advance_final hs]; exact (finalStage_frame _ s).toStageFrame
  | done => exact absurd hs hd

theorem advance_params {s : State} (hi : s.stage ≠ .idle) : (advance s).params = s.params := by
  by_cases hd : s.stage = .done
  · rw [advance_done hd, deliverBuilt_params]
  · exact (advance_stageFrame hi hd).params

/-! ### A whole SIM request -/

/-- The parameters (R36), the request register and the host's list: no stage of a SIM request writes them. -/
structure EnvironmentFrame (s t : State) : Prop where
  params : t.params = s.params
  req : t.req = s.req
  host : t.host = s.host

theorem EnvironmentFrame.trans {s t u : State} (h : EnvironmentFrame s t) (h' : EnvironmentFrame t u) :
    EnvironmentFrame s u :=
  ⟨h'.params.trans h.params, h'.req.trans h.req, h'.host.trans h.host⟩

theorem StageFrame.environment {s t : State} (h : StageFrame s t) : EnvironmentFrame s t := ⟨h.params, h.req, h.host⟩

theorem finalUnlessDone_environment (op : SimOp) (s : State) : EnvironmentFrame s (finalUnlessDone op s) := by
  unfold finalUnlessDone
  split
  · exact ⟨rfl, rfl, rfl⟩
  · exact (finalStage_frame op s).environment

theorem deliverBuilt_environment (s : State) : EnvironmentFrame s (deliverBuilt s) :=
  ⟨deliverBuilt_params s, deliverBuilt_req s, deliverBuilt_host s⟩

/-- The state that stages 1 to 3 of a request leave to Normalize (R125 to R133). -/
def throughCompute (op : SimOp) (s : State) : State :=
  computeStage op (combineExponents op (extract op (simEntry s)))

theorem runStages_eq (op : SimOp) (s : State) :
    runStages op s = deliverBuilt (finalUnlessDone op (normalizeStage op (throughCompute op s))) := rfl

theorem throughCompute_environment (op : SimOp) (s : State) : EnvironmentFrame s (throughCompute op s) :=
  have entry : EnvironmentFrame s (simEntry s) := ⟨simEntry_params s, simEntry_req s, simEntry_host s⟩
  have stage1 := (extract_frame op (simEntry s)).environment
  have stage2 := (combineExponents_frame op (extract op (simEntry s))).environment
  have stage3 := (computeStage_frame op (combineExponents op (extract op (simEntry s)))).environment
  ((entry.trans stage1).trans stage2).trans stage3

theorem runStages_environment (op : SimOp) (s : State) : EnvironmentFrame s (runStages op s) :=
  have stage4 := (normalizeStage_frame op (throughCompute op s)).environment
  have stage5 := finalUnlessDone_environment op (normalizeStage op (throughCompute op s))
  have delivery := deliverBuilt_environment (finalUnlessDone op (normalizeStage op (throughCompute op s)))
  (((throughCompute_environment op s).trans stage4).trans stage5).trans delivery

/-- The two ends of a SIM request: the entry check raises (R183), or the stages run. -/
theorem simulate_cases (op : SimOp) (s : State) :
    (∃ which, simulate op s = raise .nonfiniteOperand (some which) s) ∨ simulate op s = runStages op s := by
  unfold simulate
  split
  · next which _ => exact .inl ⟨which, rfl⟩
  · exact .inr rfl

theorem simulate_environment (op : SimOp) (s : State) : EnvironmentFrame s (simulate op s) := by
  rcases simulate_cases op s with ⟨which, h⟩ | h
  · rw [h]; exact ⟨raise_params _ _ s, raise_req _ _ s, raise_host _ _ s⟩
  · rw [h]; exact runStages_environment op s

theorem simulate_idle (op : SimOp) (s : State) : (simulate op s).building = none ∧ (simulate op s).stage = .idle := by
  rcases simulate_cases op s with ⟨which, h⟩ | h
  · rw [h]; exact ⟨raise_building _ _ s, raise_stage _ _ s⟩
  · rw [h]; exact ⟨deliverBuilt_building _, deliverBuilt_stage _⟩

/-! ### The loop counter `K` (R135 to R137) -/

theorem combineExponents_k (op : SimOp) (s : State) : (combineExponents op s).k = s.k := by
  have align (op : SimOp) : (alignStage op s).k = s.k := by
    unfold alignStage
    split
    · unfold alignShift; dsimp only; split <;> rfl
    · rfl
  cases op with
  | add => exact align .add
  | sub => exact align .sub
  | mul => rfl
  | div => rfl

theorem computeStage_k (op : SimOp) (s : State) : (computeStage op s).k = s.k := by cases op <;> rfl

theorem throughCompute_k (op : SimOp) (s : State) : (throughCompute op s).k = s.k :=
  (computeStage_k op _).trans (combineExponents_k op _)

/-- Normalize writes `K` only when it runs a loop, and then it emits a Normalize step. -/
theorem normalizeStage_k (op : SimOp) (s : State) :
    StepKind.normalize ∈ kinds (normalizeStage op s).log ∨ (normalizeStage op s).k = s.k := by
  unfold normalizeStage
  split
  · exact .inr rfl
  · split <;> [skip; split]
    · exact .inl (by simp [normalizeOverflow, kinds_snoc, SimulationStep.kind, StepPayload.kind])
    · exact .inl (by simp [normalizeUnderflow, kinds_snoc, SimulationStep.kind, StepPayload.kind])
    · exact .inr rfl

theorem finalUnlessDone_k (op : SimOp) (s : State) : (finalUnlessDone op s).k = s.k := by
  unfold finalUnlessDone
  split
  · rfl
  · rfl

theorem kinds_subset_finalUnlessDone (op : SimOp) (s : State) : kinds s.log ⊆ kinds (finalUnlessDone op s).log := by
  unfold finalUnlessDone
  split
  · exact List.Subset.refl _
  · obtain ⟨st, h⟩ := (finalStage_frame op s).log
    rw [h, kinds_snoc]
    exact List.subset_append_left _ _

/-- `K` stands in a request whose log holds no Normalize step. -/
theorem runStages_k {op : SimOp} {s : State} (h : StepKind.normalize ∉ kinds (runStages op s).log) :
    (runStages op s).k = s.k := by
  rw [runStages_eq] at h ⊢
  rw [deliverBuilt_log] at h
  rw [deliverBuilt_k, finalUnlessDone_k]
  rcases normalizeStage_k op (throughCompute op s) with emitted | stands
  · exact absurd (kinds_subset_finalUnlessDone op _ emitted) h
  · exact stands.trans (throughCompute_k op s)

/-! ### Every opcode -/

theorem execState_params (i : Instr) (s : State) : (execState i s).params = s.params := by
  cases i with
  | encS | encD | splitS | splitD => exact deliver_params _ s
  | decS | decD =>
    unfold execState
    dsimp only
    split
    · exact deliver_params _ s
    · exact raise_params _ _ s
  | simAdd => exact (simulate_environment .add s).params
  | simSub => exact (simulate_environment .sub s).params
  | simMul => exact (simulate_environment .mul s).params
  | simDiv => exact (simulate_environment .div s).params

/-! ### The statements -/

/-- Settles O12: reset, request, waiting and transition each keep the parameters. -/
theorem noStepChangesParameters : Obligations.NoStepChangesParameters := by
  intro s t ht
  rcases step_cases s with ⟨rest, _, h⟩ | ⟨r, rest, i, _, _, _, h⟩ | ⟨r, rest, e, _, _, _, h⟩ | ⟨_, _, h⟩ |
    ⟨hi, _, h⟩ | ⟨_, _, h⟩
  all_goals rw [h] at ht; cases ht
  · exact blockReset_params _
  · exact execState_params i _
  · exact raise_params _ _ _
  · rfl
  · exact advance_params hi

/-- Settles O47: the frames of the stages, chained, and `K` by the one stage that writes it. -/
theorem simFrame : Obligations.SimFrame := by
  intro s t op ht
  rw [exec_ofSimOp] at ht
  cases ht
  obtain ⟨params, req, host⟩ := simulate_environment op s
  obtain ⟨building, stage⟩ := simulate_idle op s
  refine ⟨params, req, host, building, stage, fun finite noLoop => ?_⟩
  rw [simulate_finite finite.1 finite.2] at noLoop ⊢
  exact runStages_k noLoop

/-- Settles O49: each stage appends its one record, and DONE only delivers. -/
theorem logOnlyGrows : Obligations.LogOnlyGrows := by
  intro s hi
  by_cases hd : s.stage = .done
  · exact ⟨[], by rw [advance_done hd, deliverBuilt_log, List.append_nil], fun _ => rfl, fun h => absurd hd h⟩
  · obtain ⟨st, hlog⟩ := (advance_stageFrame hi hd).log
    exact ⟨[st], hlog, fun h => absurd h hd, fun _ => rfl⟩

end Sys2Proof.Machine
end

section
/-! Command words and the request fields an opcode reads (spec/30_encoding.md): what the decoder answers in terms of the
two fields of CMD4 (R60 to R66), and that a response depends on the fields R64 lists alone. -/

namespace Sys2Proof

/-! ### The two fields of a command word (R60) -/

theorem unitField_append_selField (c : Command) : unitField c ++ selField c = c :=
  (BitVec.extractLsb'_append_extractLsb'_eq_extractLsb' rfl).trans BitVec.extractLsb'_eq_self

@[simp] theorem unitField_encode (i : Instr) : unitField (encode i) = i.unit := BitVec.extractLsb'_append_eq_left

@[simp] theorem selField_encode (i : Instr) : selField (encode i) = i.sel := BitVec.extractLsb'_append_eq_right

/-! ### What `sel` selects (R62, R63) -/

theorem precisionOfSel_single {sel : BitVec 2} : precisionOfSel sel = some .single ↔ sel = 0b00#2 := by
  revert sel; decide

theorem precisionOfSel_double {sel : BitVec 2} : precisionOfSel sel = some .double ↔ sel = 0b01#2 := by
  revert sel; decide

theorem precisionOfSel_none {sel : BitVec 2} : precisionOfSel sel = none ↔ sel.getLsbD 1 = true := by
  revert sel; decide

theorem sel_ofSimOp_simOpOfSel (sel : BitVec 2) : (Instr.ofSimOp (simOpOfSel sel)).sel = sel := by
  revert sel; decide

theorem unit_ofSimOp (op : SimOp) : (Instr.ofSimOp op).unit = 0b10#2 := by cases op <;> rfl

theorem wf_ofSimOp (h : Bool) (op : SimOp) : (Instr.ofSimOp op).wf h = true := by cases op <;> rfl

/-- R61: a `unit` that is none of the first three is the DEC unit's. -/
theorem unit_eq_dec {u : BitVec 2} (notEnc : u ≠ 0b00#2) (notSplit : u ≠ 0b01#2)
    (notSim : u ≠ 0b10#2) : u = 0b11#2 := by
  revert u; decide

/-! ### The decoder (R66) -/

/-- A word decodes to an opcode only when its fields are the opcode's and the instance has it. -/
theorem fields_of_decode_ok {h : Bool} {c : Command} {i : Instr} (ok : decode h c = .ok i) :
    unitField c = i.unit ∧ selField c = i.sel ∧ i.wf h = true := by
  unfold decode at ok
  dsimp only at ok
  split at ok
  · next encUnit =>
    split at ok
    · next p => cases ok; exact ⟨encUnit, precisionOfSel_single.1 p, rfl⟩
    · next p => cases ok; exact ⟨encUnit, precisionOfSel_double.1 p, rfl⟩
    · cases ok
  split at ok
  · next splitUnit =>
    split at ok
    · next p => cases ok; exact ⟨splitUnit, precisionOfSel_single.1 p, rfl⟩
    · next p => cases ok; exact ⟨splitUnit, precisionOfSel_double.1 p, rfl⟩
    · cases ok
  split at ok
  · next simUnit =>
    cases ok
    exact ⟨simUnit.trans (unit_ofSimOp _).symm, (sel_ofSimOp_simOpOfSel _).symm, wf_ofSimOp h _⟩
  · next notEnc notSplit notSim =>
    have decUnit := unit_eq_dec notEnc notSplit notSim
    split at ok
    · next p =>
      cases h <;> cases ok
      exact ⟨decUnit, precisionOfSel_single.1 p, rfl⟩
    · next p =>
      cases h <;> cases ok
      exact ⟨decUnit, precisionOfSel_double.1 p, rfl⟩
    · cases ok

/-- A word with the fields of an opcode that the instance has decodes to that opcode. -/
theorem decode_of_fields {h : Bool} {c : Command} {i : Instr} (unit : unitField c = i.unit) (sel : selField c = i.sel)
    (wf : i.wf h = true) : decode h c = .ok i := by
  unfold decode
  rw [unit, sel]
  cases i with
  | encS | encD | splitS | splitD | simAdd | simSub | simMul | simDiv => rfl
  | decS | decD => rw [show h = true from wf]; rfl

theorem decode_encode {h : Bool} {i : Instr} (wf : i.wf h = true) : decode h (encode i) = .ok i :=
  decode_of_fields (unitField_encode i) (selField_encode i) wf

/-- R65: outside the SIM unit, a word with `sel[1] = 1` is reserved, whether the instance has a decoder or not. -/
theorem decode_reserved (h : Bool) {c : Command} (unit : unitField c ≠ 0b10#2) (sel : (selField c).getLsbD 1 = true) :
    decode h c = .error .reservedSelector := by
  unfold decode
  dsimp only
  rw [precisionOfSel_none.2 sel, if_neg unit]
  dsimp only
  split
  · rfl
  · split <;> rfl

/-! ### The statements about command words -/

/-- Settles O2: an opcode and its word have the same two fields, and the fields are the whole word. -/
theorem decodeAndEncodeAreInverse : Obligations.DecodeAndEncodeAreInverse := by
  refine ⟨fun h i wf => decode_encode wf, fun h c i ok => ?_⟩
  obtain ⟨unit, sel, wf⟩ := fields_of_decode_ok ok
  refine ⟨?_, wf⟩
  calc encode i = unitField c ++ selField c := by rw [unit, sel]; rfl
    _ = c := unitField_append_selField c

/-- Settles O1: the words of the opcodes decode to them, the reserved ones are those of R65, and the DEC pair goes by
`HAS_DEC`. -/
theorem commandWordsDecodeByTableO : Obligations.CommandWordsDecodeByTableO := by
  intro h
  have opcode (i : Instr) (wf : i.wf h = true) : decode h (encode i) = .ok i := decode_encode wf
  have reserved {c : Command} := decode_reserved h (c := c)
  refine ⟨opcode .encS rfl, opcode .encD rfl, reserved (by decide) rfl, reserved (by decide) rfl,
    opcode .splitS rfl, opcode .splitD rfl, reserved (by decide) rfl, reserved (by decide) rfl,
    opcode .simAdd rfl, opcode .simSub rfl, opcode .simMul rfl, opcode .simDiv rfl,
    ?decS, ?decD, reserved (by decide) rfl, reserved (by decide) rfl⟩
  case decS => cases h <;> rfl
  case decD => cases h <;> rfl

namespace Machine

/-! ### The fields an opcode reads (R64) -/

/-- The response of an opcode is a function of the parameters and the request fields that R64 lists for it. -/
theorem execState_rsp_eq {i : Instr} {s u : State} (params : s.params = u.params)
    (same : SameReadFields i s.req u.req) :
    (execState i s).rsp = (execState i u).rsp := by
  cases i with
  | encS | encD =>
    have a : s.req.a = u.req.a := same
    simp only [execState, deliver_rsp, params, a]
  | splitS | splitD =>
    have bits : s.req.bits = u.req.bits := same
    simp only [execState, deliver_rsp, bits]
  | simAdd | simSub | simMul | simDiv => exact simulate_rsp_eq _ same.1 same.2
  | decS | decD =>
    have bits : s.req.bits = u.req.bits := same
    simp only [execState, bits]
    split <;> rfl

/-- Settles O52: every opcode leaves the state `execState` gives, whose response reads only the fields of R64. -/
theorem unreadFieldsHaveNoEffect : Obligations.UnreadFieldsHaveNoEffect := by
  intro i s u s' u' params same hs hu
  rw [exec_eq_next] at hs hu
  cases hs
  cases hu
  exact execState_rsp_eq params same

end Machine

end Sys2Proof
end

section
/-! The literal result of a SIM request (spec/40_codec.md R84; spec/41_simulator.md R138): the operators round the exact
sum, difference, product and quotient, and an exact zero sum or difference has the sign R84 gives it. -/

namespace Sys2Proof.Machine

/-- A datum is `-0` when its value is zero and its sign bit is set. -/
theorem isZero_and_signBit_iff (x : Binary64) : (isZero .double x && signBit .double x) = true ↔ x = negZero64 := by
  constructor
  · intro h
    obtain ⟨zero, sign⟩ := Bool.and_eq_true_iff.mp h
    have magnitude : mag .double x = mag .double negZero64 := by
      rw [(mag_eq_zero_iff _ _).mpr zero, (mag_eq_zero_iff _ _).mpr (by decide)]
    exact ext_mag (p := .double) rfl (sign.trans (by decide)) magnitude
  · rintro rfl; decide

theorem fneg_eq_negZero64_iff (y : Binary64) : fneg y = negZero64 ↔ y = zero64 := xor_right_eq_self_iff

/-- An exact zero sum is `-0` only when both terms are (R84). -/
theorem fadd_of_zero_sum {x y : Binary64} (hx : isFinite .double x = true) (hy : isFinite .double y = true)
    (sum : val .double x + val .double y = 0) :
    fadd x y = if x = negZero64 ∧ y = negZero64 then negZero64 else zero64 := by
  rw [(fadd_spec hx hy).2 sum]
  unfold signedZero64
  simp only [Bool.and_eq_true (isZero .double x && signBit .double x), isZero_and_signBit_iff]

theorem fsub_eq_fadd_fneg {x y : Binary64} (hx : isFinite .double x = true) (hy : isFinite .double y = true) :
    fsub x y = fadd x (fneg y) := by
  unfold fsub
  rw [hx, hy]
  rfl

/-- Settles O31: the operators' one specification each; a difference is a sum with the second term negated. -/
theorem literalResultIsRoundedExactly : Obligations.LiteralResultIsRoundedExactly := by
  intro x y hx hy
  have hn : isFinite .double (fneg y) = true := (isFinite_fneg y).trans hy
  have difference : val .double x + val .double (fneg y) = val .double x - val .double y := by rw [val_fneg, sub_eq_add_neg]
  have sub : literalResult .sub x y = fadd x (fneg y) := fsub_eq_fadd_fneg hx hy
  refine ⟨(fadd_spec hx hy).1, fadd_of_zero_sum hx hy, ?_, fun h => ?_, ?_, fun hz => ?_⟩
  · rw [sub, ← difference]
    exact (fadd_spec hx hn).1
  · rw [sub, fadd_of_zero_sum hx hn (difference.trans h)]
    exact if_congr (and_congr_right fun _ => fneg_eq_negZero64_iff y) rfl rfl
  · rw [abs_mul, abs_val, abs_val]
    exact fmul_spec hx hy
  · rw [abs_div, abs_val, abs_val]
    exact fdiv_spec hx hy hz

end Sys2Proof.Machine
end

section
/-! The neighbours of a rounded datum (spec/40_codec.md R82): on which side of a midpoint rounding to nearest even falls,
and which fields of a datum its magnitude fixes. -/

namespace Sys2Proof.Machine

/-! ### The magnitude's bits (R80, R81) -/

/-- The exponent and fraction fields of a datum as one integer, which orders the data of a format by magnitude. -/
def magBits (p : Precision) {w : ℕ} (v : BitVec w) : ℕ := expField p v * 2 ^ p.fracBits + fracField p v

theorem magBits_lt_iff {p : Precision} {w : ℕ} {u v : BitVec w} : magBits p u < magBits p v ↔ mag p u < mag p v :=
  bitsKey_lt_iff

theorem fracField_eq_magBits_mod (p : Precision) {w : ℕ} (v : BitVec w) :
    fracField p v = magBits p v % 2 ^ p.fracBits := by
  rw [magBits, Nat.mul_add_mod_self_right, Nat.mod_eq_of_lt (fracField_lt p v)]

theorem fracField_eq_of_mag_eq {p : Precision} {w : ℕ} {u v : BitVec w} (h : mag p u = mag p v) :
    fracField p u = fracField p v := by
  have bits : magBits p u = magBits p v :=
    le_antisymm (not_lt.mp (mt magBits_lt_iff.mp h.le.not_gt)) (not_lt.mp (mt magBits_lt_iff.mp h.ge.not_gt))
  rw [fracField_eq_magBits_mod, bits, ← fracField_eq_magBits_mod]

/-! ### The two sides of a midpoint (R82) -/

namespace RoundsTo
variable {p : Precision} {s : Bool} {r : ℚ} {w : ℕ} {v a b : BitVec w}

/-- Up to the midpoint of `a` and `b`, and on it when `b` is the odd one, rounding stays below `b`. -/
theorem mag_lt (h : RoundsTo p s r v) (ho : r < overflowThreshold p) (ha : isFinite p a = true)
    (hab : mag p a < mag p b) (hr : 2 * r ≤ mag p a + mag p b)
    (odd : fracField p b % 2 = 1 ∨ 2 * r ≠ mag p a + mag p b) : mag p v < mag p b := by
  by_contra! hge
  have har : mag p a < r := by
    by_contra! hra
    exact absurd (h.mag_le ha hra ho) (not_le.mpr (hab.trans_le hge))
  have near := h.nearest ho a ha
  have tie := h.even ho a ha
  rw [abs_val, abs_val, abs_of_neg (sub_neg.mpr har), abs_of_nonneg (by linarith)] at near tie
  have hv : mag p v = mag p b := by linarith
  have even := tie (by linarith) (by linarith)
  rw [fracField_eq_of_mag_eq hv] at even
  rcases odd with odd | off
  · omega
  · exact off (by linarith)

/-- From the midpoint of `a` and `b` on, and on it when `a` is the odd one, rounding stays above `a`. -/
theorem lt_mag (h : RoundsTo p s r v) (ho : r < overflowThreshold p) (hb : isFinite p b = true)
    (hab : mag p a < mag p b) (hr : mag p a + mag p b ≤ 2 * r)
    (odd : fracField p a % 2 = 1 ∨ 2 * r ≠ mag p a + mag p b) : mag p a < mag p v := by
  by_contra! hle
  have hrb : r < mag p b := by
    by_contra! hbr
    exact absurd (h.le_mag hb hbr ho) (not_le.mpr (hle.trans_lt hab))
  have near := h.nearest ho b hb
  have tie := h.even ho b hb
  rw [abs_val, abs_val, abs_of_pos (sub_pos.mpr hrb), abs_of_nonpos (by linarith)] at near tie
  have hv : mag p v = mag p a := by linarith
  have even := tie (by linarith) (by linarith)
  rw [fracField_eq_of_mag_eq hv] at even
  rcases odd with odd | off
  · omega
  · exact off (by linarith)

end RoundsTo

/-! ### The smallest Single data -/

/-- The least positive Single datum. -/
def leastSubnormal32 : Binary32 := 0x00000001#32
/-- The greatest subnormal Single datum. -/
def greatestSubnormal32 : Binary32 := 0x007FFFFF#32
/-- The least positive normal Single datum. -/
def leastNormal32 : Binary32 := 0x00800000#32

theorem mag_zero32_lt : mag .single (0#32) < mag .single leastSubnormal32 := magBits_lt_iff.mp (by decide)

theorem mag_greatestSubnormal32_lt : mag .single greatestSubnormal32 < mag .single leastNormal32 :=
  magBits_lt_iff.mp (by decide)

/-- Zero and the least subnormal have the midpoint `2^-150`. -/
theorem mag_zero32_add : mag .single (0#32) + mag .single leastSubnormal32 = 2 * 2 ^ (-150 : ℤ) := by
  rw [(mag_eq_zero_iff _ _).mpr (by decide), mag_of_fields 1 (-149) (by decide) (by decide)]
  norm_num

/-- The greatest subnormal and the least normal have the midpoint `2^-126 - 2^-150`. -/
theorem mag_greatestSubnormal32_add :
    mag .single greatestSubnormal32 + mag .single leastNormal32 = 2 * (2 ^ (-126 : ℤ) - 2 ^ (-150 : ℤ)) := by
  rw [mag_of_fields (2 ^ 23 - 1) (-149) (by decide) (by decide), mag_of_fields (2 ^ 23) (-149) (by decide) (by decide)]
  norm_num

theorem isZero_of_mag_lt {v : Binary32} (h : mag .single v < mag .single leastSubnormal32) : isZero .single v = true := by
  have bits : magBits .single v < 1 := magBits_lt_iff.mpr h
  simp only [magBits, Precision.fracBits] at bits
  simp only [isZero, Bool.and_eq_true, beq_iff_eq]
  omega

theorem subnormal_of_mag {v : Binary32} (lo : mag .single (0#32) < mag .single v)
    (hi : mag .single v < mag .single leastNormal32) : expField .single v = 0 ∧ fracField .single v ≠ 0 := by
  have loBits : 0 < magBits .single v := magBits_lt_iff.mpr lo
  have hiBits : magBits .single v < 2 ^ 23 := magBits_lt_iff.mpr hi
  simp only [magBits, Precision.fracBits] at loBits hiBits
  omega

theorem expField_ne_zero_of_lt_mag {v : Binary32} (h : mag .single greatestSubnormal32 < mag .single v) :
    expField .single v ≠ 0 := by
  have bits : 2 ^ 23 - 1 < magBits .single v := magBits_lt_iff.mpr h
  have frac := fracField_lt .single v
  simp only [magBits, Precision.fracBits] at bits frac
  rintro zero
  omega

end Sys2Proof.Machine
end

section
/-! ENC (spec/40_codec.md R85 to R87): the pattern it emits is the bits of a datum, and for `ENC.S` that datum is the
operand rounded to Single, with the corner cases of R85. -/

namespace Sys2Proof.Machine

/-! ### Patterns (R12, R85, R87) -/

theorem isBitPattern_bitString {w : ℕ} (v : BitVec w) : IsBitPattern v (bitString v) :=
  ⟨length_bitString v, fun _ hi => getElem_bitString v hi⟩

theorem nanPattern_eq_nanText (mode : NanMode) (p : Precision) :
    nanPattern mode p = nanText mode p.expBits p.fracBits := by
  cases mode <;> cases p <;> rfl

theorem encSinglePattern_nan {mode : NanMode} {x : Binary64} (h : isNaN .double x = true) :
    encSinglePattern mode x = nanText mode 8 23 := (if_pos h).trans (nanPattern_eq_nanText mode .single)

theorem encDoublePattern_nan {mode : NanMode} {x : Binary64} (h : isNaN .double x = true) :
    encDoublePattern mode x = nanText mode 11 52 := (if_pos h).trans (nanPattern_eq_nanText mode .double)

theorem encSinglePattern_of_not_nan {mode : NanMode} {x : Binary64} (h : isNaN .double x = false) :
    encSinglePattern mode x = bitString (cvtS x) := if_neg (Bool.eq_false_iff.mp h)

theorem encDoublePattern_of_not_nan {mode : NanMode} {x : Binary64} (h : isNaN .double x = false) :
    encDoublePattern mode x = bitString x := if_neg (Bool.eq_false_iff.mp h)

theorem exec_encS_of_not_nan {s : State} (h : isNaN .double s.req.a = false) :
    exec .encS s = .next (deliver (patternResponse (bitString (cvtS s.req.a))) s) := by
  rw [exec_eq_next, execState, encSinglePattern_of_not_nan h]

theorem exec_encD_of_not_nan {s : State} (h : isNaN .double s.req.a = false) :
    exec .encD s = .next (deliver (patternResponse (bitString s.req.a)) s) := by
  rw [exec_eq_next, execState, encDoublePattern_of_not_nan h]

/-! ### The infinities and the finite data at Single (R83) -/

theorem isInf_not_nan {p : Precision} {w : ℕ} {v : BitVec w} (h : isInf p v = true) : isNaN p v = false := by
  unfold isInf at h
  unfold isNaN
  rw [Bool.and_eq_true, beq_iff_eq, beq_iff_eq] at h
  rw [h.2, bne_self_eq_false, Bool.and_false]

theorem cvtS_inf {x : Binary64} (h : isInf .double x = true) :
    cvtS x = if signBit .double x then 0xFF800000#32 else 0x7F800000#32 := by
  unfold cvtS
  rw [isInf_not_nan h, h]
  rfl

/-- Settles O13: `ENC.D` delivers the operand's bit string, or the NaN pattern. -/
theorem encDoubleEmitsItsBits : Obligations.EncDoubleEmitsItsBits := by
  intro s
  refine ⟨_, _, exec_eq_next .encD s, rfl, encDoublePattern_nan, fun h => ?_⟩
  rw [encDoublePattern_of_not_nan h]
  exact isBitPattern_bitString _

/-- Settles O14: `ENC.S` delivers the bit string of `CvtS` of the operand, which rounds as R82 says. -/
theorem encSingleRoundsToNearestEven : Obligations.EncSingleRoundsToNearestEven := by
  intro s
  refine ⟨_, _, exec_eq_next .encS s, rfl, encSinglePattern_nan, fun inf => ?_, fun finite => ⟨cvtS s.req.a, ?_, ?_⟩⟩
  · rw [encSinglePattern_of_not_nan (isInf_not_nan inf), cvtS_inf inf]
    exact isBitPattern_bitString _
  · rw [encSinglePattern_of_not_nan (isFinite_not_nan finite)]
    exact isBitPattern_bitString _
  · rw [abs_val]
    exact cvtS_spec finite

/-! ### The corner cases of R85 -/

theorem overflowThreshold_single : overflowThreshold .single = 2 ^ 128 - 2 ^ 103 := by
  norm_num [overflowThreshold, Precision.bias, Precision.fracBits]

section
variable {s : Bool} {r : ℚ} {v : Binary32}

/-- At or below half the least subnormal, the tie going to the even zero. -/
theorem RoundsTo.isZero32 (h : RoundsTo .single s r v) (ho : r < overflowThreshold .single)
    (hr : r ≤ 2 ^ (-150 : ℤ)) : isZero .single v = true :=
  isZero_of_mag_lt
    (h.mag_lt ho (by decide) mag_zero32_lt (by rw [mag_zero32_add]; linarith) (.inl (by decide)))

/-- Between the midpoints beside the subnormals. -/
theorem RoundsTo.subnormal32 (h : RoundsTo .single s r v) (ho : r < overflowThreshold .single)
    (lo : 2 ^ (-150 : ℤ) < r) (hi : r < 2 ^ (-126 : ℤ) - 2 ^ (-150 : ℤ)) :
    expField .single v = 0 ∧ fracField .single v ≠ 0 := by
  have above : mag .single (0#32) + mag .single leastSubnormal32 < 2 * r := by rw [mag_zero32_add]; linarith
  have below : 2 * r < mag .single greatestSubnormal32 + mag .single leastNormal32 := by
    rw [mag_greatestSubnormal32_add]; linarith
  exact subnormal_of_mag (h.lt_mag ho (by decide) mag_zero32_lt above.le (.inr above.ne'))
    (h.mag_lt ho (by decide) mag_greatestSubnormal32_lt below.le (.inr below.ne))

/-- From the midpoint below the least normal on, the tie going to the even normal. -/
theorem RoundsTo.normal32 (h : RoundsTo .single s r v) (ho : r < overflowThreshold .single)
    (hr : 2 ^ (-126 : ℤ) - 2 ^ (-150 : ℤ) ≤ r) : expField .single v ≠ 0 :=
  expField_ne_zero_of_lt_mag (h.lt_mag ho (by decide) mag_greatestSubnormal32_lt
    (by rw [mag_greatestSubnormal32_add]; linarith) (.inl (by decide)))

end

/-- Settles O15: each range of R85 lies on one side of the midpoints that bound it. -/
theorem encSingleCornerCases : Obligations.EncSingleCornerCases := by
  intro s finite
  have rounds := cvtS_spec finite
  have tiny : (2 : ℚ) ^ (-126 : ℤ) < overflowThreshold .single := by rw [overflowThreshold_single]; norm_num
  have order : (0 : ℚ) < 2 ^ (-150 : ℤ) ∧ (2 : ℚ) ^ (-150 : ℤ) < 2 ^ (-126 : ℤ) := by norm_num
  obtain ⟨positive, smaller⟩ := order
  rw [abs_val, ← overflowThreshold_single]
  refine ⟨_, _, cvtS s.req.a, exec_encS_of_not_nan (isFinite_not_nan finite), rfl, isBitPattern_bitString _, rounds.sign,
    fun h => ?_, fun h => ?_, fun lo hi => ?_, fun lo hi => ⟨?_, ?_⟩⟩
  · exact rounds.overflow h
  · exact rounds.isZero32 (by linarith) h
  · exact rounds.subnormal32 (by linarith) lo hi
  · exact rounds.normal32 hi lo
  · exact rounds.finite hi

/-! ### The pattern as padded binary digits (R85) -/

theorem uintOfBits_zeros_append (k : ℕ) (s : Str) : uintOfBits (repeatChar '0' k ++ s) = uintOfBits s := by
  unfold repeatChar
  induction k with
  | zero => rfl
  | succ k ih => exact ih

theorem binaryDigit_spec : ∀ b < 2, isBitChar b.digitChar = true ∧ (if b.digitChar = '1' then 1 else 0) = b := by decide

/-- The binary digits of a number are bit characters that read as the number. -/
theorem binaryDigits_spec (n : ℕ) :
    (∀ c ∈ Nat.toDigits 2 n, isBitChar c = true) ∧ uintOfBits (Nat.toDigits 2 n) = n := by
  induction n using Nat.strongRecOn with
  | ind n ih =>
    rw [Nat.toDigits_eq_if one_lt_two]
    split
    · next small =>
      obtain ⟨bit, value⟩ := binaryDigit_spec n small
      exact ⟨by simpa using bit, by simpa [uintOfBits] using value⟩
    · next large =>
      obtain ⟨bits, value⟩ := ih (n / 2) (by omega)
      obtain ⟨bit, last⟩ := binaryDigit_spec (n % 2) (by omega)
      refine ⟨fun c hc => ?_, ?_⟩
      · rcases List.mem_append.mp hc with front | back
        · exact bits c front
        · rwa [List.mem_singleton.mp back]
      · rw [uintOfBits_snoc, value, last]
        omega

theorem validPattern_padL_toDigits {n w : ℕ} (hw : 0 < w) (hn : n < 2 ^ w) :
    validPattern (padL (Nat.toDigits 2 n) w) w = true := by
  have short : (Nat.toDigits 2 n).length ≤ w := (Nat.length_toDigits_le_iff one_lt_two hw).mpr hn
  rw [validPattern, Bool.and_eq_true, beq_iff_eq, List.all_eq_true]
  refine ⟨?_, fun c hc => ?_⟩
  · rw [padL, List.length_append, length_repeatChar]
    omega
  · rcases List.mem_append.mp hc with zero | digit
    · rw [List.eq_of_mem_replicate zero]; rfl
    · exact (binaryDigits_spec n).1 c digit

/-- Settles O16: the padded digits are a bit string of length W that reads as the datum, and only `str_W` of it is. -/
theorem patternIsPaddedBinaryDigits : Obligations.PatternIsPaddedBinaryDigits := by
  intro w v hw
  have reads : bitsOf w (padL (Nat.toDigits 2 v.toNat) w) = v := by
    rw [bitsOf, padL, uintOfBits_zeros_append, (binaryDigits_spec _).2, BitVec.ofNat_toNat, BitVec.setWidth_eq]
  calc bitString v = bitString (bitsOf w (padL (Nat.toDigits 2 v.toNat) w)) := by rw [reads]
    _ = padL (Nat.toDigits 2 v.toNat) w := bitString_bitsOf (validPattern_padL_toDigits hw v.isLt)

end Sys2Proof.Machine
end

section
/-! SPLIT (spec/40_codec.md R89 to R92, R97, R98): the whitespace set, and the fields as consecutive cuts of the stripped
input padded with zeros. -/

namespace Sys2Proof.Machine

/-! ### The whitespace set (R89) -/

/-- The code points of `WS`, one by one. -/
def whitespaceCodes : List ℕ :=
  [0x0009, 0x000A, 0x000B, 0x000C, 0x000D, 0x0020, 0x00A0, 0x1680, 0x2000, 0x2001, 0x2002, 0x2003, 0x2004, 0x2005,
    0x2006, 0x2007, 0x2008, 0x2009, 0x200A, 0x2028, 0x2029, 0x202F, 0x205F, 0x3000, 0xFEFF]

theorem isWhitespace_eq (c : Char) : isWhitespace c = decide (c.toNat ∈ whitespaceCodes) := by
  rw [Bool.eq_iff_iff, decide_eq_true_eq]
  simp only [isWhitespace, whitespaceCodes, Bool.or_eq_true, Bool.and_eq_true, decide_eq_true_eq, beq_iff_eq,
    List.mem_cons, List.not_mem_nil, or_false]
  omega

/-- Settles O19: the model's ranges are the 25 code points. -/
theorem stripRemovesTheWhitespaceSet : Obligations.StripRemovesTheWhitespaceSet := by
  intro s
  unfold strip
  simp only [isWhitespace_eq]
  rfl

/-! ### Cuts of a padded string (R11, R90) -/

/-- Padding a slice is slicing the padded string. -/
theorem padR_slice (t : Str) (i : ℕ) {n w : ℕ} (h : i + n ≤ w) :
    padR (slice t i (i + n)) n = slice (t ++ repeatChar '0' w) i (i + n) := by
  unfold padR slice repeatChar
  rw [Nat.add_sub_cancel_left, List.drop_append, List.take_append, List.drop_replicate, List.take_replicate,
    List.length_take, List.length_drop]
  congr 2
  omega

theorem slice_append_slice (t : Str) {i j k : ℕ} (hij : i ≤ j) (hjk : j ≤ k) :
    slice t i j ++ slice t j k = slice t i k := by
  unfold slice
  obtain ⟨m, rfl⟩ := Nat.exists_eq_add_of_le hij
  obtain ⟨n, rfl⟩ := Nat.exists_eq_add_of_le hjk
  rw [show i + m + n - i = m + n by omega, Nat.add_sub_cancel_left, Nat.add_sub_cancel_left, List.take_add, List.drop_drop]

/-- The sign field is a cut of length one, like the other two. -/
theorem splitFields_sign (bits : Str) (E M : ℕ) (bias : ℤ) :
    (splitFields bits E M bias).sign = padR (slice (strip bits) 0 (0 + 1)) 1 := by
  unfold splitFields
  cases strip bits <;> rfl

/-- What SPLIT's fields are: their lengths, and read together the beginning of the padded input (R90, R97). -/
structure FieldsOf (t : Str) (E M : ℕ) (bias : ℤ) (f : FieldBreakdown) : Prop where
  sign : f.sign.length = 1
  exponent : f.exponent.length = E
  mantissa : f.mantissa.length = M
  text : f.sign ++ f.exponent ++ f.mantissa = (t ++ repeatChar '0' (1 + E + M)).take (1 + E + M)
  bias : f.bias = bias

theorem splitFields_fieldsOf (bits : Str) (E M : ℕ) (bias : ℤ) :
    FieldsOf (strip bits) E M bias (splitFields bits E M bias) where
  sign := by rw [splitFields_sign, length_padR_slice]
  exponent := length_padR_slice _ 1 E
  mantissa := length_padR_slice _ (1 + E) M
  bias := rfl
  text := by
    have sign := splitFields_sign bits E M bias
    have exponent : (splitFields bits E M bias).exponent = padR (slice (strip bits) 1 (1 + E)) E := rfl
    have mantissa : (splitFields bits E M bias).mantissa = padR (slice (strip bits) (1 + E) (1 + E + M)) M := rfl
    rw [sign, exponent, mantissa, padR_slice _ 0 (w := 1 + E + M) (by omega), padR_slice _ 1 (w := 1 + E + M) (by omega),
      padR_slice _ (1 + E) (w := 1 + E + M) (by omega), slice_append_slice _ (by omega) (by omega),
      slice_append_slice _ (by omega) (by omega)]
    rfl

/-- Settles O17: the lengths of the three cuts. -/
theorem splitFieldWidths : Obligations.SplitFieldWidths := by
  intro s
  obtain ⟨sS, eS, mS, _, bS⟩ := splitFields_fieldsOf s.req.bits 8 23 127
  obtain ⟨sD, eD, mD, _, bD⟩ := splitFields_fieldsOf s.req.bits 11 52 1023
  exact ⟨⟨_, _, exec_eq_next .splitS s, rfl, sS, eS, mS, bS⟩, ⟨_, _, exec_eq_next .splitD s, rfl, sD, eD, mD, bD⟩⟩

/-- Settles O18: the three cuts are consecutive. -/
theorem splitTakesStrippedCharacters : Obligations.SplitTakesStrippedCharacters := by
  intro s
  obtain ⟨sS, eS, _, tS, bS⟩ := splitFields_fieldsOf s.req.bits 8 23 127
  obtain ⟨sD, eD, _, tD, bD⟩ := splitFields_fieldsOf s.req.bits 11 52 1023
  exact ⟨⟨_, _, exec_eq_next .splitS s, rfl, sS, eS, tS, bS⟩, ⟨_, _, exec_eq_next .splitD s, rfl, sD, eD, tD, bD⟩⟩

/-! ### SPLIT of an encoded datum (R98) -/

/-- The `n` characters of a bit string from index `i` on are the bits of a field of the datum. -/
theorem isBitPattern_slice {w : ℕ} (v : BitVec w) {i n : ℕ} (h : i + n ≤ w) :
    IsBitPattern (BitVec.ofNat n (v.toNat / 2 ^ (w - (i + n)))) (slice (bitString v) i (i + n)) := by
  refine ⟨by rw [length_slice, length_bitString]; omega, fun k hk => ?_⟩
  unfold slice
  rw [Nat.add_sub_cancel_left, List.getElem?_take_of_lt hk, List.getElem?_drop, getElem_bitString v (by omega),
    BitVec.getLsbD_ofNat, Nat.testBit_div_two_pow, decide_eq_true (by omega), Bool.true_and]
  unfold bitChar BitVec.getLsbD
  rw [show w - 1 - (i + k) = n - 1 - k + (w - (i + n)) by omega]

theorem padR_of_length {t : Str} {n : ℕ} (h : t.length = n) : padR t n = t := by
  rw [padR, h, Nat.sub_self]
  exact List.append_nil t

theorem ofNat_mod_two_pow (n x : ℕ) : BitVec.ofNat n (x % 2 ^ n) = BitVec.ofNat n x :=
  BitVec.eq_of_toNat_eq (by rw [BitVec.toNat_ofNat, BitVec.toNat_ofNat, Nat.mod_mod])

/-- SPLIT of a datum's bit string gives the fields of the datum: nothing is stripped and nothing is padded. -/
theorem splitFields_bitString (p : Precision) (v : BitVec p.width) (bias : ℤ) :
    (splitFields (bitString v) p.expBits p.fracBits bias).sign = [if signBit p v then '1' else '0'] ∧
    IsBitPattern (BitVec.ofNat p.expBits (expField p v))
      (splitFields (bitString v) p.expBits p.fracBits bias).exponent ∧
    IsBitPattern (BitVec.ofNat p.fracBits (fracField p v))
      (splitFields (bitString v) p.expBits p.fracBits bias).mantissa := by
  have width : p.width = 1 + p.expBits + p.fracBits := by cases p <;> rfl
  have expBits := isBitPattern_slice v (i := 1) (n := p.expBits) (by omega)
  have fracBits := isBitPattern_slice v (i := 1 + p.expBits) (n := p.fracBits) (by omega)
  rw [show p.width - (1 + p.expBits) = p.fracBits by omega] at expBits
  rw [show p.width - (1 + p.expBits + p.fracBits) = 0 by omega, pow_zero, Nat.div_one] at fracBits
  refine ⟨?_, ?_, ?_⟩
  · have first : slice (bitString v) 0 (0 + 1) = [bitChar (signBit p v)] := by
      unfold slice
      rw [List.drop_zero, List.take_one, List.head?_eq_getElem?, getElem_bitString v (by omega)]
      rfl
    rw [splitFields_sign, strip_bitString, first]
    rfl
  · unfold splitFields expField
    dsimp only
    rw [strip_bitString, padR_of_length expBits.1, ofNat_mod_two_pow]
    exact expBits
  · unfold splitFields fracField
    dsimp only
    rw [strip_bitString, padR_of_length fracBits.1, ofNat_mod_two_pow]
    exact fracBits

/-- Settles O24: ENC emits a bit string, and SPLIT cuts a bit string at the fields. -/
theorem splitOfEncodedPattern : Obligations.SplitOfEncodedPattern := by
  intro s h
  obtain ⟨signS, expS, fracS⟩ := splitFields_bitString .single (cvtS s.req.a) 127
  obtain ⟨signD, expD, fracD⟩ := splitFields_bitString .double s.req.a 1023
  refine ⟨⟨_, _, exec_encS_of_not_nan h, rfl, length_bitString _, strip_bitString _, fun u hu => ?_⟩,
    ⟨_, _, exec_encD_of_not_nan h, rfl, length_bitString _, strip_bitString _, fun u hu => ?_⟩⟩
  · exact ⟨_, _, exec_eq_next .splitS u, rfl, hu ▸ signS, hu ▸ expS, hu ▸ fracS, rfl⟩
  · exact ⟨_, _, exec_eq_next .splitD u, rfl, hu ▸ signD, hu ▸ expD, hu ▸ fracD, rfl⟩

end Sys2Proof.Machine
end

section
/-! DEC (spec/40_codec.md R93 to R96): the datum a bit string denotes, the widening of a Single datum, and the two round
trips through ENC. -/

namespace Sys2Proof.Machine

/-! ### Patterns (R93) -/

theorem validPattern_iff {s : Str} {w : ℕ} : validPattern s w = true ↔ IsBitString s w := by
  simp [validPattern, IsBitString, isBitChar]

theorem isBitPattern_bitsOf {s : Str} {w : ℕ} (h : IsBitString s w) : IsBitPattern (bitsOf w s) s := by
  have pattern := isBitPattern_bitString (bitsOf w s)
  rwa [bitString_bitsOf (validPattern_iff.mpr h)] at pattern

theorem exec_decS_of_valid {s : State} (h : IsBitString s.req.bits 32) :
    exec .decS s = .next (deliver (valueResponse (widen (bitsOf 32 s.req.bits))) s) := if_pos (validPattern_iff.mpr h)

theorem exec_decS_of_invalid {s : State} (h : ¬ IsBitString s.req.bits 32) :
    exec .decS s = .next (raise .badPattern none s) := if_neg (mt validPattern_iff.mp h)

theorem exec_decD_of_valid {s : State} (h : IsBitString s.req.bits 64) :
    exec .decD s = .next (deliver (valueResponse (bitsOf 64 s.req.bits)) s) := if_pos (validPattern_iff.mpr h)

theorem exec_decD_of_invalid {s : State} (h : ¬ IsBitString s.req.bits 64) :
    exec .decD s = .next (raise .badPattern none s) := if_neg (mt validPattern_iff.mp h)

/-- Settles O20: a bit string is the pattern of the datum it is read as. -/
theorem decDoubleReadsTheBits : Obligations.DecDoubleReadsTheBits := by
  intro s
  exact ⟨fun h => ⟨_, _, exec_decD_of_valid h, rfl, isBitPattern_bitsOf h⟩,
    fun h => ⟨_, exec_decD_of_invalid h, rfl⟩⟩

/-- Settles O22: ENC.D of a datum emits its bit string, and `bitsOf` is the inverse of `str_64`. -/
theorem doubleRoundTrip : Obligations.DoubleRoundTrip := by
  intro s h
  refine ⟨_, _, exec_encD_of_not_nan h, rfl, fun u hu => ?_⟩
  have valid : IsBitString u.req.bits 64 := hu ▸ validPattern_iff.mp (validPattern_bitString s.req.a)
  refine ⟨_, exec_decD_of_valid valid, ?_⟩
  rw [deliver_rsp, hu, bitsOf_bitString]
  rfl

/-! ### Widening (R94) -/

theorem extractLsb'_signBit (v : Binary32) : v.extractLsb' 31 1 = BitVec.ofBool (signBit .single v) := by
  apply BitVec.eq_of_getLsbD_eq
  intro i hi
  obtain rfl : i = 0 := by omega
  simp [signBit, Precision.width]

theorem toNat_append_eq {m n : ℕ} (x : BitVec m) (y : BitVec n) : (x ++ y).toNat = x.toNat * 2 ^ n + y.toNat := by
  rw [BitVec.toNat_append, ← Nat.shiftLeft_add_eq_or_of_lt y.isLt, Nat.shiftLeft_eq]

/-- A NaN keeps its sign and the low 22 bits of its payload, and its quiet bit is set. -/
theorem widen_nan {v : Binary32} (h : isNaN .single v = true) :
    widen v = BitVec.ofNat 64
      (pack .double (signBit .single v) (2 ^ 11 - 1) (2 ^ 51 + fracField .single v % 2 ^ 22 * 2 ^ 29)) := by
  unfold widen
  rw [if_pos h, extractLsb'_signBit]
  apply BitVec.eq_of_toNat_eq
  rw [BitVec.toNat_ofNat]
  simp only [toNat_append_eq, BitVec.extractLsb'_toNat, Nat.shiftRight_zero, fracField, pack, Precision.width,
    Precision.fracBits]
  cases signBit .single v <;> simp <;> omega

theorem widen_inf {v : Binary32} (h : isInf .single v = true) :
    widen v = BitVec.ofNat 64 (pack .double (signBit .single v) (2 ^ 11 - 1) 0) := by
  unfold widen
  rw [isInf_not_nan h, h, extractLsb'_signBit]
  cases signBit .single v <;> rfl

theorem widen_zero {v : Binary32} (h : isZero .single v = true) :
    widen v = BitVec.ofNat 64 (pack .double (signBit .single v) 0 0) := by
  have finite := isZero_isFinite h
  unfold widen
  rw [isFinite_not_nan finite, isFinite_not_inf finite, h, extractLsb'_signBit]
  cases signBit .single v <;> rfl

theorem widen_nonzero {v : Binary32} (finite : isFinite .single v = true) (h : isZero .single v = false) :
    widen v = rne64 (signBit .single v) (dyadicNum (intSig .single v) (lastPlace .single v))
      (dyadicDen (lastPlace .single v)) := by
  unfold widen
  rw [isFinite_not_nan finite, isFinite_not_inf finite, h]
  rfl

/-- Every finite Single datum has the same sign and magnitude at Double. -/
theorem widen_finite {v : Binary32} (finite : isFinite .single v = true) :
    signBit .double (widen v) = signBit .single v ∧ isFinite .double (widen v) = true ∧
      mag .double (widen v) = mag .single v := by
  cases h : isZero .single v
  · have rounds := rne64_dyadic (signBit .single v) (intSig .single v) (lastPlace .single v)
    rw [← widen_nonzero finite h] at rounds
    have place : -149 ≤ lastPlace .single v := emin_le_lastPlace .single v
    have small : mag .single v < 2 ^ (1024 : ℤ) :=
      (mag_lt finite).trans (zpow_lt_zpow_right₀ (by norm_num) (by decide))
    obtain ⟨finite', exact'⟩ := rounds.exact64 _ _ ((intSig_lt .single v).trans (by decide)) (by omega) small rfl
    exact ⟨rounds.sign, finite', exact'⟩
  · rw [widen_zero h, (mag_eq_zero_iff _ _).mpr h]
    have zero : mag .double (BitVec.ofNat 64 (pack .double (signBit .single v) 0 0)) = 0 := mag_zero rfl _
    exact ⟨signBit_zero rfl _, isZero_isFinite ((mag_eq_zero_iff _ _).mp zero), zero⟩

theorem finite_or_inf_of_not_nan {p : Precision} {w : ℕ} {v : BitVec w} (h : isNaN p v = false) :
    isFinite p v = true ∨ isInf p v = true := by
  unfold isNaN at h
  unfold isFinite isInf
  cases hE : expField p v == 2 ^ p.expBits - 1
  · exact .inl (by rw [bne, hE]; rfl)
  · rw [hE, Bool.true_and, bne_eq_false_iff_eq] at h
    exact .inr (by rw [h]; rfl)

theorem signBit_widen (v : Binary32) : signBit .double (widen v) = signBit .single v := by
  cases hn : isNaN .single v
  · rcases finite_or_inf_of_not_nan hn with finite | inf
    · exact (widen_finite finite).1
    · rw [widen_inf inf]
      exact signBit_pack rfl _ (by decide) (by decide)
  · rw [widen_nan hn]
    exact signBit_pack rfl _ (by decide) (by simp only [Precision.fracBits]; omega)

theorem isInf_widen {v : Binary32} (h : isInf .single v = true) : isInf .double (widen v) = true := by
  rw [widen_inf h]
  cases signBit .single v <;> decide

/-- Settles O21: the classes of the pattern, one by one. -/
theorem decSingleValue : Obligations.DecSingleValue := by
  intro s
  refine ⟨fun h => ?_, fun h => ⟨_, exec_decS_of_invalid h, rfl⟩⟩
  refine ⟨_, _, bitsOf 32 s.req.bits, exec_decS_of_valid h, rfl, isBitPattern_bitsOf h, signBit_widen _, fun finite => ?_,
    isInf_widen, fun nan => ?_⟩
  · obtain ⟨sign, finite', magnitude⟩ := widen_finite finite
    exact ⟨finite', by rw [val_eq, val_eq, sign, magnitude]⟩
  · have fits : 2 ^ 51 + fracField .single (bitsOf 32 s.req.bits) % 2 ^ 22 * 2 ^ 29 < 2 ^ 52 := by omega
    rw [widen_nan nan]
    exact ⟨expField_pack rfl _ (by decide) fits, fracField_pack rfl _ (by decide) fits⟩

/-! ### There and back at Single (R83, R94) -/

theorem infinity32 {v : Binary32} (h : isInf .single v = true) :
    v = if signBit .single v then 0xFF800000#32 else 0x7F800000#32 := by
  have fields (s : Bool) : signBit .single (if s then 0xFF800000#32 else 0x7F800000#32) = s ∧
      expField .single (if s then 0xFF800000#32 else 0x7F800000#32) = 2 ^ 8 - 1 ∧
      fracField .single (if s then 0xFF800000#32 else 0x7F800000#32) = 0 := by cases s <;> decide
  obtain ⟨sign, exponent, fraction⟩ := fields (signBit .single v)
  obtain ⟨hE, hF⟩ := Bool.and_eq_true_iff.mp h
  exact ext_fields (p := .single) rfl sign.symm ((beq_iff_eq.mp hE).trans exponent.symm)
    ((beq_iff_eq.mp hF).trans fraction.symm)

/-- A Single datum is the one nearest its own value. -/
theorem cvtS_widen {v : Binary32} (h : isNaN .single v = false) : cvtS (widen v) = v := by
  rcases finite_or_inf_of_not_nan h with finite | inf
  · obtain ⟨sign, finite', magnitude⟩ := widen_finite finite
    have rounds := cvtS_spec finite'
    rw [sign, magnitude] at rounds
    exact ext_mag (p := .single) rfl rounds.sign (rounds.exact finite rfl (mag_lt_overflowThreshold finite))
  · rw [cvtS_inf (isInf_widen inf), signBit_widen, ← infinity32 inf]

theorem isNaN_widen {v : Binary32} (h : isNaN .single v = false) : isNaN .double (widen v) = false := by
  rcases finite_or_inf_of_not_nan h with finite | inf
  · exact isFinite_not_nan (widen_finite finite).2.1
  · exact isInf_not_nan (isInf_widen inf)

/-- Settles O23: `CvtS` undoes the widening, and `str_32` undoes `bitsOf`. -/
theorem singleRoundTrip : Obligations.SingleRoundTrip := by
  intro s bits h
  refine ⟨_, _, exec_decS_of_valid bits, rfl, fun u hu => ?_⟩
  have notNaN : isNaN .double u.req.a = false := hu ▸ isNaN_widen h
  refine ⟨_, exec_encS_of_not_nan notNaN, ?_⟩
  rw [deliver_rsp, hu, cvtS_widen h, bitString_bitsOf (validPattern_iff.mpr bits)]
  rfl

/-! ### What the Codec reads and writes (R88) -/

/-- The response of a DEC request to a pattern of width `w` (R93 to R95). -/
def decResponse (w : ℕ) (value : BitVec w → Binary64) (bits : Str) : Response :=
  if validPattern bits w then valueResponse (value (bitsOf w bits)) else { status := .badPattern }

theorem exec_decS (s : State) : exec .decS s = .next (deliver (decResponse 32 widen s.req.bits) s) := by
  unfold decResponse
  by_cases h : IsBitString s.req.bits 32
  · rw [exec_decS_of_valid h, if_pos (validPattern_iff.mpr h)]
  · rw [exec_decS_of_invalid h, if_neg (mt validPattern_iff.mp h)]
    rfl

theorem exec_decD (s : State) : exec .decD s = .next (deliver (decResponse 64 id s.req.bits) s) := by
  unfold decResponse
  by_cases h : IsBitString s.req.bits 64
  · rw [exec_decD_of_valid h, if_pos (validPattern_iff.mpr h)]
    rfl
  · rw [exec_decD_of_invalid h, if_neg (mt validPattern_iff.mp h)]
    rfl

/-- Settles O25: every Codec opcode delivers a response made of the request and the parameters. -/
theorem codecTouchesOnlyTheResponse : Obligations.CodecTouchesOnlyTheResponse := by
  intro s i hi
  have delivers (f : Params → Request → Response) (h : ∀ u, exec i u = .next (deliver (f u.params u.req) u)) :
      ∃ r, ∀ u : State, u.req = s.req → u.params = s.params →
        exec i u = .next { u with stage := .idle, building := none, rsp := some r } :=
    ⟨f s.params s.req, fun u req params => by rw [← req, ← params]; exact h u⟩
  simp only [List.mem_cons, List.not_mem_nil, or_false] at hi
  rcases hi with rfl | rfl | rfl | rfl | rfl | rfl
  · exact delivers (fun p r => patternResponse (encSinglePattern p.nanMode r.a)) (exec_eq_next .encS)
  · exact delivers (fun p r => patternResponse (encDoublePattern p.nanMode r.a)) (exec_eq_next .encD)
  · exact delivers (fun _ r => fieldsResponse (splitFields r.bits 8 23 127)) (exec_eq_next .splitS)
  · exact delivers (fun _ r => fieldsResponse (splitFields r.bits 11 52 1023)) (exec_eq_next .splitD)
  · exact delivers (fun _ r => decResponse 32 widen r.bits) exec_decS
  · exact delivers (fun _ r => decResponse 64 id r.bits) exec_decD

end Sys2Proof.Machine
end

section
/-! Runs from a datapath in range (spec/41_simulator.md R121, R145 to R147; log 8): every transition keeps the invariant,
and under it every transition applies the binary64 operators only where R84 defines them. -/

namespace Sys2Proof.Machine

/-! ### Every step keeps the datapath in range -/

theorem datapathInvariant_of_idle {s : State} (h : s.stage = .idle) : DatapathInvariant s :=
  ⟨fun busy => absurd h busy, by rw [h]; trivial⟩

theorem execState_stage (i : Instr) (s : State) : (execState i s).stage = .idle := by
  cases i with
  | encS | encD | splitS | splitD => exact deliver_stage _ s
  | decS | decD =>
    unfold execState
    dsimp only
    split
    · exact deliver_stage _ s
    · exact raise_stage _ _ s
  | simAdd => exact (simulate_idle .add s).2
  | simSub => exact (simulate_idle .sub s).2
  | simMul => exact (simulate_idle .mul s).2
  | simDiv => exact (simulate_idle .div s).2

/-- A transition keeps the request, so it keeps the invariant when it leaves the datapath in range for its next stage. -/
theorem datapathInvariant_advance_of_ranges {s : State} {target : Stage} (h : DatapathInvariant s) (hi : s.stage ≠ .idle)
    (hd : s.stage ≠ .done) (stage : (advance s).stage = target) (ranges : DatapathAt (currentOp s) (advance s) target) :
    DatapathInvariant (advance s) := by
  have req := (advance_stageFrame hi hd).req
  have op : currentOp (advance s) = currentOp s := by unfold currentOp; rw [req]
  exact ⟨fun _ => by rw [req]; exact h.request hi, by rw [stage, op]; exact ranges⟩

theorem advance_datapathInvariant {s : State} (h : DatapathInvariant s) (hi : s.stage ≠ .idle) :
    DatapathInvariant (advance s) := by
  obtain ⟨_, finiteA, finiteB⟩ := h.request hi
  have ranges := h.ranges
  have keep {target : Stage} (busy : s.stage ≠ .done) := datapathInvariant_advance_of_ranges (target := target) h hi busy
  cases hs : s.stage with
  | idle => exact absurd hs hi
  | extract =>
    rw [advance_extract hs] at keep ⊢
    exact keep (by rw [hs]; decide) rfl (extract_datapath _ s)
  | align =>
    rw [hs] at ranges
    rw [advance_align hs] at keep ⊢
    exact keep (by rw [hs]; decide) (combineExponents_frame _ s).stage (combineExponents_datapath finiteA finiteB ranges)
  | compute =>
    rw [hs] at ranges
    rw [advance_compute hs] at keep ⊢
    exact keep (by rw [hs]; decide) (computeStage_frame _ s).stage (computeStage_datapath finiteA finiteB ranges)
  | normalize =>
    rw [hs] at ranges
    rw [advance_normalize hs] at keep ⊢
    rcases normalizeStage_datapath _ ranges with ⟨done, ranges'⟩ | ⟨final, ranges'⟩
    · exact keep (by rw [hs]; decide) done ranges'
    · exact keep (by rw [hs]; decide) final ranges'
  | final =>
    rw [advance_final hs] at keep ⊢
    exact keep (by rw [hs]; decide) rfl rfl
  | done => exact datapathInvariant_of_idle (by rw [advance_done hs]; rfl)

theorem step_datapathInvariant {s t : State} (h : DatapathInvariant s) (hs : step s = .next t) : DatapathInvariant t := by
  rcases step_cases s with ⟨rest, _, e⟩ | ⟨r, rest, i, _, _, _, e⟩ | ⟨r, rest, err, _, _, _, e⟩ | ⟨_, _, e⟩ |
    ⟨hi, _, e⟩ | ⟨_, _, e⟩
  all_goals rw [e] at hs; cases hs
  · exact datapathInvariant_of_idle (blockReset_stage _)
  · exact datapathInvariant_of_idle (execState_stage i _)
  · exact datapathInvariant_of_idle (raise_stage _ _ _)
  · exact h
  · exact advance_datapathInvariant h hi

/-! ### A datapath in range is one R84 covers -/

theorem Extracted.finite {s : State} (h : Extracted s) (ha : isFinite .double s.req.a = true)
    (hb : isFinite .double s.req.b = true) : isFinite .double s.sigA = true ∧ isFinite .double s.sigB = true := by
  rw [h.sigA, h.opA, h.sigB, h.opB]
  exact ⟨(decompose_workingSig ha).1, (decompose_workingSig hb).1⟩

/-- Raw exponents lie in [-127, 128] (R145), so they differ by at most 255. -/
theorem Extracted.alignDiff_le {s : State} (h : Extracted s) : alignDiff s ≤ 1023 := by
  have rangeA := decompose_exp_range s.req.a
  have rangeB := decompose_exp_range s.req.b
  rw [← h.opA] at rangeA
  rw [← h.opB] at rangeB
  unfold alignDiff
  omega

theorem SignFactor.test {x : Binary64} (h : SignFactor x) : (x == one64 || x == negOne64) = true := by
  rcases h with rfl | rfl <;> rfl

/-- The significands Compute reads are finite for every operation. -/
theorem finite_of_datapathAt_compute {op : SimOp} {s : State} (h : DatapathAt op s .compute)
    (ha : isFinite .double s.req.a = true) (hb : isFinite .double s.req.b = true) :
    isFinite .double s.sigA = true ∧ isFinite .double s.sigB = true := by
  obtain ⟨_, _, h⟩ := h
  cases op with
  | add | sub =>
    obtain ⟨⟨workingA, workingB, _⟩, _⟩ := h
    exact ⟨workingA.1, workingB.1⟩
  | mul | div => exact h.1.finite ha hb

theorem stageDefined_of_datapathInvariant {s : State} (h : DatapathInvariant s) (hi : s.stage ≠ .idle) :
    stageDefined s = true := by
  obtain ⟨unit, finiteA, finiteB⟩ := h.request hi
  have ranges := h.ranges
  unfold stageDefined
  rw [unit, beq_self_eq_true, Bool.true_and]
  cases hs : s.stage with
  | idle => rfl
  | extract => rw [finiteA, finiteB]; rfl
  | align =>
    rw [hs] at ranges
    obtain ⟨extracted, _, _⟩ := ranges
    obtain ⟨finiteSigA, finiteSigB⟩ := extracted.finite finiteA finiteB
    rw [finiteSigA, finiteSigB, decide_eq_true extracted.alignDiff_le]
    rfl
  | compute =>
    rw [hs] at ranges
    obtain ⟨finiteSigA, finiteSigB⟩ := finite_of_datapathAt_compute ranges finiteA finiteB
    rw [finiteSigA, finiteSigB, ranges.1.test, ranges.2.1.test]
    rfl
  | normalize =>
    rw [hs] at ranges
    obtain ⟨finite, sign, _⟩ := ranges
    rw [finite, sign, Bool.not_false, Bool.and_self, Bool.or_true]
  | final =>
    rw [hs] at ranges
    obtain ⟨_, _, _, _, _, _, _, divisor⟩ := ranges
    rw [finiteA, finiteB]
    cases op : currentOp s with
    | add | sub | mul => rfl
    | div => rw [divisor op]; rfl
  | done => rw [hs] at ranges; exact ranges

theorem stepSafe_of_datapathInvariant {s : State} (h : DatapathInvariant s) : StepSafe s := by
  rcases step_cases s with ⟨_, _, e⟩ | ⟨_, _, _, _, _, _, e⟩ | ⟨_, _, _, _, _, _, e⟩ | ⟨_, _, e⟩ | ⟨_, _, e⟩ |
    ⟨hi, undefined, _⟩
  · exact ⟨_, e⟩
  · exact ⟨_, e⟩
  · exact ⟨_, e⟩
  · exact ⟨_, e⟩
  · exact ⟨_, e⟩
  · rw [stageDefined_of_datapathInvariant h hi] at undefined
    exact absurd undefined (by decide)

theorem ReachableFrom.datapathInvariant {s t : State} (h : DatapathInvariant s) (run : ReachableFrom s t) :
    DatapathInvariant t := by
  induction run with
  | refl => exact h
  | next _ hs ih => exact step_datapathInvariant ih hs

/-- Settles O57: the invariant holds along the run, and under it no step is refused. -/
theorem runsNeverStop : Obligations.RunsNeverStop :=
  fun _ h _ run => stepSafe_of_datapathInvariant (run.datapathInvariant h)

end Sys2Proof.Machine
end

section
/-! What every step keeps (spec/41_simulator.md R121, R148; spec/10_state.md R29; spec/60_exceptions.md R187): the log of a
request in progress is the beginning of a path of its operation, DONE holds the response that was built from the log, and
every response delivered has a legal shape. -/

namespace Sys2Proof.Machine

/-! ### One stage at a time -/

/-- The response being built holds the whole log, under one of the shapes of R148. -/
def Built (s : State) : Prop :=
  ∃ r res, s.building = some r ∧ OkShape r ∧ r.result = some res ∧ res.steps = s.log

theorem Built.responseShape {s : State} (h : Built s) : ∃ r, s.building = some r ∧ ResponseShape r := by
  obtain ⟨r, _, building, shape, _⟩ := h
  exact ⟨r, building, .ok r shape⟩

theorem extract_path (op : SimOp) {s : State} (h : kinds s.log ∈ partialPaths op .extract) :
    kinds (extract op s).log ∈ partialPaths op .align := by
  have empty : kinds s.log = [] := List.mem_singleton.mp h
  rw [extract, emit_log, kinds_snoc, empty]
  exact List.mem_singleton_self _

theorem combineExponents_path {op : SimOp} {s : State} (h : kinds s.log ∈ partialPaths op .align) :
    kinds (combineExponents op s).log ∈ partialPaths op .compute := by
  obtain ⟨st, log, kind⟩ := (combineExponents_frame op s).kind
  rw [log, kinds_snoc]
  exact path_compute h kind

theorem computeStage_path {op : SimOp} {s : State} (h : kinds s.log ∈ partialPaths op .compute) :
    kinds (computeStage op s).log ∈ partialPaths op .normalize := by
  obtain ⟨st, log, kind⟩ := computeStage_kind op s
  rw [log, kinds_snoc, kind]
  exact path_normalize h

theorem finishZero_log (op : SimOp) (s : State) :
    (finishZero op s).log = s.log ++ [{ title := Config.titleOf .finishZero op, payload := .finishZero }] := rfl

theorem finishZero_path {op : SimOp} {s : State} (h : kinds s.log ∈ partialPaths op .normalize) :
    kinds (finishZero op s).log ∈ zeroPaths op := by
  rw [finishZero_log, kinds_snoc]
  exact path_zero h

theorem finishZero_built {op : SimOp} {s : State} (h : kinds s.log ∈ partialPaths op .normalize) :
    Built (finishZero op s) ∧ kinds (finishZero op s).log ∈ partialPaths op .done :=
  have path := finishZero_path h
  ⟨⟨_, _, rfl, .zero op _ path, rfl, rfl⟩, List.mem_append_right _ path⟩

/-- What the Final step reports (R138). -/
def finalPayload (op : SimOp) (s : State) : StepPayload :=
  .final (literalResult op s.req.a s.req.b) s.rsgn (s.exp + 127) s.sig (finalText s.rsgn (s.exp + 127) s.sig)

theorem finalStage_log (op : SimOp) (s : State) :
    (finalStage op s).log = s.log ++ [{ title := Config.titleOf .final op, payload := finalPayload op s }] := rfl

theorem finalStage_path {op : SimOp} {s : State} (h : kinds s.log ∈ partialPaths op .final) :
    kinds (finalStage op s).log ∈ normalPaths op := by
  rw [finalStage_log, kinds_snoc]
  exact path_normal h

theorem finalStage_built {op : SimOp} {s : State} (h : kinds s.log ∈ partialPaths op .final) :
    Built (finalStage op s) ∧ kinds (finalStage op s).log ∈ partialPaths op .done :=
  have path := finalStage_path h
  ⟨⟨_, _, rfl, .final op _ _ path, rfl, rfl⟩, List.mem_append_left _ path⟩

/-- Normalize ends the request by the zero exit or hands it to Final with a log that Final completes. -/
theorem normalizeStage_path {op : SimOp} {s : State} (h : kinds s.log ∈ partialPaths op .normalize) :
    ((normalizeStage op s).stage = .done ∧ Built (normalizeStage op s) ∧
      kinds (normalizeStage op s).log ∈ partialPaths op .done) ∨
    ((normalizeStage op s).stage = .final ∧ (normalizeStage op s).building = s.building ∧
      kinds (normalizeStage op s).log ∈ partialPaths op .final) := by
  rcases normalizeStage_exits op s with ⟨_, e⟩ | ⟨_, stage, building, st, log, kind⟩
  · rw [e]
    exact .inl ⟨rfl, finishZero_built h⟩
  · rw [log, kinds_snoc]
    exact .inr ⟨stage, building, path_final h kind⟩

/-! ### Whole requests -/

theorem throughCompute_path (op : SimOp) (s : State) :
    kinds (throughCompute op s).log ∈ partialPaths op .normalize :=
  computeStage_path (combineExponents_path (extract_path op (List.mem_singleton.mpr rfl)))

theorem runStages_response (op : SimOp) (s : State) : ∃ r, (runStages op s).rsp = some r ∧ ResponseShape r := by
  rw [runStages_eq, deliverBuilt_rsp]
  rcases normalizeStage_path (throughCompute_path op s) with ⟨stage, built, _⟩ | ⟨stage, _, path⟩
  · rw [finalUnlessDone_of_done stage]
    exact built.responseShape
  · rw [finalUnlessDone_of_final stage]
    exact (finalStage_built path).1.responseShape

theorem simulate_response (op : SimOp) (s : State) : ∃ r, (simulate op s).rsp = some r ∧ ResponseShape r := by
  rcases simulate_cases op s with ⟨which, e⟩ | e
  · rw [e]
    exact ⟨_, raise_rsp _ _ s, .nonfiniteOperand which⟩
  · rw [e]
    exact runStages_response op s

theorem length_nanPattern (mode : NanMode) (p : Precision) : (nanPattern mode p).length = p.width := by
  cases mode <;> cases p <;> rfl

theorem length_encSinglePattern (mode : NanMode) (x : Binary64) :
    (encSinglePattern mode x).length = Precision.width .single := by
  unfold encSinglePattern
  split
  · exact length_nanPattern mode .single
  · exact length_bitString _

theorem length_encDoublePattern (mode : NanMode) (x : Binary64) :
    (encDoublePattern mode x).length = Precision.width .double := by
  unfold encDoublePattern
  split
  · exact length_nanPattern mode .double
  · exact length_bitString _

theorem splitFields_shape (p : Precision) (bits : Str) {f : FieldBreakdown}
    (h : f = splitFields bits p.expBits p.fracBits p.bias) : ResponseShape (fieldsResponse f) := by
  subst h
  obtain ⟨sign, exponent, mantissa, _, bias⟩ := splitFields_fieldsOf bits p.expBits p.fracBits p.bias
  exact .ok _ (.fields p _ sign exponent mantissa bias)

/-- Every opcode delivers one response, of a legal shape (R23, R187). -/
theorem execState_response (i : Instr) (s : State) : ∃ r, (execState i s).rsp = some r ∧ ResponseShape r := by
  cases i with
  | encS => exact ⟨_, rfl, .ok _ (.pattern .single _ (length_encSinglePattern _ _))⟩
  | encD => exact ⟨_, rfl, .ok _ (.pattern .double _ (length_encDoublePattern _ _))⟩
  | splitS => exact ⟨_, rfl, splitFields_shape .single _ rfl⟩
  | splitD => exact ⟨_, rfl, splitFields_shape .double _ rfl⟩
  | simAdd => exact simulate_response .add s
  | simSub => exact simulate_response .sub s
  | simMul => exact simulate_response .mul s
  | simDiv => exact simulate_response .div s
  | decS | decD =>
    unfold execState
    dsimp only
    split
    · exact ⟨_, rfl, .ok _ (.value _)⟩
    · exact ⟨_, rfl, .badPattern⟩

theorem execState_building (i : Instr) (s : State) : (execState i s).building = none := by
  cases i with
  | encS | encD | splitS | splitD => exact deliver_building _ s
  | decS | decD =>
    unfold execState
    dsimp only
    split
    · exact deliver_building _ s
    · exact raise_building _ _ s
  | simAdd => exact (simulate_idle .add s).1
  | simSub => exact (simulate_idle .sub s).1
  | simMul => exact (simulate_idle .mul s).1
  | simDiv => exact (simulate_idle .div s).1

/-! ### The invariant -/

/-- An idle block has no log in progress and builds nothing, so only its delivered response is in question. -/
theorem logInvariant_of_idle {s : State} (stage : s.stage = .idle) (building : s.building = none)
    (delivered : ∀ r, s.rsp = some r → ResponseShape r) : LogInvariant s where
  delivered := delivered
  built done := by rw [stage] at done; exact absurd done (by decide)
  notBuilt _ := building
  inProgress busy := absurd stage busy

theorem logInvariant_of_response {s : State} (stage : s.stage = .idle) (building : s.building = none)
    (response : ∃ r, s.rsp = some r ∧ ResponseShape r) : LogInvariant s := by
  obtain ⟨r, rsp, shape⟩ := response
  refine logInvariant_of_idle stage building fun r' rsp' => ?_
  rw [rsp] at rsp'
  cases rsp'
  exact shape

/-- A transition keeps the invariant when its log fits the stage it leads to, and it builds the response exactly when that
stage is DONE. -/
theorem logInvariant_advance {s : State} {target : Stage} (h : LogInvariant s) (hi : s.stage ≠ .idle)
    (hd : s.stage ≠ .done) (stage : (advance s).stage = target) (built : target = .done → Built (advance s))
    (kept : target ≠ .done → (advance s).building = s.building)
    (path : kinds (advance s).log ∈ partialPaths (currentOp s) target) : LogInvariant (advance s) := by
  have frame := advance_stageFrame hi hd
  have op : currentOp (advance s) = currentOp s := by unfold currentOp; rw [frame.req]
  subst stage
  refine ⟨fun r => by rw [frame.rsp]; exact h.delivered r, built, fun busy => (kept busy).trans (h.notBuilt hd),
    fun _ => ⟨?_, by rw [op]; exact path⟩⟩
  rw [frame.req]
  exact (h.inProgress hi).1

theorem advance_logInvariant {s : State} (h : LogInvariant s) (hi : s.stage ≠ .idle) : LogInvariant (advance s) := by
  obtain ⟨_, path⟩ := h.inProgress hi
  have keep {target : Stage} (hd : s.stage ≠ .done) := logInvariant_advance (target := target) h hi hd
  cases hs : s.stage with
  | idle => exact absurd hs hi
  | extract =>
    rw [hs] at path
    rw [advance_extract hs] at keep ⊢
    exact keep (target := .align) (by rw [hs]; decide) rfl nofun (fun _ => rfl) (extract_path _ path)
  | align =>
    rw [hs] at path
    rw [advance_align hs] at keep ⊢
    have frame := combineExponents_frame (currentOp s) s
    exact keep (by rw [hs]; decide) frame.stage nofun (fun _ => frame.building) (combineExponents_path path)
  | compute =>
    rw [hs] at path
    rw [advance_compute hs] at keep ⊢
    have frame := computeStage_frame (currentOp s) s
    exact keep (by rw [hs]; decide) frame.stage nofun (fun _ => frame.building) (computeStage_path path)
  | normalize =>
    rw [hs] at path
    rw [advance_normalize hs] at keep ⊢
    rcases normalizeStage_path path with ⟨stage, built, path'⟩ | ⟨stage, building, path'⟩
    · exact keep (by rw [hs]; decide) stage (fun _ => built) (absurd rfl) path'
    · exact keep (by rw [hs]; decide) stage nofun (fun _ => building) path'
  | final =>
    rw [hs] at path
    rw [advance_final hs] at keep ⊢
    obtain ⟨built, path'⟩ := finalStage_built path
    exact keep (target := .done) (by rw [hs]; decide) rfl (fun _ => built) (absurd rfl) path'
  | done =>
    rw [advance_done hs]
    exact logInvariant_of_response (deliverBuilt_stage s) (deliverBuilt_building s) (Built.responseShape (h.built hs))

/-- Settles O53: a reset clears the responses, a request served whole delivers a legal one, and every transition extends
the log along its path. -/
theorem stepKeepsLogInvariant : Obligations.StepKeepsLogInvariant := by
  intro s t h hs
  rcases step_cases s with ⟨rest, _, e⟩ | ⟨r, rest, i, _, _, _, e⟩ | ⟨r, rest, err, _, _, _, e⟩ | ⟨_, _, e⟩ |
    ⟨hi, _, e⟩ | ⟨_, _, e⟩
  all_goals rw [e] at hs; cases hs
  · exact logInvariant_of_idle (blockReset_stage _) (blockReset_building _) fun r none => by cases none
  · exact logInvariant_of_response (execState_stage i _) (execState_building i _) (execState_response i _)
  · exact logInvariant_of_response (raise_stage _ _ _) (raise_building _ _ _) ⟨_, raise_rsp _ _ _, .illegalCmd⟩
  · exact h
  · exact advance_logInvariant h hi

/-- Settles O55: resets and requests served whole leave the block idle, and every transition leaves the datapath in range
for its next stage. -/
theorem stepKeepsDatapathInvariant : Obligations.StepKeepsDatapathInvariant :=
  fun _ _ h hs => step_datapathInvariant h hs

end Sys2Proof.Machine
end

section
/-! The sequencer (spec/41_simulator.md R121; spec/70_reset_and_hazards.md R203, R206; log 8): the order of the stages, a
request run one transition per step, and what a response depends on. -/

namespace Sys2Proof.Machine

/-! ### One step -/

/-- Settles O6: no reset is next and the block is busy, so the step is a transition, and its stage is defined. -/
theorem stepAdvancesRequestInProgress : Obligations.StepAdvancesRequestInProgress := by
  intro s busy noReset defined
  unfold step
  rw [poll_advance busy noReset]
  exact if_pos defined

/-- The state that serving the request in the request register leaves. -/
def serve (s : State) : State :=
  match decode s.params.hasDec s.req.cmd with
  | .ok i => execState i s
  | .error _ => illegalCommand s

theorem serve_of_decode_ok {s : State} {i : Instr} (h : decode s.params.hasDec s.req.cmd = .ok i) :
    serve s = execState i s := by
  unfold serve; rw [h]

theorem serve_of_decode_error {s : State} {e : DecodeError} (h : decode s.params.hasDec s.req.cmd = .error e) :
    serve s = illegalCommand s := by
  unfold serve; rw [h]

/-- An idle block serves the host's next request whole. -/
theorem step_serve {s : State} {r : Request} {rest : List HostEvent} (idle : s.stage = .idle)
    (host : s.host = .request r :: rest) : step s = .next (serve { s with req := r, host := rest }) := by
  unfold step
  rw [poll_serve idle host]
  dsimp only
  cases decoded : decode s.params.hasDec r.cmd with
  | ok i => rw [serve_of_decode_ok (i := i) decoded]; exact exec_eq_next i _
  | error e => rw [serve_of_decode_error (e := e) decoded]

/-! ### What a response depends on (R21, R149) -/

theorem sameReadFields_of_eq (i : Instr) {r q : Request} (h : r = q) : SameReadFields i r q := by
  subst h
  cases i with
  | encS | encD | splitS | splitD | decS | decD => rfl
  | simAdd | simSub | simMul | simDiv => exact ⟨rfl, rfl⟩

theorem serve_rsp_eq {s u : State} (params : s.params = u.params) (req : s.req = u.req) : (serve s).rsp = (serve u).rsp := by
  cases decoded : decode s.params.hasDec s.req.cmd with
  | ok i =>
    rw [serve_of_decode_ok decoded, serve_of_decode_ok (by rw [← params, ← req]; exact decoded)]
    exact execState_rsp_eq params (sameReadFields_of_eq i req)
  | error e =>
    rw [serve_of_decode_error decoded, serve_of_decode_error (by rw [← params, ← req]; exact decoded)]
    rfl

/-- Every request is answered with a response of a legal shape. -/
theorem serve_response (s : State) : ∃ r, (serve s).rsp = some r ∧ ResponseShape r := by
  cases decoded : decode s.params.hasDec s.req.cmd with
  | ok i => rw [serve_of_decode_ok decoded]; exact execState_response i s
  | error e => rw [serve_of_decode_error decoded]; exact ⟨_, raise_rsp _ _ s, .illegalCmd⟩

/-- Settles O51: both blocks serve the request, and what serving delivers reads the request and the parameters alone. -/
theorem responseDependsOnRequestAlone : Obligations.ResponseDependsOnRequestAlone := by
  intro s u s' u' r rest rest' idleS idleU params hostS hostU stepS stepU
  rw [step_serve idleS hostS] at stepS
  rw [step_serve idleU hostU] at stepU
  cases stepS
  cases stepU
  obtain ⟨response, delivered, _⟩ := serve_response { s with req := r, host := rest }
  exact ⟨serve_rsp_eq params rfl, by rw [delivered]; exact Option.some_ne_none _⟩

/-! ### The order of the stages (R121) -/

/-- Settles O48: each transition by its stage; Normalize has the one branch. -/
theorem stagesFollowTheirOrder : Obligations.StagesFollowTheirOrder := by
  intro s
  refine ⟨simEntry_stage s, fun h => ?_, fun h => ?_, fun h => ?_, fun h zero => ?_, fun h nonzero => ?_, fun h => ?_,
    fun h => ?_⟩
  · rw [advance_extract h]; rfl
  · rw [advance_align h]; exact (combineExponents_frame _ s).stage
  · rw [advance_compute h]; exact (computeStage_frame _ s).stage
  · rw [advance_normalize h]
    rcases normalizeStage_exits (currentOp s) s with ⟨_, e⟩ | ⟨e, _⟩
    · rw [e]; rfl
    · exact absurd (zero.symm.trans e) (by decide)
  · rw [advance_normalize h]
    rcases normalizeStage_exits (currentOp s) s with ⟨e, _⟩ | ⟨_, stage, _⟩
    · exact absurd (nonzero.symm.trans e) (by decide)
    · exact stage
  · rw [advance_final h]; rfl
  · rw [advance_done h]; rfl

/-! ### A request run one transition per step (R121, R203, R205) -/

/-- A SIM request for `op` in progress, with its datapath in range and no reset next. -/
structure Underway (op : SimOp) (s : State) : Prop where
  invariant : DatapathInvariant s
  noReset : ∀ rest, s.host ≠ .reset :: rest
  op : currentOp s = op

theorem run_succ {M : Host.Core} {s t : M.State} (h : M.step s = .next t) (n : ℕ) : M.run (n + 1) s = M.run n t := by
  rw [Host.Core.run, h]

theorem Underway.step_eq {op : SimOp} {s : State} (h : Underway op s) (busy : s.stage ≠ .idle) :
    step s = .next (stageStep op s) := by
  rw [← h.op]
  exact stepAdvancesRequestInProgress s busy h.noReset (stageDefined_of_datapathInvariant h.invariant busy)

/-- A step of a request under way is the transition of its stage, and leaves it under way. -/
theorem Underway.run_stage {op : SimOp} {s u : State} {st : Stage} (h : Underway op s) (stage : s.stage = st)
    (busy : st ≠ .idle) (notDone : st ≠ .done) (next : stageStep op s = u) :
    Underway op u ∧ ∀ n, Host.Core.run Sys2Proof.core (n + 1) s = Host.Core.run Sys2Proof.core n u := by
  rw [← stage] at busy notDone
  have step := h.step_eq busy
  have advanced : advance s = u := by rw [← next, ← h.op]; rfl
  have frame := advance_stageFrame busy notDone
  have invariant := advance_datapathInvariant h.invariant busy
  rw [advanced] at frame invariant
  refine ⟨⟨invariant, by rw [frame.host]; exact h.noReset, ?_⟩, run_succ (M := Sys2Proof.core) (next ▸ step)⟩
  rw [← h.op]
  unfold currentOp
  rw [frame.req]

/-- The last step delivers the response. -/
theorem Underway.run_done {op : SimOp} {s : State} (h : Underway op s) (done : s.stage = .done) :
    Host.Core.run Sys2Proof.core 1 s = .next (deliverBuilt s) := by
  have step := h.step_eq (by rw [done]; decide)
  unfold stageStep at step
  rw [done] at step
  exact run_succ (M := Sys2Proof.core) step 0

theorem simOpOfSel_sel (op : SimOp) : simOpOfSel (Instr.ofSimOp op).sel = op := by cases op <;> rfl

/-- The entry check leaves a request under way. -/
theorem underway_simEntry {op : SimOp} {s : State} (decoded : decode s.params.hasDec s.req.cmd = .ok (Instr.ofSimOp op))
    (finite : FiniteOperands s.req) (noReset : ∀ rest, s.host ≠ .reset :: rest) : Underway op (simEntry s) := by
  obtain ⟨unit, sel, _⟩ := fields_of_decode_ok decoded
  rw [unit_ofSimOp] at unit
  refine ⟨⟨fun _ => ⟨unit, finite⟩, trivial⟩, noReset, ?_⟩
  rw [currentOp, simEntry_req, sel, simOpOfSel_sel]

/-- Settles O50: five steps through the zero exit, six through Final, each the stage that `runStages` chains. -/
theorem stepwiseRunEqualsWholeRequest : Obligations.StepwiseRunEqualsWholeRequest := by
  intro s op _ _ decoded finite noReset
  have stage1 : (extract op (simEntry s)).stage = .align := rfl
  have stage2 := (combineExponents_frame op (extract op (simEntry s))).stage
  have stage3 : (throughCompute op s).stage = .normalize :=
    (computeStage_frame op (combineExponents op (extract op (simEntry s)))).stage
  obtain ⟨underway1, run1⟩ := (underway_simEntry decoded finite noReset).run_stage (u := extract op (simEntry s))
    (simEntry_stage s) (by decide) (by decide) rfl
  obtain ⟨underway2, run2⟩ := underway1.run_stage (u := combineExponents op (extract op (simEntry s)))
    stage1 (by decide) (by decide) rfl
  obtain ⟨underway3, run3⟩ := underway2.run_stage (u := throughCompute op s) stage2 (by decide) (by decide)
    (by unfold stageStep; rw [stage2]; rfl)
  obtain ⟨underway4, run4⟩ := underway3.run_stage (u := normalizeStage op (throughCompute op s)) stage3 (by decide)
    (by decide) (by unfold stageStep; rw [stage3])
  have whole : exec (Instr.ofSimOp op) s = .next (runStages op s) := by
    rw [exec_ofSimOp, simulate_finite finite.1 finite.2]
  rw [runStages_eq] at whole
  rcases normalizeStage_exits op (throughCompute op s) with ⟨_, zeroExit⟩ | ⟨_, final, _⟩
  · have done : (normalizeStage op (throughCompute op s)).stage = .done := by rw [zeroExit]; rfl
    rw [finalUnlessDone_of_done done] at whole
    refine ⟨_, 5, .inl rfl, whole, ?_⟩
    rw [run1, run2, run3, run4, underway4.run_done done]
  · rw [finalUnlessDone_of_final final] at whole
    obtain ⟨underway5, run5⟩ := underway4.run_stage (u := finalStage op (normalizeStage op (throughCompute op s)))
      final (by decide) (by decide) (by unfold stageStep; rw [final])
    refine ⟨_, 6, .inr rfl, whole, ?_⟩
    rw [run1, run2, run3, run4, run5, underway5.run_done rfl]

end Sys2Proof.Machine
end

section
/-! The numerics of the stages (spec/41_simulator.md R122 to R133, R146): what Extract records, the aligned significands
with their signs, and when their sum is exact. -/

namespace Sys2Proof.Machine

/-! ### The record of an operand (R122 to R124) -/

theorem isOperandOf_decompose {x : Binary64} (hx : isFinite .double x = true) :
    IsOperandOf x (cvtS x) (decompose x) where
  value := rfl
  bits := isBitPattern_bitString (cvtS x)
  sgn := by
    have head := getElem_bitString (cvtS x) (i := 0) (by decide)
    rw [decompose_sgn hx, ← (cvtS_spec hx).sign, decompose_bits]
    exact head
  exp := decompose_exp x
  sigZero hz := by
    refine ⟨decompose_sig_zero hx hz, ?_⟩
    unfold decompose
    dsimp only
    rw [zeroValued_iff hx, hz]
    rfl
  sigOne hz := by
    obtain ⟨finite, _, value⟩ := decompose_sig hx hz
    exact ⟨finite, value⟩
  sigText hz := by
    unfold decompose
    dsimp only
    rw [zeroValued_iff hx, hz]
    rfl

/-- An exponent of 128 comes with the significand 1 (R145). -/
theorem decompose_sig_of_top {x : Binary64} (hx : isFinite .double x = true) (h : (decompose x).exp = 128) :
    val .double (decompose x).sig = 1 := by
  cases hz : isZero .double x
  · obtain ⟨_, _, value⟩ := decompose_sig hx hz
    rw [value, fracField_of_top hx h]
    norm_num
  · have := decompose_exp_zero hx hz
    omega

/-! ### Signs (R126, R131, R132) -/

/-- The sign factor of a sign bit (R126). -/
def unitOfSign (negative : Bool) : Binary64 := if negative then negOne64 else one64

theorem signFactor_bitChar (b : Bool) : signFactor (bitChar b) = unitOfSign b := by cases b <;> rfl

theorem fneg_unitOfSign (b : Bool) : fneg (unitOfSign b) = unitOfSign (!b) := by cases b <;> decide

theorem signFactor_unitOfSign (b : Bool) : SignFactor (unitOfSign b) := by
  cases b
  · exact .inl rfl
  · exact .inr rfl

theorem signBit_unitOfSign (b : Bool) : signBit .double (unitOfSign b) = b := by cases b <;> decide

theorem val_unitOfSign (b : Bool) : val .double (unitOfSign b) = if b then -1 else 1 := by
  cases b
  · exact val_one64
  · exact val_negOne64

/-- A working significand times a sign factor has that sign and the significand's magnitude. -/
theorem fmul_unitOfSign {x : Binary64} (h : WorkingSig x) (b : Bool) :
    isFinite .double (fmul x (unitOfSign b)) = true ∧ signBit .double (fmul x (unitOfSign b)) = b ∧
      val .double (fmul x (unitOfSign b)) = (if b then -1 else 1) * val .double x := by
  obtain ⟨finite, positive, _⟩ := h
  have factor := signFactor_unitOfSign b
  obtain ⟨finite', value⟩ := fmul_signFactor finite factor
  refine ⟨finite', ?_, by rw [value, val_unitOfSign, mul_comm]⟩
  obtain ⟨finiteFactor, _⟩ := factor.val
  rw [(fmul_spec finite finiteFactor).sign, positive, signBit_unitOfSign, Bool.false_xor]

theorem signOfProduct_bitChar (a b : Bool) : signOfProduct (bitChar a) (bitChar b) = if a ^^ b then '1' else '0' := by
  cases a <;> cases b <;> rfl

theorem signOfSum_spec {x : Binary64} (hx : isFinite .double x = true) :
    (signOfSum x = '1' ∨ signOfSum x = '0') ∧ (signOfSum x = '1' ↔ val .double x < 0) := by
  have test := flt_iff hx isFinite_zero64
  rw [val_zero64] at test
  unfold signOfSum
  split
  · next negative => exact ⟨.inl rfl, iff_of_true rfl (test.mp negative)⟩
  · next notNegative => exact ⟨.inr rfl, iff_of_false (by decide) (mt test.mpr notNegative)⟩

/-! ### Sums (R84, R131, R146) -/

theorem signedZero64_roundsTo (s : Bool) : RoundsTo .double s 0 (signedZero64 s) := by
  have rounds := rne64_roundsTo s 0 one_pos
  have datum : rne64 s 0 1 = signedZero64 s := by cases s <;> decide
  rwa [datum, Nat.cast_zero, zero_div] at rounds

/-- A sum is the exact sum rounded, whatever its sign. -/
theorem fadd_roundsTo {x y : Binary64} (hx : isFinite .double x = true) (hy : isFinite .double y = true) :
    RoundsTo .double (signBit .double (fadd x y)) |val .double x + val .double y| (fadd x y) := by
  obtain ⟨nonzero, zero⟩ := fadd_spec hx hy
  by_cases h : val .double x + val .double y = 0
  · rw [zero h, (signedZero64_spec _).2, h, abs_zero]
    exact signedZero64_roundsTo _
  · have rounds := nonzero h
    rwa [← rounds.sign] at rounds

/-- A sum of multiples of `2^e` is exact when the sum of the factors fits 53 bits (R146). -/
theorem fadd_exact {x y : Binary64} (hx : isFinite .double x = true) (hy : isFinite .double y = true) {i j e : ℤ}
    (xv : val .double x = i * 2 ^ e) (yv : val .double y = j * 2 ^ e) (fits : (i + j).natAbs < 2 ^ 53)
    (lo : -1074 ≤ e) (hi : e ≤ 0) : val .double (fadd x y) = val .double x + val .double y := by
  obtain ⟨nonzero, zero⟩ := fadd_spec hx hy
  by_cases h : val .double x + val .double y = 0
  · rw [zero h, h, val_eq_zero_iff]
    exact (signedZero64_spec _).1
  · have rounds := nonzero h
    have magnitude : |val .double x + val .double y| = ((i + j).natAbs : ℚ) * 2 ^ e := by
      rw [xv, yv, ← add_mul, abs_mul, abs_of_pos (two_zpow_pos e), Nat.cast_natAbs]
      push_cast
      rfl
    have bound : ((i + j).natAbs : ℚ) * 2 ^ e < 2 ^ (1024 : ℤ) := by
      have factor : ((i + j).natAbs : ℚ) < 2 ^ 53 := by exact_mod_cast fits
      have scale : (2 : ℚ) ^ e ≤ 1 := zpow_le_one_of_nonpos₀ one_le_two hi
      calc ((i + j).natAbs : ℚ) * 2 ^ e ≤ (i + j).natAbs := mul_le_of_le_one_right (Nat.cast_nonneg _) scale
        _ < 2 ^ (53 : ℤ) := factor
        _ < 2 ^ (1024 : ℤ) := zpow_lt_zpow_right₀ one_lt_two (by decide)
    obtain ⟨_, exact'⟩ := rounds.exact64 _ e fits lo bound magnitude
    rw [val_eq, rounds.sign, exact']
    rcases lt_or_ge (val .double x + val .double y) 0 with negative | positive
    · rw [decide_eq_true negative, if_pos rfl, abs_of_neg negative, neg_neg]
    · rw [decide_eq_false positive.not_gt, abs_of_nonneg positive]
      rfl

/-- The two signed significands of an alignment by at most 29 places, only one of which is shifted (R146). -/
theorem fadd_aligned_exact {x y l r : Binary64} (hx : isFinite .double x = true) (hy : isFinite .double y = true)
    (hl : isFinite .double l = true) (hr : isFinite .double r = true) {m n : ℕ} (near : m + n ≤ 29) (one : m = 0 ∨ n = 0)
    {σ τ : ℤ} (hσ : σ.natAbs = 1) (hτ : τ.natAbs = 1) (lv : val .double l = σ * (val .double (decompose x).sig / 2 ^ m))
    (rv : val .double r = τ * (val .double (decompose y).sig / 2 ^ n)) :
    val .double (fadd l r) = val .double l + val .double r := by
  obtain ⟨i, hi, xi, _⟩ := decompose_sig_int hx
  obtain ⟨j, hj, yj, _⟩ := decompose_sig_int hy
  have powers : (2 ^ m ≤ 2 ^ 29 ∧ 2 ^ n = 1) ∨ (2 ^ m = 1 ∧ 2 ^ n ≤ 2 ^ 29) := by
    rcases one with rfl | rfl
    · exact .inr ⟨rfl, Nat.pow_le_pow_right two_pos (by omega)⟩
    · exact .inl ⟨Nat.pow_le_pow_right two_pos (by omega), rfl⟩
  have scale : (2 : ℚ) ^ (-(23 + m + n : ℕ) : ℤ) = 1 / (2 ^ 23 * 2 ^ m * 2 ^ n) := by
    rw [zpow_neg, zpow_natCast, pow_add, pow_add, one_div]
  refine fadd_exact hl hr (i := σ * (i * 2 ^ n : ℕ)) (j := τ * (j * 2 ^ m : ℕ)) (e := -(23 + m + n : ℕ))
    ?_ ?_ ?_ (by omega) (by omega)
  · rw [lv, xi, scale]
    push_cast
    field_simp
  · rw [rv, yj, scale]
    push_cast
    field_simp
  · have sum := Int.natAbs_add_le (σ * (i * 2 ^ n : ℕ)) (τ * (j * 2 ^ m : ℕ))
    rw [Int.natAbs_mul, Int.natAbs_mul, hσ, hτ, one_mul, one_mul, Int.natAbs_natCast, Int.natAbs_natCast] at sum
    refine sum.trans_lt ?_
    rcases powers with ⟨hm, hn⟩ | ⟨hm, hn⟩
    · have := Nat.mul_le_mul (Nat.le_of_lt_succ hj) hm
      rw [hn]
      omega
    · have := Nat.mul_le_mul (Nat.le_of_lt_succ hi) hn
      rw [hm]
      omega

end Sys2Proof.Machine
end

section
/-! A SIM request on finite operands (spec/41_simulator.md R140, R148), read off the state it leaves: which registers come
from which stage, where in the log each stage's record stands, and the response. -/

namespace Sys2Proof.Machine

/-! ### Records -/

theorem payload_of_emit {op : SimOp} {p : StepPayload} {s u : State} {st : SimulationStep} (kept : u.log = s.log)
    (h : (emit op p u).log = s.log ++ [st]) : st.payload = p := by
  rw [emit_log, kept, List.append_cancel_left_eq, List.singleton_inj] at h
  rw [← h]

theorem getElem?_of_snoc_initial {α : Type} {l m : List α} {x : α} (h : l ++ [x] <+: m) : m[l.length]? = some x := by
  obtain ⟨rest, rfl⟩ := h
  simp

/-- Normalize appends the record of one of its four ways (R134 to R137). -/
theorem normalizeStage_kind {op : SimOp} {s : State} {st : SimulationStep} (h : (normalizeStage op s).log = s.log ++ [st]) :
    st.kind ∈ [StepKind.finishZero, .normalize, .normalizeNone] := by
  rcases normalizeStage_exits op s with ⟨_, e⟩ | ⟨_, _, _, st', log, kind⟩
  · rw [e, finishZero_log, List.append_cancel_left_eq, List.singleton_inj] at h
    rw [← h]
    exact List.mem_cons_self
  · rw [log, List.append_cancel_left_eq, List.singleton_inj] at h
    rw [← h]
    rcases kind with kind | kind <;> rw [kind] <;> decide

theorem kind_of_mem_stage2Kinds {op : SimOp} {k : StepKind} (h : k ∈ stage2Kinds op) :
    k ≠ .extract ∧ k ≠ .normalize ∧ k ≠ .final := by
  revert h
  cases op <;> cases k <;> decide

/-- Which stage a record of a log comes from, by its kind: the log is that of a request with these states. -/
structure Recorded (op : SimOp) (s s3 s4 : State) (st : SimulationStep) : Prop where
  extract : st.kind = .extract → st.payload = .extract (decompose s.req.a) (decompose s.req.b)
  normalize : st.kind = .normalize → s4.log = s3.log ++ [st]
  final : st.kind = .final → DatapathAt op s4 .final ∧ st.payload = finalPayload op s4

theorem recorded_of_other_kind {op : SimOp} {s s3 s4 : State} {st : SimulationStep}
    (h : st.kind ≠ .extract ∧ st.kind ≠ .normalize ∧ st.kind ≠ .final) : Recorded op s s3 s4 st :=
  ⟨fun kind => absurd kind h.1, fun kind => absurd kind h.2.1, fun kind => absurd kind h.2.2⟩

/-! ### The states of a request, and the state it leaves -/

section
variable {op : SimOp} {s s1 s2 s3 s4 : State} (h : Trace op s s1 s2 s3 s4)
include h

theorem Trace.throughCompute_eq : throughCompute op s = s3 := by
  rw [h.compute, h.combine, h.extract]
  rfl

/-- The response and the log, at the two ends of a request: the zero exit exactly on a zero significand (R134), else Final
(R138). -/
theorem Trace.response :
    (isZero .double s3.sig = true ∧ (simulate op s).log = s4.log ∧
      (simulate op s).rsp = some (resultResponse zero64 (simulate op s).log) ∧
      kinds (simulate op s).log ∈ zeroPaths op) ∨
    (isZero .double s3.sig = false ∧ DatapathAt op s4 .final ∧
      (simulate op s).log = s4.log ++ [{ title := Config.titleOf .final op, payload := finalPayload op s4 }] ∧
      (simulate op s).rsp = some (resultResponse (literalResult op s.req.a s.req.b) (simulate op s).log) ∧
      kinds (simulate op s).log ∈ normalPaths op) := by
  have path := throughCompute_path op s
  rw [h.throughCompute_eq] at path
  rcases h.ends with ⟨zero, exit, result⟩ | ⟨nonzero, _, ranges, result, st, log, kind⟩
  · rw [result, exit]
    exact .inl ⟨zero, rfl, rfl, finishZero_path path⟩
  · have path4 : kinds s4.log ∈ partialPaths op .final := by
      rw [log, kinds_snoc]
      exact path_final path kind
    rw [result, ← h.req4]
    exact .inr ⟨nonzero, ranges, rfl, rfl, finalStage_path path4⟩

/-- Nothing after Normalize writes a register of the datapath. -/
theorem Trace.registers :
    (simulate op s).opA = s4.opA ∧ (simulate op s).opB = s4.opB ∧ (simulate op s).sigA = s4.sigA ∧
      (simulate op s).sigB = s4.sigB ∧ (simulate op s).raw = s4.raw ∧ (simulate op s).rsgn = s4.rsgn ∧
      (simulate op s).sig = s4.sig ∧ (simulate op s).exp = s4.exp ∧ (simulate op s).k = s4.k := by
  rcases h.ends with ⟨_, _, result⟩ | ⟨_, _, _, result, _⟩
  · rw [result]; exact ⟨rfl, rfl, rfl, rfl, rfl, rfl, rfl, rfl, rfl⟩
  · rw [result]; exact ⟨rfl, rfl, rfl, rfl, rfl, rfl, rfl, rfl, rfl⟩

/-- Nothing after Align writes the operand registers and the aligned significands. -/
theorem Trace.alignRegisters :
    (simulate op s).opA = s2.opA ∧ (simulate op s).opB = s2.opB ∧ (simulate op s).sigA = s2.sigA ∧
      (simulate op s).sigB = s2.sigB := by
  obtain ⟨opA, opB, sigA, sigB, _⟩ := h.registers
  have compute := h.computeFrame
  have normalize := h.normalizeFrame
  exact ⟨by rw [opA, normalize.opA, compute.opA], by rw [opB, normalize.opB, compute.opB],
    by rw [sigA, normalize.sigA, compute.sigA], by rw [sigB, normalize.sigB, compute.sigB]⟩

/-- Nothing after Compute writes `RAW` and `RSGN`. -/
theorem Trace.computeRegisters : (simulate op s).raw = s3.raw ∧ (simulate op s).rsgn = s3.rsgn := by
  obtain ⟨_, _, _, _, raw, rsgn, _⟩ := h.registers
  exact ⟨raw.trans h.normalizeFrame.raw, rsgn.trans h.normalizeFrame.rsgn⟩

theorem Trace.normalizeRegisters :
    (simulate op s).sig = s4.sig ∧ (simulate op s).exp = s4.exp ∧ (simulate op s).k = s4.k := by
  obtain ⟨_, _, _, _, _, _, registers⟩ := h.registers
  exact registers

/-! ### The place of each record -/

theorem Trace.log4_initial : s4.log <+: (simulate op s).log := by
  rcases h.response with ⟨_, log, _⟩ | ⟨_, _, log, _⟩
  · rw [log]
  · rw [log]; exact ⟨_, rfl⟩

theorem Trace.log3_initial : s3.log <+: (simulate op s).log := by
  obtain ⟨st, log⟩ := h.normalizeFrame.log
  exact (log ▸ ⟨_, rfl⟩ : s3.log <+: s4.log).trans h.log4_initial

theorem Trace.log2_initial : s2.log <+: (simulate op s).log := by
  obtain ⟨st, log⟩ := h.computeFrame.log
  exact (log ▸ ⟨_, rfl⟩ : s2.log <+: s3.log).trans h.log3_initial

theorem Trace.log1_initial : s1.log <+: (simulate op s).log := by
  obtain ⟨st, log⟩ := h.combineFrame.log
  exact (log ▸ ⟨_, rfl⟩ : s1.log <+: s2.log).trans h.log2_initial

theorem Trace.length_log1 : s1.log.length = 1 := by rw [h.log1]; rfl

theorem Trace.length_log2 : s2.log.length = 2 := by
  obtain ⟨st, log⟩ := h.combineFrame.log
  rw [log, List.length_append, h.length_log1]
  rfl

theorem Trace.length_log3 : s3.log.length = 3 := by
  obtain ⟨st, log⟩ := h.computeFrame.log
  rw [log, List.length_append, h.length_log2]
  rfl

theorem Trace.length_log4 : s4.log.length = 4 := by
  obtain ⟨st, log⟩ := h.normalizeFrame.log
  rw [log, List.length_append, h.length_log3]
  rfl

/-- The first record is Extract's (R125). -/
theorem Trace.extractRecord :
    ∃ st, (simulate op s).log[0]? = some st ∧ st.payload = .extract (decompose s.req.a) (decompose s.req.b) := by
  have first := h.log1_initial
  rw [h.log1] at first
  exact ⟨_, getElem?_of_snoc_initial (l := []) first, rfl⟩

/-- The second record is stage 2's. -/
theorem Trace.secondRecord {st : SimulationStep} (log : s2.log = s1.log ++ [st]) : (simulate op s).log[1]? = some st := by
  rw [← h.length_log1]
  exact getElem?_of_snoc_initial (log ▸ h.log2_initial)

/-- The third record is Compute's. -/
theorem Trace.thirdRecord {st : SimulationStep} (log : s3.log = s2.log ++ [st]) : (simulate op s).log[2]? = some st := by
  rw [← h.length_log2]
  exact getElem?_of_snoc_initial (log ▸ h.log3_initial)

/-- The fourth record is Normalize's. -/
theorem Trace.fourthRecord {st : SimulationStep} (log : s4.log = s3.log ++ [st]) : (simulate op s).log[3]? = some st := by
  rw [← h.length_log3]
  exact getElem?_of_snoc_initial (log ▸ h.log4_initial)

/-- What Compute records besides its terms: the registers it leaves and the exponent of stage 2. -/
theorem Trace.computeRecord : ∃ st o l r, (simulate op s).log[2]? = some st ∧
    st.payload = .compute o l r s3.raw s3.rsgn s3.sig s2.exp := by
  obtain ⟨o, l, r, title, log⟩ := h.computeFrame.record
  exact ⟨_, o, l, r, h.thirdRecord log, rfl⟩

/-! ### Every record of the log -/

theorem Trace.recorded_of_mem_log4 {st : SimulationStep} (mem : st ∈ s4.log) : Recorded op s s3 s4 st := by
  obtain ⟨second, log2, kind2⟩ := h.combineFrame.kind
  obtain ⟨_, _, _, _, log3⟩ := h.computeFrame.record
  obtain ⟨fourth, log4⟩ := h.normalizeFrame.log
  have kind4 := normalizeStage_kind (h.normalize ▸ log4)
  have records : ((st ∈ s1.log ∨ st = second) ∨ st.kind = .compute) ∨ st = fourth := by
    rw [log4, log3, log2] at mem
    simp only [List.mem_append, List.mem_singleton] at mem
    exact mem.imp_left (Or.imp_right fun e => by rw [e]; rfl)
  rcases records with ((first | rfl) | compute) | rfl
  · rw [h.log1, List.mem_singleton] at first
    subst first
    exact ⟨fun _ => rfl, nofun, nofun⟩
  · exact recorded_of_other_kind (kind_of_mem_stage2Kinds kind2)
  · exact recorded_of_other_kind (by rw [compute]; decide)
  · exact ⟨fun kind => by simp [kind] at kind4, fun _ => log4, fun kind => by simp [kind] at kind4⟩

theorem Trace.recorded {st : SimulationStep} (mem : st ∈ (simulate op s).log) : Recorded op s s3 s4 st := by
  rcases h.response with ⟨_, log, _⟩ | ⟨_, ranges, log, _⟩
  · exact h.recorded_of_mem_log4 (log ▸ mem)
  · rw [log] at mem
    rcases List.mem_append.mp mem with early | last
    · exact h.recorded_of_mem_log4 early
    · rw [List.mem_singleton.mp last]
      exact ⟨nofun, nofun, fun _ => ⟨ranges, rfl⟩⟩

end

end Sys2Proof.Machine
end

section
/-! Extract, stage 2 and the sum of Add and Sub on finite operands (spec/41_simulator.md R122 to R131, R146): what each
records and leaves, and the statements about them. -/

namespace Sys2Proof.Machine

/-! ### Extract (R125, R126) -/

section
variable {op : SimOp} {s s1 s2 s3 s4 : State} (h : Trace op s s1 s2 s3 s4)
include h

theorem Trace.operands :
    s1.opA = decompose s.req.a ∧ s1.opB = decompose s.req.b ∧ s1.sigA = (decompose s.req.a).sig ∧
      s1.sigB = (decompose s.req.b).sig := by
  rw [h.extract]; exact ⟨rfl, rfl, rfl, rfl⟩

/-- The sign factors are those of the operands' signs, B's inverted for Sub (R126). -/
theorem Trace.signFactors (finite : FiniteOperands s.req) :
    s1.sA = unitOfSign (signBit .double s.req.a) ∧ s1.sB = unitOfSign (signBit .double s.req.b ^^ decide (op = .sub)) := by
  have sA : s1.sA = signFactor (decompose s.req.a).sgn := by rw [h.extract]; rfl
  have sB : s1.sB = if op = .sub then fneg (signFactor (decompose s.req.b).sgn) else signFactor (decompose s.req.b).sgn := by
    rw [h.extract]; rfl
  rw [decompose_sgn finite.1, signFactor_bitChar] at sA
  rw [decompose_sgn finite.2, signFactor_bitChar, fneg_unitOfSign] at sB
  refine ⟨sA, sB.trans ?_⟩
  split
  · next sub => rw [decide_eq_true sub, Bool.xor_true]
  · next other => rw [decide_eq_false other, Bool.xor_false]

end

/-- Settles O32: the first record is Extract's, of the two decomposed operands. -/
theorem extractRecordsBothOperands : Obligations.ExtractRecordsBothOperands := by
  intro s op finite
  obtain ⟨s1, s2, s3, s4, h⟩ := simulate_trace op finite
  obtain ⟨st, first, payload⟩ := h.extractRecord
  exact ⟨_, st, _, _, exec_ofSimOp op s, first, payload, isOperandOf_decompose finite.1, isOperandOf_decompose finite.2⟩

/-! ### Align (R127, R128) -/

theorem alignStage_of_eq {op : SimOp} {s : State} (h : s.opA.exp = s.opB.exp) : alignStage op s = alignNone op s :=
  if_neg (not_not.mpr h)

theorem alignStage_of_lt {op : SimOp} {s : State} (h : s.opA.exp < s.opB.exp) :
    alignStage op s =
      emit op (.align .A (s.opB.exp - s.opA.exp) s.sigA (fdiv s.sigA (pow64 (s.opB.exp - s.opA.exp).toNat)) s.opB.exp)
        { s with
          sigA := fdiv s.sigA (pow64 (s.opB.exp - s.opA.exp).toNat), exp := s.opB.exp
          opA := { s.opA with exp := s.opB.exp }, stage := .compute } := by
  have diff : alignDiff s = s.opB.exp - s.opA.exp := by unfold alignDiff; omega
  unfold alignStage alignShift
  dsimp only
  rw [if_pos h.ne, if_pos h, diff]

theorem alignStage_of_gt {op : SimOp} {s : State} (h : s.opB.exp < s.opA.exp) :
    alignStage op s =
      emit op (.align .B (s.opA.exp - s.opB.exp) s.sigB (fdiv s.sigB (pow64 (s.opA.exp - s.opB.exp).toNat)) s.opA.exp)
        { s with
          sigB := fdiv s.sigB (pow64 (s.opA.exp - s.opB.exp).toNat), exp := s.opA.exp
          opB := { s.opB with exp := s.opA.exp }, stage := .compute } := by
  have diff : alignDiff s = s.opA.exp - s.opB.exp := by unfold alignDiff; omega
  unfold alignStage alignShift
  dsimp only
  rw [if_pos h.ne', if_neg h.not_gt, diff]

section
variable {op : SimOp} {s s1 s2 s3 s4 : State} (h : Trace op s s1 s2 s3 s4) (addSub : op = .add ∨ op = .sub)
include h addSub

theorem Trace.align : s2 = alignStage op s1 := by
  rw [h.combine]
  rcases addSub with rfl | rfl <;> rfl

theorem Trace.align_equal (equal : (decompose s.req.a).exp = (decompose s.req.b).exp) :
    (∀ st, s2.log = s1.log ++ [st] → st.payload = .alignNone (decompose s.req.a).exp) ∧
    s2.sigA = (decompose s.req.a).sig ∧ s2.sigB = (decompose s.req.b).sig ∧ s2.exp = (decompose s.req.a).exp := by
  obtain ⟨opA, opB, sigA, sigB⟩ := h.operands
  rw [← opA, ← opB] at equal
  rw [h.align addSub, alignStage_of_eq equal, ← sigA, ← sigB, ← opA]
  exact ⟨fun st log => payload_of_emit (u := { s1 with exp := s1.opA.exp, stage := .compute }) rfl log, rfl, rfl, rfl⟩

theorem Trace.align_shiftA (lt : (decompose s.req.a).exp < (decompose s.req.b).exp) :
    (∀ st, s2.log = s1.log ++ [st] → st.payload = .align .A ((decompose s.req.b).exp - (decompose s.req.a).exp)
      (decompose s.req.a).sig s2.sigA (decompose s.req.b).exp) ∧
    s2.sigA = fdiv (decompose s.req.a).sig (pow64 ((decompose s.req.b).exp - (decompose s.req.a).exp).toNat) ∧
    s2.sigB = (decompose s.req.b).sig ∧ s2.opA.exp = (decompose s.req.b).exp ∧ s2.opB.exp = (decompose s.req.b).exp ∧
    s2.exp = (decompose s.req.b).exp := by
  obtain ⟨opA, opB, sigA, sigB⟩ := h.operands
  rw [← opA, ← opB] at lt
  rw [h.align addSub, alignStage_of_lt lt, ← sigA, ← sigB, ← opA, ← opB]
  exact ⟨fun st log => payload_of_emit rfl log, rfl, rfl, rfl, rfl, rfl⟩

theorem Trace.align_shiftB (gt : (decompose s.req.b).exp < (decompose s.req.a).exp) :
    (∀ st, s2.log = s1.log ++ [st] → st.payload = .align .B ((decompose s.req.a).exp - (decompose s.req.b).exp)
      (decompose s.req.b).sig s2.sigB (decompose s.req.a).exp) ∧
    s2.sigB = fdiv (decompose s.req.b).sig (pow64 ((decompose s.req.a).exp - (decompose s.req.b).exp).toNat) ∧
    s2.sigA = (decompose s.req.a).sig ∧ s2.opA.exp = (decompose s.req.a).exp ∧ s2.opB.exp = (decompose s.req.a).exp ∧
    s2.exp = (decompose s.req.a).exp := by
  obtain ⟨opA, opB, sigA, sigB⟩ := h.operands
  rw [← opA, ← opB] at gt
  rw [h.align addSub, alignStage_of_gt gt, ← sigA, ← sigB, ← opA, ← opB]
  exact ⟨fun st log => payload_of_emit rfl log, rfl, rfl, rfl, rfl, rfl⟩

end

/-- Aligning by a difference of raw exponents is exact (R127, R146). -/
theorem shifted_by_difference {x y z : Binary64} (hx : isFinite .double x = true) :
    WorkingSig (fdiv (decompose x).sig (pow64 ((decompose y).exp - (decompose z).exp).toNat)) ∧
      val .double (fdiv (decompose x).sig (pow64 ((decompose y).exp - (decompose z).exp).toNat)) =
        val .double (decompose x).sig / 2 ^ ((decompose y).exp - (decompose z).exp).toNat := by
  have rangeY := decompose_exp_range y
  have rangeZ := decompose_exp_range z
  exact shifted_spec hx (by omega)

/-- Settles O33: the three cases of the exponents, the division exact. -/
theorem alignShiftsTheSmallerExponent : Obligations.AlignShiftsTheSmallerExponent := by
  intro s i hi finite
  obtain ⟨op, rfl, addSub⟩ : ∃ op, i = Instr.ofSimOp op ∧ (op = .add ∨ op = .sub) := by
    rcases hi with rfl | rfl
    · exact ⟨.add, rfl, .inl rfl⟩
    · exact ⟨.sub, rfl, .inr rfl⟩
  obtain ⟨s1, s2, s3, s4, h⟩ := simulate_trace op finite
  obtain ⟨st, log⟩ := h.combineFrame.log
  obtain ⟨opA, opB, sigA, sigB⟩ := h.alignRegisters
  refine ⟨_, st, _, _, exec_ofSimOp op s, h.extractRecord, h.secondRecord log, fun equal => ?_, fun lt => ?_, fun gt => ?_⟩
  · obtain ⟨record, a, b, _⟩ := h.align_equal addSub equal
    exact ⟨record st log, sigA.trans a, sigB.trans b⟩
  · obtain ⟨record, shifted, b, expA, expB, _⟩ := h.align_shiftA addSub lt
    obtain ⟨working, value⟩ := shifted_by_difference (y := s.req.b) (z := s.req.a) finite.1
    rw [← shifted] at working value
    rw [sigA, sigB, opA, opB]
    exact ⟨record st log, b, expA, expB, working.1, value⟩
  · obtain ⟨record, shifted, a, expA, expB, _⟩ := h.align_shiftB addSub gt
    obtain ⟨working, value⟩ := shifted_by_difference (y := s.req.a) (z := s.req.b) finite.2
    rw [← shifted] at working value
    rw [sigA, sigB, opA, opB]
    exact ⟨record st log, a, expA, expB, working.1, value⟩

/-! ### ExpCalc (R129, R130) -/

theorem Trace.expCalcMul {s s1 s2 s3 s4 : State} (h : Trace .mul s s1 s2 s3 s4) :
    (∀ st, s2.log = s1.log ++ [st] → st.payload = .expCalc .plus (decompose s.req.a).exp (decompose s.req.b).exp
      ((decompose s.req.a).exp + (decompose s.req.b).exp)) ∧
    s2.exp = (decompose s.req.a).exp + (decompose s.req.b).exp := by
  obtain ⟨opA, opB, _⟩ := h.operands
  have e : s2 = Machine.expCalcMul s1 := h.combine
  rw [e, ← opA, ← opB]
  exact ⟨fun st log => payload_of_emit (u := { s1 with exp := s1.opA.exp + s1.opB.exp, stage := .compute }) rfl log, rfl⟩

theorem Trace.expCalcDiv {s s1 s2 s3 s4 : State} (h : Trace .div s s1 s2 s3 s4) :
    (∀ st, s2.log = s1.log ++ [st] → st.payload = .expCalc .minus (decompose s.req.a).exp (decompose s.req.b).exp
      ((decompose s.req.a).exp - (decompose s.req.b).exp)) ∧
    s2.exp = (decompose s.req.a).exp - (decompose s.req.b).exp := by
  obtain ⟨opA, opB, _⟩ := h.operands
  have e : s2 = Machine.expCalcDiv s1 := h.combine
  rw [e, ← opA, ← opB]
  exact ⟨fun st log => payload_of_emit (u := { s1 with exp := s1.opA.exp - s1.opB.exp, stage := .compute }) rfl log, rfl⟩

/-- Settles O34: the second record is ExpCalc's, of the operands Extract recorded. -/
theorem expCalcCombinesExponents : Obligations.ExpCalcCombinesExponents := by
  intro s finite
  constructor
  · obtain ⟨s1, s2, s3, s4, h⟩ := simulate_trace .mul finite
    obtain ⟨st, log⟩ := h.combineFrame.log
    exact ⟨_, st, _, _, exec_ofSimOp .mul s, h.extractRecord, h.secondRecord log, h.expCalcMul.1 st log⟩
  · obtain ⟨s1, s2, s3, s4, h⟩ := simulate_trace .div finite
    obtain ⟨st, log⟩ := h.combineFrame.log
    exact ⟨_, st, _, _, exec_ofSimOp .div s, h.extractRecord, h.secondRecord log, h.expCalcDiv.1 st log⟩

/-! ### Compute for Add and Sub (R131) -/

section
variable {op : SimOp} {s s1 s2 s3 s4 : State} (h : Trace op s s1 s2 s3 s4) (addSub : op = .add ∨ op = .sub)
include h addSub

/-- The aligned significands and the larger exponent. -/
theorem Trace.aligned (finite : FiniteOperands s.req) :
    val .double s2.sigA =
      val .double (decompose s.req.a).sig / 2 ^ ((decompose s.req.b).exp - (decompose s.req.a).exp).toNat ∧
    val .double s2.sigB =
      val .double (decompose s.req.b).sig / 2 ^ ((decompose s.req.a).exp - (decompose s.req.b).exp).toNat ∧
    s2.exp = max (decompose s.req.a).exp (decompose s.req.b).exp := by
  have keep {x : Binary64} {d : ℤ} (hd : d ≤ 0) : val .double x = val .double x / 2 ^ d.toNat := by
    rw [Int.toNat_of_nonpos hd, pow_zero, div_one]
  rcases lt_trichotomy (decompose s.req.a).exp (decompose s.req.b).exp with lt | equal | gt
  · obtain ⟨_, a, b, _, _, exp⟩ := h.align_shiftA addSub lt
    rw [a, b, exp, max_eq_right lt.le]
    exact ⟨(shifted_by_difference finite.1).2, keep (by omega), rfl⟩
  · obtain ⟨_, a, b, exp⟩ := h.align_equal addSub equal
    rw [a, b, exp, ← equal, max_self]
    exact ⟨keep (by omega), keep (by omega), rfl⟩
  · obtain ⟨_, b, a, _, _, exp⟩ := h.align_shiftB addSub gt
    rw [a, b, exp, max_eq_left gt.le]
    exact ⟨keep (by omega), (shifted_by_difference finite.2).2, rfl⟩

theorem Trace.alignedPair : AlignedPair s2.sigA s2.sigB ∧ -127 ≤ s2.exp ∧ s2.exp ≤ 128 := by
  rcases addSub with rfl | rfl
  · exact h.combined.2.2
  · exact h.combined.2.2

/-- Compute adds the aligned significands, each with its sign, and takes sign and absolute value of the sum. -/
theorem Trace.signedSum (finite : FiniteOperands s.req) :
    ∃ l r, l = fmul s2.sigA (unitOfSign (signBit .double s.req.a)) ∧
      r = fmul s2.sigB (unitOfSign (signBit .double s.req.b ^^ decide (op = .sub))) ∧
      s3.raw = fadd l r ∧ s3.rsgn = signOfSum s3.raw ∧ s3.sig = fabs s3.raw ∧
      ∃ st, (simulate op s).log[2]? = some st ∧ st.payload = .compute op l r s3.raw s3.rsgn s3.sig s2.exp := by
  obtain ⟨sA, sB⟩ := h.signFactors finite
  rw [← h.combineFrame.sA] at sA
  rw [← h.combineFrame.sB] at sB
  have e : s3 = computeAddSub op s2 := by
    rw [h.compute]
    rcases addSub with rfl | rfl <;> rfl
  refine ⟨_, _, rfl, rfl, ?_⟩
  rw [← sA, ← sB]
  refine ⟨by rw [e]; rfl, by rw [e]; rfl, by rw [e]; rfl, _, h.thirdRecord (by rw [e]; rfl), by rw [e]; rfl⟩

end

/-- Settles O35: the rounded sum of the two signed terms, and its sign and absolute value. -/
theorem computeAddSubIsTheSignedSum : Obligations.ComputeAddSubIsTheSignedSum := by
  intro s op addSub finite
  obtain ⟨s1, s2, s3, s4, h⟩ := simulate_trace op finite
  obtain ⟨_, _, sigA, sigB⟩ := h.alignRegisters
  obtain ⟨raw, rsgn⟩ := h.computeRegisters
  obtain ⟨⟨workingA, workingB, _⟩, _⟩ := h.alignedPair addSub
  obtain ⟨l, r, hl, hr, sum, sign, magnitude, st, third, payload⟩ := h.signedSum addSub finite
  obtain ⟨finiteL, signL, valL⟩ := fmul_unitOfSign workingA (signBit .double s.req.a)
  obtain ⟨finiteR, signR, valR⟩ := fmul_unitOfSign workingB (signBit .double s.req.b ^^ decide (op = .sub))
  rw [← hl, ← sigA] at valL
  rw [← hr, ← sigB] at valR
  rw [← hl] at finiteL signL
  rw [← hr] at finiteR signR
  have finiteRaw : isFinite .double s3.raw = true := by
    rw [← isFinite_fabs, ← magnitude]
    exact h.computed.1
  obtain ⟨signs, negative⟩ := signOfSum_spec finiteRaw
  obtain ⟨nonzero, zero⟩ := fadd_spec finiteL finiteR
  obtain ⟨_, _, exp⟩ := h.aligned addSub finite
  rw [exp, ← raw, ← rsgn] at payload
  refine ⟨_, st, _, _, l, r, s3.sig, exec_ofSimOp op s, h.extractRecord, third, payload, finiteL, signL, valL, finiteR,
    signR, valR, ?_⟩
  rw [raw, rsgn, sign, magnitude]
  refine ⟨finiteRaw, ?_, fun ne => ?_, fun eq => ?_, signs, negative, signBit_fabs _, by rw [isFinite_fabs, finiteRaw],
    val_fabs _⟩
  · rw [sum]; exact fadd_roundsTo finiteL finiteR
  · rw [sum]; exact (nonzero ne).sign
  · rw [sum, zero eq]; exact (signedZero64_spec _).2

/-- Settles O36: with at most 29 places of shift, the exact sum fits the 53 bits of a Double. -/
theorem sumIsExactForNearExponents : Obligations.SumIsExactForNearExponents := by
  intro s op addSub finite
  obtain ⟨s1, s2, s3, s4, h⟩ := simulate_trace op finite
  obtain ⟨raw, rsgn⟩ := h.computeRegisters
  obtain ⟨⟨workingA, workingB, _⟩, _⟩ := h.alignedPair addSub
  obtain ⟨alignedA, alignedB, _⟩ := h.aligned addSub finite
  obtain ⟨l, r, hl, hr, sum, _, _, st, third, payload⟩ := h.signedSum addSub finite
  obtain ⟨st0, first, extracted⟩ := h.extractRecord
  obtain ⟨finiteL, _, valL⟩ := fmul_unitOfSign workingA (signBit .double s.req.a)
  obtain ⟨finiteR, _, valR⟩ := fmul_unitOfSign workingB (signBit .double s.req.b ^^ decide (op = .sub))
  rw [← hl, alignedA] at valL
  rw [← hr, alignedB] at valR
  rw [← hl] at finiteL
  rw [← hr] at finiteR
  rw [← raw, ← rsgn] at payload
  refine ⟨_, st0, st, _, _, l, r, s3.sig, s2.exp, exec_ofSimOp op s, first, extracted, third, payload, fun near => ?_⟩
  rw [abs_le] at near
  have unit (b : Bool) : ((if b then -1 else 1 : ℤ) : ℚ) = (if b then -1 else 1) ∧ (if b then -1 else 1 : ℤ).natAbs = 1 := by
    cases b <;> decide
  rw [← (unit _).1] at valL valR
  rw [raw, sum]
  exact fadd_aligned_exact finite.1 finite.2 finiteL finiteR (by omega) (by omega) (unit _).2 (unit _).2 valL valR

end Sys2Proof.Machine
end

section
/-! The product and the quotient, Normalize, Final and the response of a SIM request on finite operands
(spec/41_simulator.md R132 to R140, R143, R145, R147). -/

namespace Sys2Proof.Machine

/-! ### Compute for Mul and Div (R132, R133) -/

/-- Neither Mul nor Div touches the extracted registers in stage 2. -/
theorem Trace.significands {op : SimOp} {s s1 s2 s3 s4 : State} (h : Trace op s s1 s2 s3 s4)
    (mulDiv : op = .mul ∨ op = .div) :
    s2.sigA = (decompose s.req.a).sig ∧ s2.sigB = (decompose s.req.b).sig := by
  obtain ⟨_, _, sigA, sigB⟩ := h.operands
  rw [h.combine, ← sigA, ← sigB]
  rcases mulDiv with rfl | rfl
  · exact ⟨rfl, rfl⟩
  · exact ⟨rfl, rfl⟩

/-- The result sign of Mul and Div is the XOR of the operands' signs. -/
theorem Trace.productSign {op : SimOp} {s s1 s2 s3 s4 : State} (h : Trace op s s1 s2 s3 s4)
    (finite : FiniteOperands s.req) :
    signOfProduct s2.opA.sgn s2.opB.sgn = if signBit .double s.req.a ^^ signBit .double s.req.b then '1' else '0' := by
  obtain ⟨opA, opB, _⟩ := h.operands
  rw [h.combineFrame.signA, h.combineFrame.signB, opA, opB, decompose_sgn finite.1, decompose_sgn finite.2,
    signOfProduct_bitChar]

theorem Trace.product {s s1 s2 s3 s4 : State} (h : Trace .mul s s1 s2 s3 s4) (finite : FiniteOperands s.req) :
    s3.raw = fmul (decompose s.req.a).sig (decompose s.req.b).sig ∧ s3.sig = s3.raw ∧
    s3.rsgn = (if signBit .double s.req.a ^^ signBit .double s.req.b then '1' else '0') ∧
    ∃ st, (simulate .mul s).log[2]? = some st ∧ st.payload = .compute .mul (decompose s.req.a).sig (decompose s.req.b).sig
      s3.raw s3.rsgn s3.sig ((decompose s.req.a).exp + (decompose s.req.b).exp) := by
  obtain ⟨sigA, sigB⟩ := h.significands (.inl rfl)
  have e : s3 = computeMul s2 := h.compute
  rw [← h.productSign finite, ← h.expCalcMul.2, ← sigA, ← sigB]
  exact ⟨by rw [e]; rfl, by rw [e]; rfl, by rw [e]; rfl, _, h.thirdRecord (by rw [e]; rfl), by rw [e]; rfl⟩

theorem Trace.quotient {s s1 s2 s3 s4 : State} (h : Trace .div s s1 s2 s3 s4) (finite : FiniteOperands s.req) :
    (isZero .double s.req.b = true → s3.raw = zero64) ∧
    (isZero .double s.req.b = false → s3.raw = fdiv (decompose s.req.a).sig (decompose s.req.b).sig) ∧ s3.sig = s3.raw ∧
    s3.rsgn = (if signBit .double s.req.a ^^ signBit .double s.req.b then '1' else '0') ∧
    ∃ st, (simulate .div s).log[2]? = some st ∧ st.payload = .compute .div (decompose s.req.a).sig (decompose s.req.b).sig
      s3.raw s3.rsgn s3.sig ((decompose s.req.a).exp - (decompose s.req.b).exp) := by
  obtain ⟨sigA, sigB⟩ := h.significands (.inr rfl)
  have e : s3 = computeDiv s2 := h.compute
  have raw : s3.raw = if feq s2.sigB zero64 then zero64 else fdiv s2.sigA s2.sigB := by rw [e]; rfl
  rw [← h.productSign finite, ← h.expCalcDiv.2]
  refine ⟨fun zero => ?_, fun nonzero => ?_, ?_⟩
  · rw [raw, sigB, decompose_sig_zero finite.2 zero]
    rfl
  · obtain ⟨finiteB, _, valB⟩ := decompose_sig finite.2 nonzero
    have test : ¬ feq (decompose s.req.b).sig zero64 = true := by
      rw [feq_iff finiteB isFinite_zero64, val_zero64, valB]
      positivity
    rw [raw, sigB, if_neg test, sigA]
  · rw [← sigA, ← sigB]
    exact ⟨by rw [e]; rfl, by rw [e]; rfl, _, h.thirdRecord (by rw [e]; rfl), by rw [e]; rfl⟩

/-- Settles O37: the product of two 24-bit significands fits a Double. -/
theorem computeMulIsTheExactProduct : Obligations.ComputeMulIsTheExactProduct := by
  intro s finite
  obtain ⟨s1, s2, s3, s4, h⟩ := simulate_trace .mul finite
  obtain ⟨raw, rsgn⟩ := h.computeRegisters
  obtain ⟨product, sig, sign, st, third, payload⟩ := h.product finite
  obtain ⟨⟨finiteRaw, positive, _⟩, _, _, exact'⟩ := computedSig_product finite.1 finite.2
  rw [← product] at finiteRaw positive exact'
  rw [sig, ← raw, ← rsgn] at payload
  rw [← raw] at finiteRaw positive exact'
  exact ⟨_, st, _, _, exec_ofSimOp .mul s, h.extractRecord, third, payload, finiteRaw, positive, exact', rsgn.trans sign⟩

/-- Settles O38: the quotient of the significands rounded, and `+0` for a zero divisor. -/
theorem computeDivIsTheRoundedQuotient : Obligations.ComputeDivIsTheRoundedQuotient := by
  intro s finite
  obtain ⟨s1, s2, s3, s4, h⟩ := simulate_trace .div finite
  obtain ⟨raw, rsgn⟩ := h.computeRegisters
  obtain ⟨zero, nonzero, sig, sign, st, third, payload⟩ := h.quotient finite
  rw [sig, ← raw, ← rsgn] at payload
  refine ⟨_, st, _, _, exec_ofSimOp .div s, h.extractRecord, third, payload, fun hz => raw.trans (zero hz), fun hz => ?_,
    rsgn.trans sign⟩
  obtain ⟨finiteA, positiveA, _⟩ := decompose_workingSig finite.1
  obtain ⟨finiteB, positiveB, valB⟩ := decompose_sig finite.2 hz
  have divisor : isZero .double (decompose s.req.b).sig = false := by
    rw [← Bool.not_eq_true, ← val_eq_zero_iff, valB]
    positivity
  have rounds := fdiv_spec finiteA finiteB divisor
  rw [positiveA, positiveB, Bool.xor_false, mag_eq_val positiveA, mag_eq_val positiveB] at rounds
  obtain ⟨⟨finiteRaw, _⟩, _⟩ := computedSig_quotient finite.1 finite.2 hz
  rw [raw, nonzero hz]
  exact ⟨finiteRaw, rounds⟩

/-- Settles O40: a zero significand makes the product zero. -/
theorem zeroFactorTakesTheZeroExit : Obligations.ZeroFactorTakesTheZeroExit := by
  intro s finite zero
  obtain ⟨s1, s2, s3, s4, h⟩ := simulate_trace .mul finite
  obtain ⟨product, sig, _⟩ := h.product finite
  obtain ⟨_, _, _, value⟩ := computedSig_product finite.1 finite.2
  have factor : val .double (decompose s.req.a).sig * val .double (decompose s.req.b).sig = 0 := by
    rcases zero with zero | zero
    · rw [decompose_sig_zero finite.1 zero, val_zero64, zero_mul]
    · rw [decompose_sig_zero finite.2 zero, val_zero64, mul_zero]
  rw [factor, val_eq_zero_iff, ← product, ← sig] at value
  rcases h.response with ⟨_, _, rsp, path⟩ | ⟨nonzero, _⟩
  · exact ⟨_, _, exec_ofSimOp .mul s, rsp, List.mem_singleton.mp path⟩
  · exact absurd (value.symm.trans nonzero) (by decide)

/-! ### What Compute leaves (R145, R147) -/

theorem Trace.computedSig {op : SimOp} {s s1 s2 s3 s4 : State} (h : Trace op s s1 s2 s3 s4) : ComputedSig s3.sig := by
  obtain ⟨finite, positive, below, above, _⟩ := h.computed
  exact ⟨finite, positive, below, above⟩

theorem Trace.one_le_product {s s1 s2 s3 s4 : State} (h : Trace .mul s s1 s2 s3 s4) (finite : FiniteOperands s.req)
    (nonzero : isZero .double s3.sig = false) : 1 ≤ val .double s3.sig := by
  obtain ⟨product, sig, _⟩ := h.product finite
  obtain ⟨_, _, one_le, _⟩ := computedSig_product finite.1 finite.2
  rw [sig, product] at nonzero ⊢
  exact one_le nonzero

theorem Trace.quotient_range {s s1 s2 s3 s4 : State} (h : Trace .div s s1 s2 s3 s4) (finite : FiniteOperands s.req)
    (nonzero : isZero .double s3.sig = false) : 1 / 2 < val .double s3.sig ∧ val .double s3.sig < 2 := by
  obtain ⟨zeroDivisor, divisor, sig, _⟩ := h.quotient finite
  rw [sig] at nonzero ⊢
  cases hz : isZero .double s.req.b
  · rw [divisor hz] at nonzero ⊢
    obtain ⟨_, below, above⟩ := computedSig_quotient finite.1 finite.2 hz
    exact ⟨above nonzero, below⟩
  · rw [zeroDivisor hz, isZero_zero64] at nonzero
    exact absurd nonzero (by decide)

/-! ### Normalize (R134 to R137) -/

section
variable {op : SimOp} {s : State} (c : ComputedSig s.sig)
include c

theorem normalizeStage_of_zero (zero : isZero .double s.sig = true) : normalizeStage op s = finishZero op s := by
  have value := (val_eq_zero_iff _ _).mpr zero
  rcases normalizeStage_cases op c with ⟨_, e⟩ | ⟨nonzero, _⟩ | ⟨nonzero, _⟩ | ⟨one, _⟩
  · exact e
  · exact absurd (zero.symm.trans nonzero) (by decide)
  · exact absurd (zero.symm.trans nonzero) (by decide)
  · linarith

/-- Overflow halves once (R135, R147). -/
theorem normalizeStage_overflow (two : 2 ≤ val .double s.sig) :
    (∀ st, (normalizeStage op s).log = s.log ++ [st] →
      st.payload = .normalize .overflow 1 s.sig (normalizeStage op s).sig (normalizeStage op s).exp) ∧
    (normalizeStage op s).k = 1 ∧ (normalizeStage op s).exp = s.exp + 1 ∧
    isFinite .double (normalizeStage op s).sig = true ∧ signBit .double (normalizeStage op s).sig = false ∧
    val .double (normalizeStage op s).sig = val .double s.sig / 2 := by
  rcases normalizeStage_cases op c with ⟨zero, _⟩ | ⟨_, _, e, finite, positive, value⟩ | ⟨_, below, _⟩ | ⟨_, below, _⟩
  · rw [(val_eq_zero_iff _ _).mpr zero] at two
    norm_num at two
  · rw [e]
    exact ⟨fun st log => payload_of_emit rfl log, rfl, rfl, finite, positive, value⟩
  · linarith
  · linarith

/-- Underflow doubles at most 24 times, down to the exponent floor at the lowest (R136, R147). -/
theorem normalizeStage_underflow (nonzero : isZero .double s.sig = false) (one : val .double s.sig < 1) :
    (∀ st, (normalizeStage op s).log = s.log ++ [st] → st.payload =
      .normalize .underflow (normalizeStage op s).k s.sig (normalizeStage op s).sig (normalizeStage op s).exp) ∧
    (normalizeStage op s).exp = s.exp - (normalizeStage op s).k ∧
    0 ≤ (normalizeStage op s).k ∧ (normalizeStage op s).k ≤ 24 ∧
    isFinite .double (normalizeStage op s).sig = true ∧ signBit .double (normalizeStage op s).sig = false ∧
    val .double (normalizeStage op s).sig = val .double s.sig * 2 ^ (normalizeStage op s).k ∧
    val .double (normalizeStage op s).sig < 2 ∧
    (1 ≤ val .double (normalizeStage op s).sig ∨ (normalizeStage op s).exp ≤ -126) ∧
    (-126 ≤ (normalizeStage op s).exp ∨ (normalizeStage op s).exp = s.exp) := by
  rcases normalizeStage_cases op c with ⟨zero, _⟩ | ⟨_, two, _⟩ |
      ⟨_, _, r, _, e, finite, positive, below, ends, lo, hi, exp, floor, value⟩ | ⟨above, _⟩
  · exact absurd (zero.symm.trans nonzero) (by decide)
  · linarith
  · rw [e]
    exact ⟨fun st log => payload_of_emit rfl log, exp, lo, hi, finite, positive, value, below, ends, floor⟩
  · linarith

theorem normalizeStage_inRange (one : 1 ≤ val .double s.sig) (two : val .double s.sig < 2) :
    (∀ st, (normalizeStage op s).log = s.log ++ [st] → st.payload = .normalizeNone s.sig s.exp) ∧
    (normalizeStage op s).sig = s.sig ∧ (normalizeStage op s).exp = s.exp := by
  rcases normalizeStage_cases op c with ⟨zero, _⟩ | ⟨_, above, _⟩ | ⟨_, below, _⟩ | ⟨_, _, e⟩
  · rw [(val_eq_zero_iff _ _).mpr zero] at one
    norm_num at one
  · linarith
  · linarith
  · rw [e]
    exact ⟨fun st log => payload_of_emit (u := { s with stage := .final }) rfl log, rfl, rfl⟩

end

/-- Settles O42: the three ranges, by what Normalize does in each. -/
theorem normalizeChoosesByRange : Obligations.NormalizeChoosesByRange := by
  intro s op finite
  obtain ⟨s1, s2, s3, s4, h⟩ := simulate_trace op finite
  obtain ⟨sig, exp, k⟩ := h.normalizeRegisters
  obtain ⟨st, o, l, r, third, payload⟩ := h.computeRecord
  obtain ⟨st3, log⟩ := h.normalizeFrame.log
  have c := h.computedSig
  refine ⟨_, st, o, l, r, _, _, _, _, exec_ofSimOp op s, third, payload, fun nonzero =>
    ⟨st3, h.fourthRecord log, ?_⟩⟩
  rw [sig, exp, k, ← h.computeFrame.exp]
  rw [h.normalize] at log ⊢
  refine ⟨fun two => ?_, fun one => ?_, fun one two => ?_⟩
  · obtain ⟨record, once, count, finiteSig, positive, value⟩ := normalizeStage_overflow (op := op) c two
    obtain ⟨_, _, below, _⟩ := c
    rw [once, count, zpow_one]
    exact ⟨count ▸ record st3 log, rfl, le_rfl, finiteSig, positive, value, by linarith, by linarith⟩
  · obtain ⟨record, count, lo, hi, finiteSig, positive, value, below, ends, floor⟩ :=
      normalizeStage_underflow (op := op) c nonzero one
    refine ⟨record st3 log, count, lo, by omega, finiteSig, positive, value, fun shifted => ⟨?_, by omega⟩, ends⟩
    rw [value, ← sub_add_cancel (normalizeStage op s3).k 1, zpow_add_one₀ two_ne_zero] at below
    linarith
  · obtain ⟨record, sameSig, sameExp⟩ := normalizeStage_inRange (op := op) c one two
    exact ⟨record st3 log, sameSig, sameExp⟩

/-- An Overflow record of a request for `op`: `k` halvings of `before` to `after` (R135, R147). -/
structure OverflowRun (op : SimOp) (k : ℤ) (before after : Binary64) : Prop where
  notDiv : op ≠ .div
  once : k = 1
  two_le : 2 ≤ val .double before
  lt_four : val .double before < 4
  value : val .double after = val .double before / 2
  finiteBefore : isFinite .double before = true
  finiteAfter : isFinite .double after = true

/-- An Underflow record of a request for `op`: `k` doublings of `before` to `after`, the exponent at `e` (R136, R147). -/
structure UnderflowRun (op : SimOp) (k : ℤ) (before after : Binary64) (e : ℤ) : Prop where
  notMul : op ≠ .mul
  nonneg : 0 ≤ k
  le_24 : k ≤ 24
  div : op = .div → k ≤ 1 ∧ 1 / 2 < val .double before
  pos : 0 < val .double before
  lt_one : val .double before < 1
  value : val .double after = val .double before * 2 ^ k
  lt_two : val .double after < 2
  ends : 1 ≤ val .double after ∨ e ≤ -126
  finiteBefore : isFinite .double before = true
  finiteAfter : isFinite .double after = true

section
variable {op : SimOp} {s s1 s2 s3 s4 : State} (h : Trace op s s1 s2 s3 s4) (finite : FiniteOperands s.req)
  (nonzero : isZero .double s3.sig = false)
include h finite nonzero

/-- A quotient is below 2, so Div never overflows. -/
theorem Trace.overflowRun (two : 2 ≤ val .double s3.sig) : OverflowRun op 1 s3.sig (normalizeStage op s3).sig := by
  have c := h.computedSig
  obtain ⟨_, _, _, finiteSig, _, value⟩ := normalizeStage_overflow (op := op) c two
  obtain ⟨finiteBefore, _, four, _⟩ := c
  refine ⟨?_, rfl, two, four, value, finiteBefore, finiteSig⟩
  rintro rfl
  exact absurd (h.quotient_range finite nonzero).2 (not_lt.mpr two)

/-- A product is at least 1, so Mul never underflows; a quotient is above 1/2, so Div doubles at most once. -/
theorem Trace.underflowRun (one : val .double s3.sig < 1) :
    UnderflowRun op (normalizeStage op s3).k s3.sig (normalizeStage op s3).sig (normalizeStage op s3).exp := by
  have c := h.computedSig
  obtain ⟨_, _, lo, hi, finiteSig, _, value, below, ends, _⟩ := normalizeStage_underflow (op := op) c nonzero one
  obtain ⟨finiteBefore, _, _, least⟩ := c
  have positive : 0 < val .double s3.sig := lt_of_lt_of_le (two_zpow_pos _) (least nonzero)
  refine ⟨?_, lo, hi, ?_, positive, one, value, below, ends, finiteBefore, finiteSig⟩
  · rintro rfl
    exact absurd (h.one_le_product finite nonzero) (not_le.mpr one)
  · rintro rfl
    obtain ⟨half, _⟩ := h.quotient_range finite nonzero
    have scale : (2 : ℚ) ^ (normalizeStage .div s3).k < 2 ^ (2 : ℤ) := by
      have scaled := mul_lt_mul_of_pos_right half (two_zpow_pos (normalizeStage .div s3).k)
      rw [← value] at scaled
      norm_num
      linarith
    have few := (zpow_lt_zpow_iff_right₀ one_lt_two).mp scale
    exact ⟨by omega, half⟩

end

/-- A Normalize record of a request on finite operands is one of the two loops'. -/
theorem Trace.normalizeRun {op : SimOp} {s s1 s2 s3 s4 : State} (h : Trace op s s1 s2 s3 s4)
    (finite : FiniteOperands s.req) {st : SimulationStep} (mem : st ∈ (simulate op s).log) {m : NormMode} {k e : ℤ}
    {b a : Binary64} (payload : st.payload = .normalize m k b a e) :
    (m = .overflow ∧ OverflowRun op k b a) ∨ (m = .underflow ∧ UnderflowRun op k b a e) := by
  have c := h.computedSig
  have log := (h.recorded mem).normalize (by rw [SimulationStep.kind, payload]; rfl)
  rw [h.normalize] at log
  cases nonzero : isZero .double s3.sig
  case true =>
    rw [normalizeStage_of_zero c nonzero] at log
    have zeroExit := payload_of_emit (s := s3) (u := s3) rfl log
    cases payload.symm.trans zeroExit
  case false =>
    rcases le_or_gt 2 (val .double s3.sig) with two | two
    · cases payload.symm.trans ((normalizeStage_overflow (op := op) c two).1 st log)
      exact .inl ⟨rfl, h.overflowRun finite nonzero two⟩
    rcases lt_or_ge (val .double s3.sig) 1 with one | one
    · cases payload.symm.trans ((normalizeStage_underflow (op := op) c nonzero one).1 st log)
      exact .inr ⟨rfl, h.underflowRun finite nonzero one⟩
    · cases payload.symm.trans ((normalizeStage_inRange (op := op) c one two).1 st log)

/-- Settles O43: a Normalize record is the Overflow or the Underflow loop's. -/
theorem normalizationBounds : Obligations.NormalizationBounds := by
  intro s t op finite answers st mem m k b a e payload
  obtain ⟨s1, s2, s3, s4, h⟩ := simulate_trace op finite
  rw [exec_ofSimOp] at answers
  cases answers
  rcases h.normalizeRun finite mem payload with ⟨rfl, run⟩ | ⟨rfl, run⟩
  · exact ⟨run.finiteBefore, run.finiteAfter, fun _ => ⟨run.notDiv, run.once, run.two_le, run.lt_four, run.value⟩, nofun⟩
  · exact ⟨run.finiteBefore, run.finiteAfter, nofun, fun _ => ⟨run.notMul, run.nonneg, run.le_24, run.div, run.pos,
      run.lt_one, run.value, run.lt_two, run.ends⟩⟩

/-! ### Final and the response (R138, R140) -/

/-- Settles O30: the two ends of a request, and which loop Mul and Div can run. -/
theorem simCompletesWithLegalSteps : Obligations.SimCompletesWithLegalSteps := by
  intro s op finite
  obtain ⟨s1, s2, s3, s4, h⟩ := simulate_trace op finite
  have loops : ∀ st ∈ (simulate op s).log, ∀ m k b a e, st.payload = .normalize m k b a e →
      (op = .mul → m = .overflow) ∧ (op = .div → m = .underflow) := by
    intro st mem m k b a e payload
    rcases h.normalizeRun finite mem payload with ⟨rfl, run⟩ | ⟨rfl, run⟩
    · exact ⟨fun _ => rfl, fun div => absurd div run.notDiv⟩
    · exact ⟨fun mul => absurd mul run.notMul, fun _ => rfl⟩
  rcases h.response with ⟨_, _, rsp, path⟩ | ⟨_, _, _, rsp, path⟩
  · exact ⟨_, _, exec_ofSimOp op s, rsp, (simulate_idle op s).2, rfl, .inr ⟨path, rfl⟩, loops⟩
  · exact ⟨_, _, exec_ofSimOp op s, rsp, (simulate_idle op s).2, rfl, .inl ⟨path, by cases op <;> rfl⟩, loops⟩

/-- Settles O44: Final's record is the fifth, of the registers Normalize left. -/
theorem finalReportsTheRegisters : Obligations.FinalReportsTheRegisters := by
  intro s op finite
  obtain ⟨s1, s2, s3, s4, h⟩ := simulate_trace op finite
  obtain ⟨sig, exp, _⟩ := h.normalizeRegisters
  obtain ⟨_, rsgn⟩ := h.computeRegisters
  obtain ⟨st, o, l, r, third, payload⟩ := h.computeRecord
  have computed : (simulate op s).log[2]?.map SimulationStep.payload = some (.compute o l r s3.raw s3.rsgn s3.sig s2.exp) := by
    rw [third, ← payload]
    rfl
  rcases h.response with ⟨zero, _, rsp, _⟩ | ⟨_, _, log, rsp, _⟩
  · exact ⟨_, _, o, l, r, _, _, _, _, literalResult op s.req.a s.req.b, exec_ofSimOp op s, rsp, rfl, computed,
      by cases op <;> rfl, fun nonzero => absurd (zero.symm.trans nonzero) (by decide)⟩
  · have fifth : (simulate op s).log[4]? = some { title := Config.titleOf .final op, payload := finalPayload op s4 } := by
      rw [← h.length_log4]
      exact getElem?_of_snoc_initial (log ▸ ⟨[], List.append_nil _⟩)
    have report : finalPayload op s4 = .final (literalResult op s.req.a s.req.b) (simulate op s).rsgn
        ((simulate op s).exp + 127) (simulate op s).sig
        (finalText (simulate op s).rsgn ((simulate op s).exp + 127) (simulate op s).sig) := by
      rw [sig, exp, rsgn, ← h.normalizeFrame.rsgn, ← h.req4]
      rfl
    exact ⟨_, _, o, l, r, _, _, _, _, literalResult op s.req.a s.req.b, exec_ofSimOp op s, rsp, rfl, computed,
      by cases op <;> rfl, fun _ => ⟨rfl, _, fifth, report⟩⟩

/-! ### Exponents (R145) -/

theorem Trace.stage2_exp_range {op : SimOp} {s s1 s2 s3 s4 : State} (h : Trace op s s1 s2 s3 s4) :
    (op = .add ∨ op = .sub → -127 ≤ s2.exp ∧ s2.exp ≤ 128) ∧ (op = .mul → -254 ≤ s2.exp ∧ s2.exp ≤ 256) ∧
      (op = .div → -255 ≤ s2.exp ∧ s2.exp ≤ 255) := by
  have rangeA := decompose_exp_range s.req.a
  have rangeB := decompose_exp_range s.req.b
  refine ⟨fun addSub => (h.alignedPair addSub).2, ?_, ?_⟩
  · rintro rfl
    have sum := h.expCalcMul.2
    omega
  · rintro rfl
    have difference := h.expCalcDiv.2
    omega

/-- Settles O45: the ranges of raw exponents, of their sums and differences, and of what Normalize leaves. -/
theorem exponentsStayInRange : Obligations.ExponentsStayInRange := by
  intro s t op finite answers
  obtain ⟨s1, s2, s3, s4, h⟩ := simulate_trace op finite
  rw [exec_ofSimOp] at answers
  cases answers
  refine ⟨fun st mem A B payload => ?_, fun st third o l r w c g x payload => ?_, fun st mem v c e g x payload => ?_⟩
  · have same := payload.symm.trans ((h.recorded mem).extract (by rw [SimulationStep.kind, payload]; rfl))
    cases same
    obtain ⟨loA, hiA⟩ := decompose_exp_range s.req.a
    obtain ⟨loB, hiB⟩ := decompose_exp_range s.req.b
    exact ⟨loA, hiA, loB, hiB, decompose_sig_of_top finite.1, decompose_sig_of_top finite.2⟩
  · obtain ⟨st', o', l', r', third', payload'⟩ := h.computeRecord
    cases third.symm.trans third'
    cases payload.symm.trans payload'
    exact h.stage2_exp_range
  · obtain ⟨ranges, payload'⟩ := (h.recorded mem).final (by rw [SimulationStep.kind, payload]; rfl)
    cases payload.symm.trans payload'
    obtain ⟨_, _, _, _, _, lo, hi, _⟩ := ranges
    omega

end Sys2Proof.Machine
end

section
/-! The text of the Final step (spec/41_simulator.md R139): its exponent is the decimal numeral of the integer. -/

namespace Sys2Proof.Machine

/-- `ds` is the base-10 numeral of `n`, without leading zeros (R139). -/
structure IsDecimal (n : ℕ) (ds : Str) : Prop where
  nonempty : ds ≠ []
  digits : ∀ d ∈ ds, '0' ≤ d ∧ d ≤ '9'
  value : ds.foldl (fun n d => 10 * n + (d.toNat - 48)) 0 = n
  noLeadingZero : ds.head? = some '0' → ds = ['0']

theorem digitChar_spec : ∀ k < 10, ('0' ≤ digitChar k ∧ digitChar k ≤ '9') ∧ (digitChar k).toNat - 48 = k := by decide

theorem digitChar_mod (n : ℕ) : digitChar n = digitChar (n % 10) := by unfold digitChar; rw [Nat.mod_mod]

theorem isDecimal_digit {n : ℕ} (h : n < 10) : IsDecimal n [digitChar n] := by
  obtain ⟨range, value⟩ := digitChar_spec n h
  refine ⟨List.cons_ne_nil _ _, fun d hd => ?_, ?_, fun zero => ?_⟩
  · rw [List.mem_singleton.mp hd]; exact range
  · simpa using value
  · rw [Option.some.inj zero]

/-- A digit after the numeral of a positive number. -/
theorem IsDecimal.snoc {n : ℕ} {ds : Str} (h : IsDecimal (n / 10) ds) (large : 10 ≤ n) :
    IsDecimal n (ds ++ [digitChar n]) := by
  rw [digitChar_mod]
  obtain ⟨range, value⟩ := digitChar_spec (n % 10) (Nat.mod_lt _ (by decide))
  refine ⟨by simp, fun d hd => ?_, ?_, fun zero => ?_⟩
  · rcases List.mem_append.mp hd with front | last
    · exact h.digits d front
    · rw [List.mem_singleton.mp last]; exact range
  · rw [List.foldl_append, h.value, List.foldl_cons, List.foldl_nil, value]
    exact Nat.div_add_mod n 10
  · rw [List.head?_append_of_ne_nil _ h.nonempty] at zero
    have positive := h.value
    rw [h.noLeadingZero zero] at positive
    have : 0 = n / 10 := positive
    omega

theorem isDecimal_decDigits (fuel : ℕ) : ∀ n ≤ fuel, IsDecimal n (decDigits fuel n) := by
  induction fuel with
  | zero => intro n h; exact isDecimal_digit (by omega)
  | succ fuel ih =>
    intro n h
    unfold decDigits
    split
    · next small => exact isDecimal_digit small
    · next large => exact (ih (n / 10) (by omega)).snoc (by omega)

theorem dec_eq (e : ℤ) : dec e = (if e < 0 then ['-'] else []) ++ decDigits e.natAbs e.natAbs := by
  unfold dec; split <;> rfl

/-- Settles O46: the numeral of the exponent's absolute value, after a minus sign for a negative one. -/
theorem finalTextIsDecimal : Obligations.FinalTextIsDecimal := by
  intro c e g
  obtain ⟨nonempty, digits, value, noLeadingZero⟩ := isDecimal_decDigits e.natAbs e.natAbs le_rfl
  refine ⟨decDigits e.natAbs e.natAbs, ?_, nonempty, digits, value, noLeadingZero⟩
  unfold finalText
  rw [dec_eq]
  simp

end Sys2Proof.Machine
end

section
/-! The statuses (spec/60_exceptions.md R180 to R187): what raises each, that a fault response is the whole effect of its
request, and that valid requests and a zero divisor raise nothing. -/

namespace Sys2Proof.Machine

/-! ### The codes and the reserved words (R180, R182) -/

/-- Settles O26: the table of R180, row by row. -/
theorem statusCodes : Obligations.StatusCodes := ⟨rfl, rfl, rfl, rfl⟩

/-- Settles O5: the idle block serves the request, and serving a word that does not decode raises `ILLEGAL_CMD`. -/
theorem reservedWordRaisesIllegalCmd : Obligations.ReservedWordRaisesIllegalCmd := by
  intro s r rest e idle host reserved
  rw [step_serve idle host, serve_of_decode_error (e := e) reserved]
  rfl

/-! ### The entry check of SIM (R120, R183, R186) -/

theorem nonfiniteOperand_of_a {r : Request} (a : isFinite .double r.a = false) : nonfiniteOperand r = some .A := by
  unfold nonfiniteOperand; rw [a]; rfl

theorem nonfiniteOperand_of_b {r : Request} (a : isFinite .double r.a = true) (b : isFinite .double r.b = false) :
    nonfiniteOperand r = some .B := by
  unfold nonfiniteOperand; rw [a, b]; rfl

/-- The entry check raises, or both operands are finite. -/
theorem nonfiniteOperand_or_finite (r : Request) : (∃ which, nonfiniteOperand r = some which) ∨ FiniteOperands r := by
  cases a : isFinite .double r.a
  · exact .inl ⟨_, nonfiniteOperand_of_a a⟩
  · cases b : isFinite .double r.b
    · exact .inl ⟨_, nonfiniteOperand_of_b a b⟩
    · exact .inr ⟨a, b⟩

theorem simulate_nonfinite {op : SimOp} {s : State} {which : OperandName} (h : nonfiniteOperand s.req = some which) :
    simulate op s = raise .nonfiniteOperand (some which) s := by
  unfold simulate; rw [h]

/-- Settles O27: the entry check tests `a` first, and what it refuses is raised. -/
theorem nonfiniteOperandIsRefused : Obligations.NonfiniteOperandIsRefused := by
  intro s op
  rw [exec_ofSimOp]
  refine ⟨fun a => ?_, fun a b => ?_⟩
  · rw [simulate_nonfinite (nonfiniteOperand_of_a a)]; rfl
  · rw [simulate_nonfinite (nonfiniteOperand_of_b a b)]; rfl

/-! ### Requests that raise nothing (R181, R185) -/

/-- Both ends of a SIM request on finite operands deliver a result under OK. -/
theorem simulate_ok (op : SimOp) {s : State} (finite : FiniteOperands s.req) :
    ∃ r, (simulate op s).rsp = some r ∧ r.status = .ok ∧ r.info = none := by
  obtain ⟨s1, s2, s3, s4, h⟩ := simulate_trace op finite
  rcases h.response with ⟨_, _, rsp, _⟩ | ⟨_, _, _, rsp, _⟩
  · exact ⟨_, rsp, rfl, rfl⟩
  · exact ⟨_, rsp, rfl, rfl⟩

theorem exec_ofSimOp_ok (op : SimOp) {s : State} (finite : FiniteOperands s.req) :
    ∃ t r, exec (Instr.ofSimOp op) s = .next t ∧ t.rsp = some r ∧ r.status = .ok ∧ r.info = none :=
  have ⟨r, ok⟩ := simulate_ok op finite
  ⟨_, r, exec_ofSimOp op s, ok⟩

/-- Settles O29: ENC and SPLIT raise nothing at all, SIM only at its entry check and DEC only on an invalid pattern. -/
theorem validRequestsRaiseNothing : Obligations.ValidRequestsRaiseNothing := by
  intro s i sim single double
  cases i with
  | encS | encD | splitS | splitD => exact ⟨_, _, rfl, rfl, rfl, rfl⟩
  | simAdd => exact exec_ofSimOp_ok .add (sim (by decide))
  | simSub => exact exec_ofSimOp_ok .sub (sim (by decide))
  | simMul => exact exec_ofSimOp_ok .mul (sim (by decide))
  | simDiv => exact exec_ofSimOp_ok .div (sim (by decide))
  | decS => exact ⟨_, _, exec_decS_of_valid (single rfl), rfl, rfl, rfl⟩
  | decD => exact ⟨_, _, exec_decD_of_valid (double rfl), rfl, rfl, rfl⟩

/-- Settles O39: Compute leaves the significand `+0`, so the request takes the zero exit. -/
theorem zeroDivisorIsNotAFault : Obligations.ZeroDivisorIsNotAFault := by
  intro s finite zero
  obtain ⟨s1, s2, s3, s4, h⟩ := simulate_trace .div finite
  obtain ⟨zeroDivisor, _, sig, sign, st, third, payload⟩ := h.quotient finite
  have zeroSig : s3.sig = zero64 := sig.trans (zeroDivisor zero)
  rw [decompose_sig_zero finite.2 zero, zeroDivisor zero, zeroSig, sign] at payload
  rcases h.response with ⟨_, _, rsp, path⟩ | ⟨nonzero, _⟩
  · exact ⟨_, _, st, _, _, exec_ofSimOp .div s, rsp, List.mem_singleton.mp path, h.extractRecord, third, payload⟩
  · rw [zeroSig, isZero_zero64] at nonzero
    exact absurd nonzero (by decide)

/-! ### A fault response is the whole effect of its request (R187) -/

theorem OkShape.status_ok {r : Response} (h : OkShape r) : r.status = .ok := by cases h <;> rfl

/-- Under a fault status a response holds no result, and the info exactly for `NONFINITE_OPERAND`. -/
theorem ResponseShape.fault_fields {r : Response} (h : ResponseShape r) (fault : r.status ≠ .ok) :
    r.pattern = none ∧ r.fields = none ∧ r.value = none ∧ r.result = none ∧
      (r.info.isSome = true ↔ r.status = .nonfiniteOperand) := by
  cases h with
  | ok _ shape => exact absurd shape.status_ok fault
  | illegalCmd | badPattern => exact ⟨rfl, rfl, rfl, rfl, by decide⟩
  | nonfiniteOperand which => exact ⟨rfl, rfl, rfl, rfl, iff_of_true rfl rfl⟩

theorem deliver_of_rsp {q r : Response} {s : State} (rsp : (deliver q s).rsp = some r) : deliver q s = deliver r s := by
  rw [Option.some.inj rsp]

theorem simulate_of_fault {op : SimOp} {s : State} {r : Response} (rsp : (simulate op s).rsp = some r)
    (fault : r.status ≠ .ok) : simulate op s = deliver r s := by
  rcases nonfiniteOperand_or_finite s.req with ⟨which, refused⟩ | finite
  · rw [simulate_nonfinite refused] at rsp ⊢
    exact deliver_of_rsp rsp
  · obtain ⟨r', rsp', ok, _⟩ := simulate_ok op finite
    cases rsp.symm.trans rsp'
    exact absurd ok fault

theorem execState_of_delivery {i : Instr} {s : State} {q r : Response} (delivers : exec i s = .next (deliver q s))
    (rsp : (execState i s).rsp = some r) : execState i s = deliver r s := by
  rw [exec_eq_next] at delivers
  rw [Host.Outcome.next.inj delivers] at rsp ⊢
  exact deliver_of_rsp rsp

/-- The Codec's opcodes only ever deliver; a SIM opcode does more only under OK. -/
theorem execState_of_fault {i : Instr} {s : State} {r : Response} (rsp : (execState i s).rsp = some r)
    (fault : r.status ≠ .ok) : execState i s = deliver r s := by
  cases i with
  | encS | encD | splitS | splitD => exact execState_of_delivery rfl rsp
  | simAdd | simSub | simMul | simDiv => exact simulate_of_fault rsp fault
  | decS => exact execState_of_delivery (exec_decS s) rsp
  | decD => exact execState_of_delivery (exec_decD s) rsp

theorem serve_of_fault {s : State} {r : Response} (rsp : (serve s).rsp = some r) (fault : r.status ≠ .ok) :
    serve s = deliver r s := by
  cases decoded : decode s.params.hasDec s.req.cmd with
  | ok i =>
    rw [serve_of_decode_ok decoded] at rsp ⊢
    exact execState_of_fault rsp fault
  | error e =>
    rw [serve_of_decode_error decoded] at rsp ⊢
    exact deliver_of_rsp rsp

/-- Settles O28: serving the request only delivers the fault response, and the response has one of the legal shapes. -/
theorem faultHasNoOtherEffect : Obligations.FaultHasNoOtherEffect := by
  intro s t r rest resp idle host served rsp fault
  rw [step_serve idle host] at served
  cases served
  obtain ⟨resp', rsp', shape⟩ := serve_response { s with req := r, host := rest }
  cases rsp.symm.trans rsp'
  exact ⟨serve_of_fault rsp fault, shape.fault_fields fault⟩

end Sys2Proof.Machine
end

section
/-! Reset and the answer to a request (spec/70_reset_and_hazards.md R200, R206; spec/10_state.md R23, R36): a reset is taken
at any stage, and an idle block answers a request in the one step that serves it (log 8). -/

namespace Sys2Proof.Machine

/-! ### Serving ends in a delivery or is a whole SIM request -/

theorem execState_of_exec {i : Instr} {s t : State} (h : exec i s = .next t) : execState i s = t :=
  Host.Outcome.next.inj ((exec_eq_next i s).symm.trans h)

/-- An opcode of the Codec only delivers; a SIM opcode is its operation's request. -/
theorem execState_cases (i : Instr) (s : State) :
    (∃ r, execState i s = deliver r s) ∨ ∃ op, execState i s = simulate op s := by
  cases i with
  | encS | encD | splitS | splitD => exact .inl ⟨_, rfl⟩
  | simAdd => exact .inr ⟨.add, rfl⟩
  | simSub => exact .inr ⟨.sub, rfl⟩
  | simMul => exact .inr ⟨.mul, rfl⟩
  | simDiv => exact .inr ⟨.div, rfl⟩
  | decS => exact .inl ⟨_, execState_of_exec (exec_decS s)⟩
  | decD => exact .inl ⟨_, execState_of_exec (exec_decD s)⟩

/-- A reserved word is answered by a delivery too. -/
theorem serve_cases (s : State) : (∃ r, serve s = deliver r s) ∨ ∃ op, serve s = simulate op s := by
  cases decoded : decode s.params.hasDec s.req.cmd with
  | ok i => rw [serve_of_decode_ok decoded]; exact execState_cases i s
  | error e => rw [serve_of_decode_error decoded]; exact .inl ⟨_, rfl⟩

/-- Serving a request writes neither the parameters nor the request register nor the host's list. -/
theorem serve_environment (s : State) : EnvironmentFrame s (serve s) := by
  rcases serve_cases s with ⟨r, h⟩ | ⟨op, h⟩
  · rw [h]; exact ⟨deliver_params r s, deliver_req r s, deliver_host r s⟩
  · rw [h]; exact simulate_environment op s

theorem serve_idle (s : State) : (serve s).building = none ∧ (serve s).stage = .idle := by
  rcases serve_cases s with ⟨r, h⟩ | ⟨op, h⟩
  · rw [h]; exact ⟨deliver_building r s, deliver_stage r s⟩
  · rw [h]; exact simulate_idle op s

/-- Settles O11: the idle block serves the request whole; serving delivers a response of a legal shape, leaves the block
idle and writes nothing of the block's environment. -/
theorem everyRequestIsAnswered : Obligations.EveryRequestIsAnswered := by
  intro s r rest idle host
  obtain ⟨resp, rsp, shape⟩ := serve_response { s with req := r, host := rest }
  obtain ⟨building, stage⟩ := serve_idle { s with req := r, host := rest }
  obtain ⟨params, req, served⟩ := serve_environment { s with req := r, host := rest }
  exact ⟨_, resp, step_serve idle host, rsp, shape, stage, building, req, served, params⟩

/-! ### Reset -/

/-- A reset is taken at any stage, whatever the block was doing. -/
theorem step_reset {s : State} {rest : List HostEvent} (host : s.host = .reset :: rest) :
    step s = .next (blockReset { s with host := rest }) := by
  unfold step; rw [poll_reset host]

/-- Settles O8: the step is the block's reset, whose fields are those of Table S (R38). -/
theorem resetAbandonsTheRequest : Obligations.ResetAbandonsTheRequest := by
  intro s rest host
  exact ⟨_, step_reset host, blockReset_stage _, blockReset_log _, blockReset_rsp _, blockReset_building _,
    blockReset_params _, blockReset_host _⟩

end Sys2Proof.Machine
end

section
/-! The zero exit, the idle block and the state after reset (spec/41_simulator.md R134; spec/30_encoding.md Table O;
spec/60_exceptions.md R188; spec/10_state.md R38): when a SIM request takes the zero exit, what one step of an idle block
does, and what holds right after reset. -/

namespace Sys2Proof.Machine

/-! ### The zero exit (R134) -/

/-- Settles O41: Compute leaves a finite significand, and the request ends by the zero exit exactly when it is zero. -/
theorem zeroExitExactlyOnZeroSignificand : Obligations.ZeroExitExactlyOnZeroSignificand := by
  intro s op finite
  obtain ⟨s1, s2, s3, s4, h⟩ := simulate_trace op finite
  obtain ⟨st, o, l, r, third, payload⟩ := h.computeRecord
  have recorded : (simulate op s).log[2]?.map SimulationStep.payload = some (.compute o l r s3.raw s3.rsgn s3.sig s2.exp) := by
    rw [third, ← payload]
    rfl
  obtain ⟨finiteSig, _⟩ := h.computedSig
  have notNaN := isFinite_not_nan finiteSig
  rcases h.response with ⟨zero, _, rsp, path⟩ | ⟨nonzero, _, _, rsp, path⟩
  · exact ⟨_, _, o, l, r, _, _, _, _, exec_ofSimOp op s, rsp, rfl, recorded, notNaN, fun _ => ⟨path, rfl⟩,
      fun nonzero => absurd (zero.symm.trans nonzero) (by decide)⟩
  · exact ⟨_, _, o, l, r, _, _, _, _, exec_ofSimOp op s, rsp, rfl, recorded, notNaN,
      fun zero => absurd (zero.symm.trans nonzero) (by decide), fun _ => path⟩

/-! ### One step of an idle block (R121, R188; log 7, log 8, log 9) -/

/-- Settles O3: the idle block serves the request, and serving a word that decodes runs its opcode. -/
theorem stepRunsDecodedRequest : Obligations.StepRunsDecodedRequest := by
  intro s r rest i idle host decoded
  rw [step_serve idle host, serve_of_decode_ok (i := i) decoded, exec_eq_next]

/-- Settles O4: a word below 16 is its own low byte, so the request `withFetchWord` places at the head of the host's list
carries it whole. -/
theorem fetchWordIsRunNext : Obligations.FetchWordIsRunNext := by
  intro s w i small decoded
  have whole : w % 2 ^ 8 = w := Nat.mod_eq_of_lt (by omega)
  rw [State.withFetchWord, whole]
  exact stepRunsDecodedRequest _ (requestOfWord s w) s.host i rfl rfl decoded

/-- Settles O7: with nothing to take, the step is the wait. -/
theorem idleBlockWaits : Obligations.IdleBlockWaits := by
  intro s idle host
  unfold step
  rw [poll_wait idle host]

/-- Settles O10: an idle block has the datapath invariant, under which no step stops. -/
theorem idleBlockNeverStops : Obligations.IdleBlockNeverStops :=
  fun _ idle => stepSafe_of_datapathInvariant (datapathInvariant_of_idle idle)

/-! ### The state after reset (R38) -/

/-- Settles O9: the rows of Table S that give a value. -/
theorem resetStateHoldsTableS : Obligations.ResetStateHoldsTableS := ⟨rfl, rfl, rfl, rfl⟩

/-- Settles O54: the block is idle, builds nothing and has delivered nothing. -/
theorem resetHasLogInvariant : Obligations.ResetHasLogInvariant := by
  obtain ⟨stage, _, rsp, building⟩ := resetStateHoldsTableS
  exact logInvariant_of_idle stage building fun r delivered => by rw [rsp] at delivered; cases delivered

/-- Settles O56: the block is idle. -/
theorem resetHasDatapathInvariant : Obligations.ResetHasDatapathInvariant :=
  have ⟨stage, _⟩ := resetStateHoldsTableS
  datapathInvariant_of_idle stage

end Sys2Proof.Machine
end
